-- ==== Sys2Proof/Word.lean ====
section
/-! DEFINITION. The word, byte and block types of the SK3 core (00_scope.md R7, R10, R11). -/

namespace Sys2Proof

/-- A 64-bit word; `+`, `-` and `^^^` on it are the modular operations of 00_scope.md R11. -/
abbrev Word := BitVec 64

/-- One byte of IMEM or of a byte string. -/
abbrev Byte := BitVec 8

/-- A block: sixteen words (00_scope.md R7). -/
abbrev Block := Vector Word 16

end Sys2Proof
end

