-- ==== Sys2Proof/Config.lean ====
section
/-! DEFINITION. What an implementation fixes: the parameters of 00_scope.md R8 and R9 as plain data, and the
free values the spec leaves open (93_implementation_defined.md U6, U8, U9) as constants without a body. -/

namespace Sys2Proof

/-- What the Merkle reduction does with an odd last node (45_merkle.md R205, decision D17): S3 allows either. -/
inductive OddNode where
  /-- the node goes up unchanged: the policy the spec pins (R209) -/
  | carryUp
  /-- the node is hashed with itself: S3's other choice -/
  | selfConcat
deriving DecidableEq, Repr

/-- The security modes, selected by the digest size (40_cipher.md R102). -/
inductive SecurityMode where
  /-- digest size 256 -/
  | standard
  /-- digest size 512 -/
  | enhanced
  /-- digest size 1024 -/
  | quantum
deriving DecidableEq, Repr

/-- `R` of each security mode (00_scope.md R8, 92_eei_decisions.md D1): positive multiples of 4 (40_cipher.md R103). -/
structure RoundCounts where
  standard : Nat
  enhanced : Nat
  quantum : Nat
deriving DecidableEq, Repr

/-- The algorithm parameters of 00_scope.md R8 that are the same in every security mode. -/
structure Tables where
  /-- the MIX pairing (40_cipher.md R105): pair `j` is the words `pairing[2j]` (x0) and `pairing[2j+1]` (x1) -/
  pairing : List Nat
  /-- `ROT`, eight rows of eight rotation amounts in 1..63 (R104) -/
  rot : List (List Nat)
  /-- `PI`, the word permutation (R106) -/
  pi : List Nat
  /-- `MODE_TAG` of the modes sequential, streaming, tree, in this order (42_dispatch_seq_stream.md R150) -/
  modeTag : List Word
  /-- the Merkle odd-node policy (45_merkle.md R209) -/
  oddNode : OddNode
deriving DecidableEq, Repr

/-- The algorithm parameters S3 leaves open and the spec pins (00_scope.md R8): each is a field, so that a later
audit can change it (92_eei_decisions.md, "Open parameters"). The pinned values are `pinnedParams`. -/
structure Params extends Tables where
  rounds : RoundCounts
deriving DecidableEq, Repr

/-- The algorithm parameters one computation runs with: the tables and one round count, `R` of 40_cipher.md R103. -/
structure Algo extends Tables where
  rounds : Nat
deriving DecidableEq, Repr

/-- The parameters of one core: the platform's open ones (00_scope.md R9) and the algorithm's (R8). `none` for a
capacity means unbounded. -/
structure Config where
  /-- `IMEM_SIZE`, bytes of input memory (20_memory.md R60) -/
  imemSize : Nat
  /-- `MK_MAX`, capacity of the Merkle node list (45_merkle.md R207) -/
  mkMax : Option Nat
  /-- `TREE_NODE_MAX`, capacity of the tree node arena (43_dispatch_tree.md R188) -/
  treeNodeMax : Option Nat
  /-- `REG_BASE`, where the platform maps the register space: no rule reads it (20_memory.md R67) -/
  regBase : Nat
  /-- `IMEM_BASE`, where the platform maps IMEM: no rule reads it (20_memory.md R67) -/
  imemBase : Nat
  /-- the algorithm parameters -/
  params : Params
deriving DecidableEq, Repr

/-- FREE VALUE (log 3): the byte of IMEM at an address that the host has not written since reset number `epoch`
(93_implementation_defined.md U8, U9: any value). -/
opaque Config.freeByte : (epoch : Nat) → (addr : Nat) → Byte

/-- FREE VALUE (log 5): a word whose bits the STATUS fields other than BUSY read as in the `k`-th STATUS read while
BUSY is 1 after reset number `epoch` (93_implementation_defined.md U6: any value). -/
opaque Config.busyStatus : (epoch : Nat) → (k : Nat) → Word

end Sys2Proof
end

