-- ==== Sys2Proof/Syntax.lean ====
section
/-! DEFINITION. The sixteen commands of 30_encoding.md R82, one constructor per row of spec/opcode_table.json, and
the accesses a host can make (30_encoding.md R86, 20_memory.md R66). -/

namespace Sys2Proof

/-- A command of the core (30_encoding.md R82). Only UBI carries an operand in its word: the domain tag, any value
0..255 (R81, R83), so every term of this type is a legal command. -/
inductive Instr where
  | nop
  | clrerr
  | wipe
  | enc
  | dec
  | ubi (d : Byte)
  | hash
  | tree
  | verify
  | sInit
  | sUpdate
  | sFinal
  | mac
  | mkBegin
  | mkPush
  | mkRoot
deriving DecidableEq, Repr

/-- One access of the host: a line of a host script (30_encoding.md R86). `width` is the access width in bytes
(20_memory.md R66); registers are named by their index (10_state.md R21). A `WM` line of a script is a sequence
of `writeMem`, a command line is a `writeReg` to CMD (index 0). -/
inductive HostAction where
  | writeReg (width idx : Nat) (value : Word)
  | readReg (width idx : Nat)
  | writeMem (width addr : Nat) (value : Word)
  | readMem (width addr : Nat)
  | reset
deriving DecidableEq, Repr

end Sys2Proof
end

