-- ==== Sys2Proof/WellFormed.lean ====
section
/-! DEFINITION. Well-formedness: which command words are legal (30_encoding.md R83), which host accesses have a
defined width (20_memory.md R66), which parameters are admissible (92_eei_decisions.md, "Open parameters"). -/

namespace Sys2Proof

/-- The sixteen opcode values of 30_encoding.md R82. -/
def legalOpcodes : List Byte :=
  [0x00, 0x01, 0x02, 0x10, 0x11, 0x20, 0x30, 0x31, 0x32, 0x38, 0x39, 0x3A, 0x40, 0x50, 0x51, 0x52]

/-- 30_encoding.md R83: bits 63:16 are 0, OPC is one of the sixteen values, and ARG is 0 unless OPC = 0x20. -/
def legalWord (w : Word) : Bool :=
  w.extractLsb' 16 48 == 0#48
    && legalOpcodes.contains (w.extractLsb' 0 8)
    && (w.extractLsb' 8 8 == 0#8 || w.extractLsb' 0 8 == 0x20#8)

/-- The access widths 20_memory.md R66 defines: whole words for registers, 1, 2, 4 or 8 bytes for IMEM. -/
def HostAction.wf : HostAction → Bool
  | .writeReg width _ _ => width == 8
  | .readReg width _ => width == 8
  | .writeMem width _ _ => [1, 2, 4, 8].contains width
  | .readMem width _ => [1, 2, 4, 8].contains width
  | .reset => true

/-- A list is a bijection on 0..15, given by its values (40_cipher.md R106). -/
def isPermutation16 (l : List Nat) : Bool := l.length == 16 && (List.range 16).all (fun i => l.contains i)

/-- The constraint on a round count: a positive multiple of 4 (40_cipher.md R103). -/
def roundsWf (r : Nat) : Bool := decide (0 < r) && r % 4 == 0

/-- The constraints on the tables: the MIX pairing puts each word in one pair (40_cipher.md R105), `ROT` has 8 rows of
8 entries in 1..63 (R104), `PI` is a bijection on 0..15 (R106), there is one mode tag per dispatch mode (42 R150). -/
def Tables.wf (A : Tables) : Bool :=
  isPermutation16 A.pairing
    && A.rot.length == 8 && A.rot.all (fun row => row.length == 8 && row.all (fun r => decide (1 ≤ r ∧ r ≤ 63)))
    && isPermutation16 A.pi
    && A.modeTag.length == 3

/-- The constraints on the parameters of one computation (40_cipher.md R103 to R106). -/
def Algo.wf (A : Algo) : Bool := roundsWf A.rounds && A.toTables.wf

/-- The constraints on the algorithm parameters (00_scope.md R8): those of every security mode. -/
def Params.wf (p : Params) : Bool :=
  roundsWf p.rounds.standard && roundsWf p.rounds.enhanced && roundsWf p.rounds.quantum && p.toTables.wf

/-- The constraints on all parameters: a bounded capacity is at least 1 (92_eei_decisions.md, "Open parameters"). -/
def Config.wf (c : Config) : Bool :=
  c.params.wf && c.mkMax != some 0 && c.treeNodeMax != some 0

end Sys2Proof
end

