-- ==== Sys2Proof/Decode.lean ====
section
/-! DEFINITION. The decoder of command words (30_encoding.md R80 to R84), total on all 2^64 words, and the encoder
after it, written from the same table (R82). -/

namespace Sys2Proof

/-- Why a word is illegal (30_encoding.md R84). All three raise the one cause ILLEGAL_CMD. -/
inductive IllegalWord where
  /-- a bit of 63:16 is set -/
  | upperBits
  /-- OPC is none of the sixteen values -/
  | opcode
  /-- ARG ≠ 0 and OPC ≠ 0x20 -/
  | arg
deriving DecidableEq, Repr

/-- Field OPC, bits 7:0 (30_encoding.md R80). -/
def wordOpc (w : Word) : Byte := w.extractLsb' 0 8

/-- Field ARG, bits 15:8 (30_encoding.md R80). -/
def wordArg (w : Word) : Byte := w.extractLsb' 8 8

/-- Field ZERO, bits 63:16 (30_encoding.md R80). -/
def wordUpper (w : Word) : BitVec 48 := w.extractLsb' 16 48

/-- The opcode map of 30_encoding.md R82; `arg` reaches only UBI. -/
def decodeOpcode (opc arg : Byte) : Option Instr :=
  match opc with
  | 0x00#8 => some .nop
  | 0x01#8 => some .clrerr
  | 0x02#8 => some .wipe
  | 0x10#8 => some .enc
  | 0x11#8 => some .dec
  | 0x20#8 => some (.ubi arg)
  | 0x30#8 => some .hash
  | 0x31#8 => some .tree
  | 0x32#8 => some .verify
  | 0x38#8 => some .sInit
  | 0x39#8 => some .sUpdate
  | 0x3A#8 => some .sFinal
  | 0x40#8 => some .mac
  | 0x50#8 => some .mkBegin
  | 0x51#8 => some .mkPush
  | 0x52#8 => some .mkRoot
  | _ => none

/-- Decode a command word, or say why it is illegal (30_encoding.md R83, R84). -/
def decode (w : Word) : Except IllegalWord Instr :=
  if wordUpper w ≠ 0 then .error .upperBits
  else if wordArg w ≠ 0 ∧ wordOpc w ≠ 0x20 then
    .error (if (decodeOpcode (wordOpc w) 0).isSome then .arg else .opcode)
  else
    match decodeOpcode (wordOpc w) (wordArg w) with
    | some i => .ok i
    | none => .error .opcode

/-- OPC of each command (30_encoding.md R82); also what ERR_OPC records when the command raises (60 R240). -/
def Instr.opc : Instr → Byte
  | .nop => 0x00
  | .clrerr => 0x01
  | .wipe => 0x02
  | .enc => 0x10
  | .dec => 0x11
  | .ubi _ => 0x20
  | .hash => 0x30
  | .tree => 0x31
  | .verify => 0x32
  | .sInit => 0x38
  | .sUpdate => 0x39
  | .sFinal => 0x3A
  | .mac => 0x40
  | .mkBegin => 0x50
  | .mkPush => 0x51
  | .mkRoot => 0x52

/-- ARG of each command: the domain tag of UBI, 0 for every other (30_encoding.md R80). -/
def Instr.arg : Instr → Byte
  | .ubi d => d
  | _ => 0

/-- The command word `OPC | (ARG << 8)` (30_encoding.md R82). -/
def encode (i : Instr) : Word := 0#48 ++ i.arg ++ i.opc

/-- The decoder on a word given as a number, bit 0 least significant; a command is one 64-bit word (30_encoding.md
R80), so bits above `nbits` are zero and bits above 63 do not exist. -/
def decodeTableWord (nbits w : Nat) : Option Instr :=
  match decode (BitVec.ofNat 64 (w % 2 ^ nbits)) with
  | .ok i => some i
  | .error _ => none

end Sys2Proof
end

