-- ==== Sys2Proof/Machine/Bytes.lean ====
section
/-! DEFINITION. Byte strings, words and blocks (00_scope.md R11, R12; 20_memory.md R64): little-endian words,
serialization, zero padding, rotation, cutting a byte string into pieces. -/

namespace Sys2Proof.Machine

/-- `rotl64(x, r)` (00_scope.md R11). -/
def rotl64 (x : Word) (r : Nat) : Word := (x <<< r) ||| (x >>> (64 - r))

/-- `rotr64(x, r)` (00_scope.md R11). -/
def rotr64 (x : Word) (r : Nat) : Word := (x >>> r) ||| (x <<< (64 - r))

/-- Word `i` of a block, `v[i]` of the spec's pseudocode. -/
def blockWord (v : Block) (i : Nat) : Word := v[i]?.getD 0

/-- The block whose word `i` is `f i`. -/
def blockOf (f : Nat → Word) : Block := Vector.ofFn fun i => f i.val

/-- Sixteen zero words. -/
def zeroBlock : Block := blockOf fun _ => 0

/-- Word-wise addition modulo 2^64. -/
def addBlock (u v : Block) : Block := blockOf fun i => blockWord u i + blockWord v i

/-- Word-wise subtraction modulo 2^64. -/
def subBlock (u v : Block) : Block := blockOf fun i => blockWord u i - blockWord v i

/-- Word-wise exclusive or. -/
def xorBlock (u v : Block) : Block := blockOf fun i => blockWord u i ^^^ blockWord v i

/-- `LE64(b) = Σ b[k]·2^(8k)` (00_scope.md R12). -/
def le64 : List Byte → Word
  | [] => 0
  | b :: bs => b.setWidth 64 ||| (le64 bs <<< 8)

/-- The low `n` bytes of a word, least significant first (00_scope.md R12, 20_memory.md R64). -/
def lowBytes (n : Nat) (w : Word) : List Byte := (List.range n).map fun k => w.extractLsb' (8 * k) 8

/-- `ser_word(w)`: the 8 little-endian bytes of a word (42_dispatch_seq_stream.md R150). -/
def serWord (w : Word) : List Byte := lowBytes 8 w

/-- `ser(v)`: the 128 bytes of a block (00_scope.md R12). -/
def ser (v : Block) : List Byte := v.toList.flatMap serWord

/-- `zeros(n)` (00_scope.md R12). -/
def zeros (n : Nat) : List Byte := List.replicate n 0

/-- `b || zeros(n - len(b))`. -/
def zeroPad (n : Nat) (b : List Byte) : List Byte := b ++ zeros (n - b.length)

/-- `words(b)`: the 16 words of a 128-byte string (00_scope.md R12). -/
def words (b : List Byte) : Block := blockOf fun i => le64 ((b.drop (8 * i)).take 8)

/-- Cut a list into consecutive pieces of `n` elements, the last one possibly shorter; `fuel` bounds their number. -/
def chunksUpTo {α : Type} (n : Nat) : (fuel : Nat) → List α → List (List α)
  | 0, _ => []
  | _ + 1, [] => []
  | fuel + 1, a :: as => (a :: as).take n :: chunksUpTo n fuel ((a :: as).drop n)

/-- All consecutive pieces of `n` elements of a list: `ceil(len / n)` of them for `n > 0`. -/
def chunks {α : Type} (n : Nat) (l : List α) : List (List α) := chunksUpTo n l.length l

/-- The pieces of a byte string when an empty string counts as one empty piece: `max(1, ceil(len / n))` of them
(41_ubi.md R133 for blocks, 43_dispatch_tree.md R181 for leaves). -/
def pieces (n : Nat) (data : List Byte) : List (List Byte) :=
  match data with
  | [] => [[]]
  | b :: bs => chunks n (b :: bs)

/-- `ceil(n / d)` on lengths and counts (00_scope.md R11). -/
def ceilDiv (n d : Nat) : Nat := (n + d - 1) / d

end Sys2Proof.Machine
end

