-- ==== Sys2Proof/Machine/Tables.lean ====
section
/-! DEFINITION. The numbers the spec prints: the constants of 00_scope.md R7 and the pinned tables of R8
(40_cipher.md R104, R106; 42_dispatch_seq_stream.md R150). -/

namespace Sys2Proof.Machine

/-- `KEY_PARITY` (40_cipher.md R107). -/
def keyParity : Word := 0x1BD11BDAA9FC1A22

/-- `SCHEMA_MAGIC`, word 0 of the configuration block (42_dispatch_seq_stream.md R150). -/
def schemaMagic : Word := 0x0000000133414853

/-- Domain tag CFG (41_ubi.md R135). -/
def tagCfg : Byte := 28
/-- Domain tag MSG (41_ubi.md R135). -/
def tagMsg : Byte := 48
/-- Domain tag MAC (41_ubi.md R135). -/
def tagMac : Byte := 43
/-- Domain tag OUT (41_ubi.md R135). -/
def tagOut : Byte := 63
/-- Domain tag TREE (41_ubi.md R135; 90_conflicts.md C1: the value 64 stands). -/
def tagTree : Byte := 64

/-- `PERS_MAX`, the bytes of personalization that fit the configuration block (00_scope.md R7). -/
def persMax : Nat := 104

/-- `LEAF_DEFAULT`, the reset value of LEAF_SIZE (00_scope.md R7, 10_state.md R36). -/
def leafDefault : Word := 1024

/-- `FANOUT_DEFAULT`, the reset value of FAN_OUT (00_scope.md R7, 10_state.md R36). -/
def fanOutDefault : Word := 8

/-- The rotation table as printed in 40_cipher.md R104: row `r mod 8`, column `j`. -/
def pinnedRot : List (List Nat) :=
  [[24, 13,  8, 47,  8, 17, 22, 37],
   [38, 19, 10, 55, 49, 18, 23, 52],
   [33,  4, 51, 13, 34, 41, 59, 17],
   [ 5, 20, 48, 41, 47, 28, 16, 25],
   [41,  9, 37, 31, 12, 47, 44, 30],
   [16, 34, 56, 51,  4, 53, 42, 41],
   [31, 44, 47, 46, 19, 42, 44, 25],
   [ 9, 48, 35, 52, 23, 31, 37, 20]]

/-- The word permutation as printed in 40_cipher.md R106. -/
def pinnedPi : List Nat := [0, 9, 2, 13, 6, 11, 4, 15, 10, 7, 12, 3, 14, 5, 8, 1]

/-- The MIX pairing of 40_cipher.md R105: pair `j` is words `2j` and `2j+1`. -/
def pinnedPairing : List Nat := [0, 1, 2, 3, 4, 5, 6, 7, 8, 9, 10, 11, 12, 13, 14, 15]

/-- The algorithm parameters the spec pins (00_scope.md R8): 72 rounds in every security mode, the tables above,
mode tags 0, 1, 2, odd Merkle nodes carried up. -/
def pinnedParams : Params :=
  { pairing := pinnedPairing, rot := pinnedRot, pi := pinnedPi, modeTag := [0, 1, 2], oddNode := .carryUp
    rounds := { standard := 72, enhanced := 72, quantum := 72 } }

/-- The security mode a digest size selects (40_cipher.md R102). No other size passes validation (R151). -/
def securityMode (bits : BitVec 16) : SecurityMode :=
  if bits = 1024 then .quantum else if bits = 512 then .enhanced else .standard

/-- `R` of one security mode (92_eei_decisions.md D1). -/
def roundCount (r : RoundCounts) : SecurityMode → Nat
  | .standard => r.standard
  | .enhanced => r.enhanced
  | .quantum => r.quantum

/-- The algorithm parameters of one security mode (00_scope.md R8, 92_eei_decisions.md D1). -/
def modeAlgo (p : Params) (m : SecurityMode) : Algo := { p.toTables with rounds := roundCount p.rounds m }

/-- The pinned parameters of one computation: the same in every security mode (40_cipher.md R103). -/
def pinnedAlgo : Algo := modeAlgo pinnedParams .standard

/-- DESIGN CHOICE (logs 1 and 18, unsafe): the open parameters of the machine at `State.reset`. A statement for every
state holds for every value of them, since they are a field of the state. -/
def defaultConfig : Config :=
  { imemSize := 65536, mkMax := none, treeNodeMax := none, regBase := 0, imemBase := 0, params := pinnedParams }

end Sys2Proof.Machine

namespace Sys2Proof

/-- The parameters a hash of `bits` bits runs with: those of its security mode (40_cipher.md R102, R103). -/
def Config.algoFor (c : Config) (bits : BitVec 16) : Algo :=
  Machine.modeAlgo c.params (Machine.securityMode bits)

/-- DESIGN CHOICE (log 2): the parameters ENC, DEC and UBI run with. They read no configuration (40_cipher.md R112,
41_ubi.md R137), so no digest size selects a security mode; the standard one is taken. -/
def Config.rawAlgo (c : Config) : Algo := Machine.modeAlgo c.params .standard

end Sys2Proof
end

