-- ==== Sys2Proof/Machine/Cipher.lean ====
section
/-! DEFINITION. The cipher core C1 (40_cipher.md R100 to R111): a pure function of key, tweak and block. -/

namespace Sys2Proof.Machine

/-- A tweak: three words (00_scope.md R7, 41_ubi.md R131). -/
structure Tweak where
  t0 : Word
  t1 : Word
  t2 : Word
deriving DecidableEq, Repr

/-- `ROT[r mod 8][j]` (40_cipher.md R104). -/
def rotAmount (A : Algo) (r j : Nat) : Nat := (A.rot.getD (r % 8) []).getD j 0

/-- The word of a block that is x0 (`side = 0`) or x1 (`side = 1`) of MIX pair `j` (40_cipher.md R105; 00_scope.md R8
makes the pairing a parameter). -/
def pairWord (A : Algo) (v : Block) (j side : Nat) : Word := blockWord v (A.pairing.getD (2 * j + side) 0)

/-- `MixRound(v, r)` (40_cipher.md R105): word `i` is x0 or x1 of the pair it belongs to. -/
def mixRound (A : Algo) (v : Block) (r : Nat) : Block :=
  blockOf fun i =>
    let k := A.pairing.idxOf i
    let j := k / 2
    let x0 := pairWord A v j 0 + pairWord A v j 1
    if k % 2 = 0 then x0 else rotl64 (pairWord A v j 1) (rotAmount A r j) ^^^ x0

/-- `InvMixRound(w, r)` (40_cipher.md R111). -/
def invMixRound (A : Algo) (w : Block) (r : Nat) : Block :=
  blockOf fun i =>
    let k := A.pairing.idxOf i
    let j := k / 2
    let x1 := rotr64 (pairWord A w j 1 ^^^ pairWord A w j 0) (rotAmount A r j)
    if k % 2 = 0 then pairWord A w j 0 - x1 else x1

/-- `Permute(v)`: output word `i` is input word `PI[i]` (40_cipher.md R106). -/
def permute (A : Algo) (v : Block) : Block := blockOf fun i => blockWord v (A.pi.getD i 0)

/-- `InvPermute(w)`: output word `PI[i]` is input word `i` (40_cipher.md R106). -/
def invPermute (A : Algo) (w : Block) : Block := blockOf fun k => blockWord w (A.pi.idxOf k)

/-- `Kext(K)`: the seventeen words of the extended key (40_cipher.md R107). -/
def extKey (K : Block) : List Word := K.toList ++ [K.toList.foldl (· ^^^ ·) keyParity]

/-- `Text(T)`: the three words of the extended tweak; `T[2]` is not read (40_cipher.md R108). -/
def extTweak (T : Tweak) : List Word := [T.t0, T.t1, T.t0 ^^^ T.t1]

/-- `Subkey(Ke, Te, d)` (40_cipher.md R109). -/
def subkey (Ke Te : List Word) (d : Nat) : Block :=
  blockOf fun i =>
    let s := Ke.getD ((d + i) % 17) 0
    if i = 0 then s + Te.getD (d % 3) 0
    else if i = 14 then s + Te.getD ((d + 1) % 3) 0
    else if i = 15 then s + BitVec.ofNat 64 d
    else s

/-- The four rounds of round group `d`, each a MIX round and the permutation (40_cipher.md R110). -/
def groupRounds (A : Algo) (d : Nat) (v : Block) : Block :=
  [0, 1, 2, 3].foldl (fun v k => permute A (mixRound A v (4 * d + k))) v

/-- The inverse of the four rounds of round group `d` (40_cipher.md R111). -/
def invGroupRounds (A : Algo) (d : Nat) (v : Block) : Block :=
  [3, 2, 1, 0].foldl (fun v k => invMixRound A (invPermute A v) (4 * d + k)) v

/-- Round groups `0 .. n-1`, each after the addition of its subkey (40_cipher.md R110). -/
def encGroups (A : Algo) (Ke Te : List Word) : (n : Nat) → Block → Block
  | 0, v => v
  | d + 1, v => groupRounds A d (addBlock (encGroups A Ke Te d v) (subkey Ke Te d))

/-- Round groups `n-1 downto 0` undone (40_cipher.md R111). -/
def decGroups (A : Algo) (Ke Te : List Word) : (n : Nat) → Block → Block
  | 0, v => v
  | d + 1, v => decGroups A Ke Te d (subBlock (invGroupRounds A d v) (subkey Ke Te d))

/-- `Encrypt(K, T, P)` (40_cipher.md R110). -/
def encrypt (A : Algo) (K : Block) (T : Tweak) (P : Block) : Block :=
  addBlock (encGroups A (extKey K) (extTweak T) (A.rounds / 4) P) (subkey (extKey K) (extTweak T) (A.rounds / 4))

/-- `Decrypt(K, T, C)` (40_cipher.md R111). -/
def decrypt (A : Algo) (K : Block) (T : Tweak) (C : Block) : Block :=
  decGroups A (extKey K) (extTweak T) (A.rounds / 4) (subBlock C (subkey (extKey K) (extTweak T) (A.rounds / 4)))

end Sys2Proof.Machine
end

