-- ==== Sys2Proof/Machine/Ubi.lean ====
section
/-! DEFINITION. The UBI chaining mode C2 (41_ubi.md): the tweak encoder, one block, one pass. -/

namespace Sys2Proof.Machine

/-- A flag as a word, 0 or 1. -/
def flagWord (b : Bool) : Word := if b then 1 else 0

/-- `MakeTweak(pos, first, last, D)` (41_ubi.md R131): the three terms are or-ed, so a tag with bit 6 or 7 set
overlaps the flag bits (R135). -/
def makeTweak (pos : Word) (first last : Bool) (D : Byte) : Tweak :=
  { t0 := pos
    t1 := (flagWord first <<< 62) ||| (flagWord last <<< 63) ||| (D.setWidth 64 <<< 56)
    t2 := 0 }

/-- `UbiBlock(G, b, pos, first, last, D)` after its guard (41_ubi.md R132): `b` has at most 128 useful bytes. -/
def ubiBlock (A : Algo) (G : Block) (b : List Byte) (pos : Word) (first last : Bool) (D : Byte) : Block :=
  xorBlock (words (zeroPad 128 b)) (encrypt A G (makeTweak pos first last D) (words (zeroPad 128 b)))

/-- The blocks of a pass in order (41_ubi.md R133 step 2): `pos` counts the useful bytes before the first of them,
the last of them is FINAL. -/
def ubiBlocks (A : Algo) (D : Byte) : (blocks : List (List Byte)) → (pos : Word) → (first : Bool) → Block → Block
  | [], _, _, G => G
  | b :: bs, pos, first, G =>
    ubiBlocks A D bs (pos + BitVec.ofNat 64 b.length) false
      (ubiBlock A G b (pos + BitVec.ofNat 64 b.length) first bs.isEmpty D)

/-- `Ubi(G, D, data)` (41_ubi.md R133): the blocks are the 128-byte pieces of the data, one empty block when there is
no data. No piece is longer than 128 bytes, so the guard of R132 cannot fail here (60_exceptions.md R244). -/
def ubi (A : Algo) (G : Block) (D : Byte) (data : List Byte) : Block :=
  ubiBlocks A D (pieces 128 data) 0 true G

end Sys2Proof.Machine
end

