-- ==== Sys2Proof/Machine/Layouts.lean ====
section
/-! DEFINITION. The dispatcher C3 (42_dispatch_seq_stream.md, 43_dispatch_tree.md), the keyed MAC C4 (44_mac.md) and
the Merkle reduction C5 (45_merkle.md) as pure functions. `none` stands for a computation that does not terminate
(43_dispatch_tree.md R187). -/

namespace Sys2Proof.Machine

/-- The configuration record (42_dispatch_seq_stream.md R149). -/
structure CfgRec where
  bits : BitVec 16
  mode : BitVec 2
  wipe : Bool
  strict : Bool
  xform : BitVec 4
  /-- `L`, the leaf size -/
  leaf : Word
  /-- `F`, the fan-out -/
  fan : Word
  plen : Word
  pers : List Byte
deriving DecidableEq, Repr

/-- The record with every field zero: `MK_CFG` at reset and after MK_ROOT (10_state.md R36, 45_merkle.md R208). -/
def zeroCfg : CfgRec :=
  { bits := 0, mode := 0, wipe := false, strict := false, xform := 0, leaf := 0, fan := 0, plen := 0, pers := [] }

/-- The mode number of the tree layout (42_dispatch_seq_stream.md R149). -/
def modeTree : BitVec 2 := 2

/-- `MODE_TAG` of a mode (42_dispatch_seq_stream.md R150); mode 3 never passes validation (R151). -/
def modeTag (A : Algo) (mode : BitVec 2) : Word := A.modeTag.getD mode.toNat (mode.setWidth 64)

/-- `bits/8`: the digest length in bytes (42_dispatch_seq_stream.md R153). -/
def digestBytes (bits : BitVec 16) : Nat := bits.toNat / 8

/-- `ConfigBlock(cfg, mode)` (42_dispatch_seq_stream.md R150): 128 bytes. -/
def configBlock (A : Algo) (cfg : CfgRec) (mode : BitVec 2) : List Byte :=
  serWord schemaMagic ++ serWord (cfg.bits.setWidth 64) ++ serWord (modeTag A mode) ++ zeroPad persMax cfg.pers

/-- `PostConfig(cfg, mode)` (42_dispatch_seq_stream.md R152). -/
def postConfig (A : Algo) (cfg : CfgRec) (mode : BitVec 2) : Block :=
  ubi A zeroBlock tagCfg (configBlock A cfg mode)

/-- The leading `bits/8` bytes of a serialized block (42 R153 step 5, 43_dispatch_tree.md R183). -/
def truncDigest (G : Block) (bits : BitVec 16) : List Byte := (ser G).take (digestBytes bits)

/-- `Finish(G, bits)`: the output transform and truncation (42_dispatch_seq_stream.md R153). -/
def finish (A : Algo) (G : Block) (bits : BitVec 16) : List Byte := truncDigest (ubi A G tagOut []) bits

/-- `HashSeq(cfg, mode, msg)` (42_dispatch_seq_stream.md R154). -/
def hashSeq (A : Algo) (cfg : CfgRec) (mode : BitVec 2) (msg : List Byte) : List Byte :=
  finish A (ubi A (postConfig A cfg mode) tagMsg msg) cfg.bits

/-- `nleaves = max(1, ceil(len / L))` (43_dispatch_tree.md R181, R188). -/
def leafCount (len leaf : Nat) : Nat := max 1 (ceilDiv len leaf)

/-- The leaves of a message, left to right, each one TREE pass from `Gc` (43_dispatch_tree.md R181). -/
def treeLeaves (A : Algo) (Gc : Block) (leaf : Nat) (msg : List Byte) : List Block :=
  (pieces leaf msg).map (ubi A Gc tagTree)

/-- The parent of a group of nodes: one TREE pass from `Gc` over their bytes (43_dispatch_tree.md R182). -/
def treeParent (A : Algo) (Gc : Block) (group : List Block) : Block :=
  ubi A Gc tagTree (group.flatMap ser)

/-- One turn of the level loop: the next level (43_dispatch_tree.md R182). -/
def treeLevel (A : Algo) (Gc : Block) (fan : Nat) (level : List Block) : List Block :=
  (chunks fan level).map (treeParent A Gc)

/-- The level loop of 43_dispatch_tree.md R182, at most `turns` turns of it: the root, or `none` when more than one
node is left after that many turns. -/
def treeRoot (A : Algo) (Gc : Block) (fan : Nat) : (turns : Nat) → (level : List Block) → Option Block
  | _, [root] => some root
  | 0, _ => none
  | turns + 1, level => treeRoot A Gc fan turns (treeLevel A Gc fan level)

/-- `TreeHash(cfg, msg)` (43_dispatch_tree.md R181 to R183). With `F ≥ 2` every turn leaves fewer nodes, so as many
turns as there are leaves suffice; with `F = 1` no number of turns does (R187), and the answer is `none`. -/
def treeHash (A : Algo) (cfg : CfgRec) (msg : List Byte) : Option (List Byte) :=
  let Gc := postConfig A cfg modeTree
  let leaves := treeLeaves A Gc cfg.leaf.toNat msg
  (treeRoot A Gc cfg.fan.toNat leaves.length leaves).map fun root => truncDigest root cfg.bits

/-- `Hash(cfg, msg)` (42_dispatch_seq_stream.md R161). -/
def hashDigest (A : Algo) (cfg : CfgRec) (msg : List Byte) : Option (List Byte) :=
  if cfg.mode = modeTree then treeHash A cfg msg else some (hashSeq A cfg cfg.mode msg)

/-- `Mac(cfg, key, msg)` (44_mac.md R195). -/
def macDigest (A : Algo) (cfg : CfgRec) (key msg : List Byte) : List Byte :=
  finish A (ubi A (ubi A (postConfig A cfg cfg.mode) tagMac key) tagMsg msg) cfg.bits

/-- One turn of the Merkle reduction: pair hashes from the left, the odd last node by the policy (45_merkle.md R209). -/
def merkleLevel (A : Algo) (cfg : CfgRec) : List (List Byte) → Option (List (List Byte))
  | [] => some []
  | [last] =>
    match A.oddNode with
    | .carryUp => some [last]
    | .selfConcat => (hashDigest A cfg (last ++ last)).map fun h => [h]
  | a :: b :: rest => do
    let h ← hashDigest A cfg (a ++ b)
    let next ← merkleLevel A cfg rest
    return h :: next

/-- The loop of `MerkleReduce` (45_merkle.md R209), at most `turns` turns of it. -/
def merkleLoop (A : Algo) (cfg : CfgRec) : (turns : Nat) → List (List Byte) → Option (List Byte)
  | _, [root] => some root
  | 0, _ => none
  | turns + 1, level => do
    let next ← merkleLevel A cfg level
    merkleLoop A cfg turns next

/-- `MerkleReduce(cfg, nodes)` for a non-empty list (45_merkle.md R209): every turn leaves fewer nodes, so as many
turns as there are nodes suffice; `none` only when a pair hash does not terminate (R208). -/
def merkleReduce (A : Algo) (cfg : CfgRec) (nodes : List (List Byte)) : Option (List Byte) :=
  merkleLoop A cfg nodes.length nodes

end Sys2Proof.Machine
end

