-- ==== Sys2Proof/Machine/State.lean ====
section
/-! DEFINITION. The state of the SK3 core (10_state.md R20 to R36): the host-visible registers, IMEM, the streaming
context and the Merkle node list, and after them the model's own fields (the parameters, two counters that select free
values, the host's pending accesses and the bus answer). -/

namespace Sys2Proof.Machine

/-- The failure kinds (60_exceptions.md R235). -/
inductive FailureKind where
  | invalidConfig
  | invalidUsage
  | internalInvariant
deriving DecidableEq, Repr

/-- The fifteen causes (60_exceptions.md R236). -/
inductive Cause where
  | fanoutZero
  | sizeNotMult8
  | sizeUnknown
  | persTooLong
  | leafZero
  | modeReserved
  | xformUnsupported
  | finalizeTwice
  | merkleEmpty
  | streamNotOpen
  | merkleNotOpen
  | illegalCmd
  | addrRange
  | capacity
  | ubiBlockOversize
deriving DecidableEq, Repr

/-- What an error records (60_exceptions.md R238): the cause, which fixes the kind, and bits 7:0 of the command word. -/
structure ErrorRecord where
  cause : Cause
  opc : Byte
deriving DecidableEq, Repr

/-- Why a command does not reach its state writes: a check raises (60_exceptions.md R240), or the computation never
ends (43_dispatch_tree.md R187). -/
inductive Stop where
  | raises (c : Cause)
  | never
deriving DecidableEq, Repr

/-- Lifecycle of the streaming context (10_state.md R32). -/
inductive StreamPhase where
  | empty
  | opened
  | finalized
deriving DecidableEq, Repr

/-- The streaming context (10_state.md R32). -/
structure StreamCtx where
  phase : StreamPhase
  /-- `SG`, the chaining value -/
  sg : Block
  /-- `RES`, the residual bytes -/
  res : List Byte
  /-- `S_POS` -/
  pos : Word
  /-- `TOTAL` -/
  total : Word
  /-- `S_FIRST` -/
  first : Bool
  /-- `S_BITS` -/
  bits : BitVec 16
  /-- `S_WIPE` -/
  wipe : Bool
deriving DecidableEq, Repr

/-- The streaming context at reset (10_state.md R36). -/
def resetStream : StreamCtx :=
  { phase := .empty, sg := zeroBlock, res := [], pos := 0, total := 0, first := true, bits := 0, wipe := false }

/-- The Merkle node list (10_state.md R34). -/
structure MerkleList where
  isOpen : Bool
  /-- `MK_CFG`, the configuration frozen by MK_BEGIN -/
  cfg : CfgRec
  nodes : List (List Byte)
deriving DecidableEq, Repr

/-- The Merkle node list at reset (10_state.md R36). -/
def resetMerkle : MerkleList := { isOpen := false, cfg := zeroCfg, nodes := [] }

/-- IMEM (20_memory.md R60): the bytes the host has written since reset, as (address, byte) pairs in one canonical
form, addresses strictly rising. -/
abbrev Memory := List Host.Cell

/-- The state of the core. -/
structure State where
  /-- CFG bits 23:0; the register's other bits read 0 and ignore writes (10_state.md R27) -/
  cfg : BitVec 24
  /-- LEAF_SIZE (10_state.md R28) -/
  leafSize : Word
  /-- FAN_OUT (10_state.md R28) -/
  fanOut : Word
  /-- PERS_LEN (10_state.md R29) -/
  persLen : Word
  /-- PERS0..PERS12 (10_state.md R29) -/
  pers : Vector Word 13
  /-- SRC_ADDR (10_state.md R23) -/
  srcAddr : Word
  /-- SRC_LEN (10_state.md R23) -/
  srcLen : Word
  /-- KEY_ADDR (10_state.md R23) -/
  keyAddr : Word
  /-- KEY_LEN (10_state.md R23) -/
  keyLen : Word
  /-- EXP_ADDR (10_state.md R23) -/
  expAddr : Word
  /-- TWK0 (10_state.md R23) -/
  twk0 : Word
  /-- TWK1 (10_state.md R23) -/
  twk1 : Word
  /-- TWK2 (10_state.md R23) -/
  twk2 : Word
  /-- OUT0..OUT15 (10_state.md R22) -/
  out : Block
  /-- OUT_LEN (10_state.md R22) -/
  outLen : Word
  /-- CMD_COUNT (10_state.md R24) -/
  cmdCount : Word
  /-- STATUS.BUSY: 1 only while a command that never completes is running (43_dispatch_tree.md R187; log 4) -/
  busy : Bool
  /-- STATUS.DONE (10_state.md R25) -/
  done : Bool
  /-- STATUS.MATCH (10_state.md R25) -/
  matched : Bool
  /-- STATUS.ERR_KIND, ERR_CAUSE, ERR_OPC (10_state.md R26): `none` when ERR_KIND = 0 -/
  err : Option ErrorRecord
  /-- the streaming context; its `phase` is STATUS.S_STATE (10_state.md R32) -/
  stream : StreamCtx
  /-- the Merkle node list; `isOpen` is STATUS.MK_OPEN, the length of `nodes` is MK_COUNT (10_state.md R30, R34) -/
  merkle : MerkleList
  /-- IMEM (20_memory.md R60) -/
  imem : Memory
  /-- MODEL: the parameters of 00_scope.md R8 and R9; no step changes them (logs 1, 2) -/
  config : Config
  /-- MODEL: how many resets there have been; selects the free values of IMEM (log 3) -/
  epoch : Nat
  /-- MODEL: how many STATUS reads there have been while BUSY since reset; selects their free values (log 5) -/
  busyReads : Nat
  /-- MODEL: the accesses the host is going to make, first one first (log 7) -/
  script : List HostAction
  /-- MODEL: what the bus answered to the last host read (log 8) -/
  answer : Option Word
deriving DecidableEq, Repr

/-- Why the machine stops with a fault. -/
inductive Fault where
  /-- Raised by a host access to an IMEM address at or above IMEM_SIZE: a platform bus error (20_memory.md R69,
  93_implementation_defined.md U5). Safe: the model stops (log 9). -/
  | imemBusError
deriving DecidableEq, Repr

/-- Why the model gives no step. -/
inductive Refusal where
  /-- Raised by exec for a command without a meaning; no arm does. Safe. -/
  | notModelled (mnemonic : String)
  /-- Raised by a register access that is not one 64-bit word (20_memory.md R66, 93 U4). Safe (log 10). -/
  | registerWidth
  /-- Raised by an IMEM access that is not 1, 2, 4 or 8 bytes wide (20_memory.md R66). Safe (log 10). -/
  | imemWidth
  /-- Raised by a host access, or a command, while BUSY = 1 that the BUSY contract forbids (70_reset_and_hazards.md
  R264, R268, 93 U7). Safe (log 6). -/
  | accessWhileBusy
deriving DecidableEq, Repr

/-- The outcome of a step or of a command. -/
abbrev Result := Host.Outcome State Fault Refusal

/-- The state after a reset (10_state.md R36, 70_reset_and_hazards.md R261) of a core with the parameters `config`,
after `epoch` earlier resets, with `script` still to come from the host. -/
def resetState (config : Config) (epoch : Nat) (script : List HostAction) : State :=
  { cfg := 0
    leafSize := leafDefault
    fanOut := fanOutDefault
    persLen := 0
    pers := Vector.ofFn fun _ => 0
    srcAddr := 0
    srcLen := 0
    keyAddr := 0
    keyLen := 0
    expAddr := 0
    twk0 := 0
    twk1 := 0
    twk2 := 0
    out := zeroBlock
    outLen := 0
    cmdCount := 0
    busy := false
    done := false
    matched := false
    err := none
    stream := resetStream
    merkle := resetMerkle
    imem := []
    config := config
    epoch := epoch
    busyReads := 0
    script := script
    answer := none }

/-- The machine right after reset, nothing pending from the host (70_reset_and_hazards.md R261). -/
def State.reset : State := resetState defaultConfig 0 []

end Sys2Proof.Machine
end

