-- ==== Sys2Proof/Machine/Flags.lean ====
section
/-! DEFINITION. STATUS (10_state.md R25, R26): the numbers of its fields and the word they make. The core has no
arithmetic flags (R25). -/

namespace Sys2Proof.Machine

/-- The kind of each cause (60_exceptions.md R236). -/
def causeKind : Cause → FailureKind
  | .fanoutZero | .sizeNotMult8 | .sizeUnknown | .persTooLong | .leafZero | .modeReserved | .xformUnsupported =>
    .invalidConfig
  | .finalizeTwice | .merkleEmpty | .streamNotOpen | .merkleNotOpen | .illegalCmd | .addrRange | .capacity =>
    .invalidUsage
  | .ubiBlockOversize => .internalInvariant

/-- ERR_KIND of each kind (60_exceptions.md R235). -/
def kindCode : FailureKind → BitVec 2
  | .invalidConfig => 1
  | .invalidUsage => 2
  | .internalInvariant => 3

/-- ERR_CAUSE of each cause (60_exceptions.md R236). -/
def causeCode : Cause → Byte
  | .fanoutZero => 0x01
  | .sizeNotMult8 => 0x02
  | .sizeUnknown => 0x03
  | .persTooLong => 0x04
  | .leafZero => 0x05
  | .modeReserved => 0x06
  | .xformUnsupported => 0x07
  | .finalizeTwice => 0x20
  | .merkleEmpty => 0x21
  | .streamNotOpen => 0x22
  | .merkleNotOpen => 0x23
  | .illegalCmd => 0x24
  | .addrRange => 0x25
  | .capacity => 0x26
  | .ubiBlockOversize => 0x40

/-- S_STATE of each lifecycle state (10_state.md R25). -/
def phaseCode : StreamPhase → BitVec 2
  | .empty => 0
  | .opened => 1
  | .finalized => 2

/-- ERR_KIND, 0 when no error is pending (10_state.md R25). -/
def errKind (s : State) : BitVec 2 :=
  match s.err with
  | none => 0
  | some e => kindCode (causeKind e.cause)

/-- ERR_CAUSE, 0 when no error is pending (10_state.md R25). -/
def errCause (s : State) : Byte :=
  match s.err with
  | none => 0
  | some e => causeCode e.cause

/-- ERR_OPC, 0 when no error is pending (10_state.md R25). -/
def errOpc (s : State) : Byte :=
  match s.err with
  | none => 0
  | some e => e.opc

/-- The STATUS word, from bit 63 down to bit 0 (10_state.md R25). -/
def statusWord (s : State) : Word :=
  0#32 ++ errOpc s ++ errCause s ++ 0#6 ++ errKind s ++ 0#2 ++ BitVec.ofBool s.merkle.isOpen
    ++ phaseCode s.stream.phase ++ BitVec.ofBool s.matched ++ BitVec.ofBool s.done ++ BitVec.ofBool s.busy

/-- The bits of STATUS that a field other than BUSY holds: 5:1, 9:8, 31:16 (10_state.md R25). -/
def statusFieldBits : Word := 0x00000000FFFF033E

/-- What a host read of STATUS returns: the word above, or, while BUSY is 1, BUSY = 1, the other fields free
(70_reset_and_hazards.md R268, 93 U6; log 5) and the reserved bits 0 (10_state.md R25, R31). -/
def statusRead (s : State) : Word :=
  if s.busy then (Config.busyStatus s.epoch s.busyReads &&& statusFieldBits) ||| 1 else statusWord s

/-- Step 6 of 30_encoding.md R88: DONE <- 1 and MATCH <- `m` (VERIFY: the comparison result; else 0). -/
def setDone (s : State) (m : Bool) : State := { s with done := true, matched := m }

end Sys2Proof.Machine
end

