-- ==== Sys2Proof/Machine/Ops.lean ====
section
/-! DEFINITION. The named operations: IMEM, the register file, the result registers, taking an error and returning
from one, and the template every command runs through (30_encoding.md R88). -/

namespace Sys2Proof.Machine

/-! ### IMEM (20_memory.md R60) -/

/-- What an address that is not listed reads as: no value (20_memory.md R60). -/
def memUnlisted : Option Byte := none

/-- The listed byte at an address. -/
def memRead : Memory → Nat → Option Byte
  | [], _ => memUnlisted
  | (k, b) :: m, a => if k = a then some b else memRead m a

/-- Store one byte, keeping the addresses strictly rising. -/
def memWrite : Memory → Nat → Byte → Memory
  | [], a, b => [(a, b)]
  | (k, c) :: m, a, b =>
    if a < k then (a, b) :: (k, c) :: m
    else if a = k then (k, b) :: m
    else (k, c) :: memWrite m a b

/-- Store consecutive bytes, lowest address first. -/
def memWriteBytes : Memory → Nat → List Byte → Memory
  | m, _, [] => m
  | m, a, b :: bs => memWriteBytes (memWrite m a b) (a + 1) bs

/-- The canonical form: addresses strictly rising (no listed byte equals "no value"). -/
def memWf : Memory → Bool
  | [] => true
  | [_] => true
  | (a, _) :: (k, c) :: m => decide (a < k) && memWf ((k, c) :: m)

/-- The byte of IMEM at an address: what the host wrote there, else a free value (93 U8, U9; log 3). -/
def imemByte (s : State) (a : Nat) : Byte := (memRead s.imem a).getD (Config.freeByte s.epoch a)

/-- `MemRead(addr, n)` (20_memory.md R62). -/
def imemBytes (s : State) (addr n : Nat) : List Byte := (List.range n).map fun k => imemByte s (addr + k)

/-! ### The register file (10_state.md R21) -/

/-- MK_COUNT: the number of nodes (10_state.md R30). -/
def mkCount (s : State) : Word := BitVec.ofNat 64 s.merkle.nodes.length

/-- A host read of register `idx` (10_state.md R21, R31): CMD and reserved indexes read 0. -/
def readReg (s : State) (idx : Nat) : Word :=
  match idx with
  | 0x01 => statusRead s
  | 0x02 => s.cfg.setWidth 64
  | 0x03 => s.leafSize
  | 0x04 => s.fanOut
  | 0x05 => s.persLen
  | 0x06 => s.srcAddr
  | 0x07 => s.srcLen
  | 0x08 => s.keyAddr
  | 0x09 => s.keyLen
  | 0x0A => s.expAddr
  | 0x0B => s.twk0
  | 0x0C => s.twk1
  | 0x0D => s.twk2
  | 0x0E => s.outLen
  | 0x0F => mkCount s
  | 0x2D => s.cmdCount
  | _ =>
    if 0x10 ≤ idx ∧ idx ≤ 0x1F then blockWord s.out (idx - 0x10)
    else if 0x20 ≤ idx ∧ idx ≤ 0x2C then s.pers[idx - 0x20]?.getD 0
    else 0

/-- A host write of register `idx` other than CMD (10_state.md R21, R27, R31): read-only and reserved indexes ignore
it, CFG stores bits 23:0. -/
def writeReg (s : State) (idx : Nat) (v : Word) : State :=
  match idx with
  | 0x02 => { s with cfg := v.setWidth 24 }
  | 0x03 => { s with leafSize := v }
  | 0x04 => { s with fanOut := v }
  | 0x05 => { s with persLen := v }
  | 0x06 => { s with srcAddr := v }
  | 0x07 => { s with srcLen := v }
  | 0x08 => { s with keyAddr := v }
  | 0x09 => { s with keyLen := v }
  | 0x0A => { s with expAddr := v }
  | 0x0B => { s with twk0 := v }
  | 0x0C => { s with twk1 := v }
  | 0x0D => { s with twk2 := v }
  | _ =>
    if 0x20 ≤ idx ∧ idx ≤ 0x2C then { s with pers := s.pers.setIfInBounds (idx - 0x20) v }
    else s

/-! ### The result registers (10_state.md R22) -/

/-- Write a block result: all sixteen words, OUT_LEN <- 128 (10_state.md R22). -/
def writeBlockResult (s : State) (v : Block) : State := { s with out := v, outLen := 128 }

/-- Write a digest result of `bits` bits: its words, zeros above, OUT_LEN <- bits/8 (10_state.md R22). -/
def writeDigest (s : State) (dg : List Byte) (bits : BitVec 16) : State :=
  { s with out := words (zeroPad 128 dg), outLen := BitVec.ofNat 64 (digestBytes bits) }

/-- Clear the result registers (10_state.md R22: VERIFY and WIPE). -/
def clearResult (s : State) : State := { s with out := zeroBlock, outLen := 0 }

/-! ### The sessions (10_state.md R32, R34) -/

/-- Write the streaming context (42_dispatch_seq_stream.md R156 to R158). -/
def setStream (s : State) (x : StreamCtx) : State := { s with stream := x }

/-- Write the Merkle node list (45_merkle.md R206, R208). -/
def setMerkle (s : State) (m : MerkleList) : State := { s with merkle := m }

/-! ### Errors (60_exceptions.md) -/

/-- `raise K(c)` (60_exceptions.md R240): the five STATUS fields, nothing else. The cause fixes the kind (R236);
`opc` is bits 7:0 of the command word. -/
def raiseError (s : State) (opc : Byte) (c : Cause) : State :=
  { s with err := some { cause := c, opc := opc }, done := false, matched := false }

/-- The return from an error (60_exceptions.md R243, 46_verify_system.md R222): clears kinds 1 and 2; kind 3 is
cleared by reset only. With no error pending it does what NOP does. -/
def returnFromError (s : State) : State :=
  match s.err with
  | none => setDone s false
  | some e => if causeKind e.cause = .internalInvariant then s else setDone { s with err := none } false

/-- A command that never completes: BUSY stays 1 (43_dispatch_tree.md R187; log 4). -/
def hang (s : State) : State := { s with busy := true }

/-! ### The command template (30_encoding.md R88) -/

/-- Step 1 of 30_encoding.md R88: every CMD write counts (10_state.md R24). -/
def countCommand (s : State) : State := { s with cmdCount := s.cmdCount + 1 }

/-- One command word with opcode byte `opc` and checks, computation and writes `body` (30_encoding.md R88): counted;
ignored while an error is pending (60_exceptions.md R242); a failing check raises with nothing else changed (R241);
a computation that never ends leaves the core BUSY (43 R187). A command while BUSY breaks the BUSY contract (93 U7). -/
def runCommand (opc : Byte) (body : State → Except Stop State) (s : State) : Result :=
  if s.busy then .refused .accessWhileBusy
  else if s.err.isSome then .next (countCommand s)
  else
    match body (countCommand s) with
    | .ok t => .next t
    | .error (.raises c) => .next (raiseError (countCommand s) opc c)
    | .error .never => .next (hang (countCommand s))

/-- A word that is no command (30_encoding.md R84). -/
def illegalCommand (w : Word) (s : State) : Result :=
  runCommand (wordOpc w) (fun _ => .error (.raises .illegalCmd)) s

end Sys2Proof.Machine
end

