-- ==== Sys2Proof/Machine/Operands.lean ====
section
/-! DEFINITION. What a command reads and checks before it computes: the configuration (42_dispatch_seq_stream.md R149,
R151), the operand ranges (20_memory.md R63) and the capacities (43_dispatch_tree.md R188, 45_merkle.md R207, R208). -/

namespace Sys2Proof.Machine

/-- A check: if `p` fails, the command raises `c` (30_encoding.md R88 step 4). -/
def require (p : Prop) [Decidable p] (c : Cause) : Except Stop Unit :=
  if p then .ok () else .error (.raises c)

/-- The result of a computation that may not end (43_dispatch_tree.md R187). -/
def terminating {α : Type} : Option α → Except Stop α
  | some a => .ok a
  | none => .error .never

/-! ### The configuration -/

/-- `pers_buf`: the 104 bytes of PERS0..PERS12 (10_state.md R29). -/
def persBuffer (s : State) : List Byte := s.pers.toList.flatMap serWord

/-- `CurrentConfig()` (42_dispatch_seq_stream.md R149). -/
def currentConfig (s : State) : CfgRec :=
  { bits := s.cfg.extractLsb' 0 16
    mode := s.cfg.extractLsb' 16 2
    wipe := s.cfg.getLsbD 18
    strict := s.cfg.getLsbD 19
    xform := s.cfg.extractLsb' 20 4
    leaf := s.leafSize
    fan := s.fanOut
    plen := s.persLen
    pers := (persBuffer s).take (min s.persLen.toNat persMax) }

/-- The legal digest sizes (00_scope.md R7). -/
def digestSizes : List Nat := [256, 512, 1024]

/-- `ValidateConfig(cfg)`: the seven checks in their order (42_dispatch_seq_stream.md R151). -/
def validateConfig (cfg : CfgRec) : Except Stop Unit := do
  require (cfg.bits.toNat % 8 = 0) .sizeNotMult8
  require (cfg.bits.toNat ∈ digestSizes) .sizeUnknown
  require (cfg.mode ≠ 3) .modeReserved
  require (cfg.xform = 0) .xformUnsupported
  require (cfg.fan ≠ 0) .fanoutZero
  require (cfg.leaf ≠ 0) .leafZero
  require (¬ (cfg.strict = true ∧ cfg.plen.toNat > persMax)) .persTooLong

/-! ### Operand ranges and operands -/

/-- An operand lies inside IMEM: `addr + n ≤ IMEM_SIZE`, without wrap-around (20_memory.md R63). -/
abbrev InImem (s : State) (addr : Word) (n : Nat) : Prop := addr.toNat + n ≤ s.config.imemSize

/-- The range check of one operand (20_memory.md R63). -/
def checkRange (s : State) (addr : Word) (n : Nat) : Except Stop Unit := require (InImem s addr n) .addrRange

/-- Bytes of a block operand (20_memory.md R62). -/
def blockBytes : Nat := 128

/-- The block at KEY_ADDR: key of ENC and DEC, initial chaining value of UBI (20_memory.md R62, R64). -/
def keyBlock (s : State) : Block := words (imemBytes s s.keyAddr.toNat blockBytes)

/-- The block at SRC_ADDR: data of ENC and DEC (20_memory.md R62, R64). -/
def srcBlock (s : State) : Block := words (imemBytes s s.srcAddr.toNat blockBytes)

/-- The SRC_LEN bytes at SRC_ADDR (20_memory.md R62). -/
def srcBytes (s : State) : List Byte := imemBytes s s.srcAddr.toNat s.srcLen.toNat

/-- The KEY_LEN bytes at KEY_ADDR (20_memory.md R62). -/
def keyBytes (s : State) : List Byte := imemBytes s s.keyAddr.toNat s.keyLen.toNat

/-- The `n` bytes at EXP_ADDR (20_memory.md R62). -/
def expBytes (s : State) (n : Nat) : List Byte := imemBytes s s.expAddr.toNat n

/-- The tweak registers (10_state.md R23). -/
def tweakRegs (s : State) : Tweak := { t0 := s.twk0, t1 := s.twk1, t2 := s.twk2 }

/-! ### Capacities -/

/-- `n` tree nodes fit the arena (43_dispatch_tree.md R188). -/
abbrev TreeFits (c : Config) (n : Nat) : Prop := c.treeNodeMax.all (fun m => decide (n ≤ m)) = true

/-- The tree capacity check of a command that hashes SRC_LEN bytes under `cfg` (43_dispatch_tree.md R188), made only
for the tree layout (42 R155, 46 R220, 45 R207). -/
def checkTree (s : State) (cfg : CfgRec) : Except Stop Unit :=
  require (cfg.mode = modeTree → TreeFits s.config (leafCount s.srcLen.toNat cfg.leaf.toNat)) .capacity

/-- The node list has room for one more node (45_merkle.md R207). -/
abbrev NodeListHasRoom (s : State) : Prop := s.config.mkMax ≠ some s.merkle.nodes.length

/-- Every pair hash of the reduction fits the arena (45_merkle.md R208). -/
abbrev PairsFit (s : State) : Prop :=
  s.merkle.cfg.mode = modeTree → 1 < s.merkle.nodes.length →
    TreeFits s.config (ceilDiv (2 * digestBytes s.merkle.cfg.bits) s.merkle.cfg.leaf.toNat)

end Sys2Proof.Machine
end

