-- ==== Sys2Proof/Machine/CipherCmds.lean ====
section
/-! DEFINITION. The block commands ENC, DEC (40_cipher.md R112, R113) and UBI (41_ubi.md R137). -/

namespace Sys2Proof.Machine

/-- ENC (40_cipher.md R112). -/
def execEnc (s : State) : Result :=
  runCommand Instr.enc.opc (fun s => do
    checkRange s s.keyAddr blockBytes
    checkRange s s.srcAddr blockBytes
    return setDone (writeBlockResult s (encrypt s.config.rawAlgo (keyBlock s) (tweakRegs s) (srcBlock s))) false) s

/-- DEC (40_cipher.md R113). -/
def execDec (s : State) : Result :=
  runCommand Instr.dec.opc (fun s => do
    checkRange s s.keyAddr blockBytes
    checkRange s s.srcAddr blockBytes
    return setDone (writeBlockResult s (decrypt s.config.rawAlgo (keyBlock s) (tweakRegs s) (srcBlock s))) false) s

/-- UBI with domain tag `d` (41_ubi.md R137). -/
def execUbi (d : Byte) (s : State) : Result :=
  runCommand (Instr.ubi d).opc (fun s => do
    checkRange s s.keyAddr blockBytes
    checkRange s s.srcAddr s.srcLen.toNat
    return setDone (writeBlockResult s (ubi s.config.rawAlgo (keyBlock s) d (srcBytes s))) false) s

end Sys2Proof.Machine
end

