-- ==== Sys2Proof/Machine/HashCmds.lean ====
section
/-! DEFINITION. The one-shot hashes HASH (42_dispatch_seq_stream.md R155), TREE (43_dispatch_tree.md R184), VERIFY
(46_verify_system.md R220) and MAC (44_mac.md R196). -/

namespace Sys2Proof.Machine

/-- HASH (42_dispatch_seq_stream.md R155). -/
def execHash (s : State) : Result :=
  runCommand Instr.hash.opc (fun s => do
    let cfg := currentConfig s
    validateConfig cfg
    checkRange s s.srcAddr s.srcLen.toNat
    checkTree s cfg
    let dg ← terminating (hashDigest (s.config.algoFor cfg.bits) cfg (srcBytes s))
    return setDone (writeDigest s dg cfg.bits) false) s

/-- TREE: the tree layout whatever CFG.MODE is (43_dispatch_tree.md R184). -/
def execTree (s : State) : Result :=
  runCommand Instr.tree.opc (fun s => do
    let cfg := currentConfig s
    validateConfig cfg
    checkRange s s.srcAddr s.srcLen.toNat
    checkTree s { cfg with mode := modeTree }
    let dg ← terminating (treeHash (s.config.algoFor cfg.bits) cfg (srcBytes s))
    return setDone (writeDigest s dg cfg.bits) false) s

/-- VERIFY: the comparison goes to MATCH, the computed digest is not shown (46_verify_system.md R220). -/
def execVerify (s : State) : Result :=
  runCommand Instr.verify.opc (fun s => do
    let cfg := currentConfig s
    validateConfig cfg
    checkRange s s.srcAddr s.srcLen.toNat
    checkRange s s.expAddr (digestBytes cfg.bits)
    checkTree s cfg
    let dg ← terminating (hashDigest (s.config.algoFor cfg.bits) cfg (srcBytes s))
    return setDone (clearResult s) (dg == expBytes s (digestBytes cfg.bits))) s

/-- MAC (44_mac.md R196). -/
def execMac (s : State) : Result :=
  runCommand Instr.mac.opc (fun s => do
    let cfg := currentConfig s
    validateConfig cfg
    checkRange s s.keyAddr s.keyLen.toNat
    checkRange s s.srcAddr s.srcLen.toNat
    return setDone (writeDigest s (macDigest (s.config.algoFor cfg.bits) cfg (keyBytes s) (srcBytes s)) cfg.bits) false) s

end Sys2Proof.Machine
end

