-- ==== Sys2Proof/Machine/MerkleCmds.lean ====
section
/-! DEFINITION. The Merkle session MK_BEGIN, MK_PUSH, MK_ROOT (45_merkle.md R206 to R208). -/

namespace Sys2Proof.Machine

/-- Append a node (45_merkle.md R207). -/
def appendNode (s : State) (h : List Byte) : State :=
  setMerkle s { s.merkle with nodes := s.merkle.nodes ++ [h] }

/-- MK_BEGIN, legal whether or not a session is open (45_merkle.md R206). -/
def execMkBegin (s : State) : Result :=
  runCommand Instr.mkBegin.opc (fun s => do
    let cfg := currentConfig s
    validateConfig cfg
    return setDone (setMerkle s { isOpen := true, cfg := cfg, nodes := [] }) false) s

/-- MK_PUSH (45_merkle.md R207). -/
def execMkPush (s : State) : Result :=
  runCommand Instr.mkPush.opc (fun s => do
    require (s.merkle.isOpen = true) .merkleNotOpen
    checkRange s s.srcAddr s.srcLen.toNat
    require (NodeListHasRoom s) .capacity
    checkTree s s.merkle.cfg
    let h ← terminating (hashDigest (s.config.algoFor s.merkle.cfg.bits) s.merkle.cfg (srcBytes s))
    return setDone (appendNode s h) false) s

/-- MK_ROOT (45_merkle.md R208). -/
def execMkRoot (s : State) : Result :=
  runCommand Instr.mkRoot.opc (fun s => do
    require (s.merkle.isOpen = true) .merkleNotOpen
    require (s.merkle.nodes ≠ []) .merkleEmpty
    require (PairsFit s) .capacity
    let dg ← terminating (merkleReduce (s.config.algoFor s.merkle.cfg.bits) s.merkle.cfg s.merkle.nodes)
    return setDone (setMerkle (writeDigest s dg s.merkle.cfg.bits) resetMerkle) false) s

end Sys2Proof.Machine
end

