-- ==== Sys2Proof/Machine/StreamCmds.lean ====
section
/-! DEFINITION. The streaming session S_INIT, S_UPDATE, S_FINAL (42_dispatch_seq_stream.md R156 to R158). -/

namespace Sys2Proof.Machine

/-- The context S_INIT opens under a configuration (42_dispatch_seq_stream.md R156). -/
def openStream (A : Algo) (cfg : CfgRec) : StreamCtx :=
  { phase := .opened
    sg := postConfig A cfg cfg.mode
    res := []
    pos := 0
    total := 0
    first := true
    bits := cfg.bits
    wipe := cfg.wipe }

/-- One turn of S_UPDATE's loop: consume the first 128 residual bytes (42_dispatch_seq_stream.md R157). -/
def consumeBlock (A : Algo) (x : StreamCtx) : StreamCtx :=
  { x with
    pos := x.pos + 128
    sg := ubiBlock A x.sg (x.res.take 128) (x.pos + 128) x.first false tagMsg
    first := false
    res := x.res.drop 128 }

/-- `while len(RES) > 128` of S_UPDATE (42_dispatch_seq_stream.md R157), at most `turns` turns of it. -/
def absorbBlocks (A : Algo) : (turns : Nat) → StreamCtx → StreamCtx
  | 0, x => x
  | turns + 1, x => if x.res.length > 128 then absorbBlocks A turns (consumeBlock A x) else x

/-- The context after S_UPDATE with a chunk of `len` bytes (42_dispatch_seq_stream.md R157); every turn consumes
128 bytes, so as many turns as there are bytes suffice. -/
def absorb (A : Algo) (x : StreamCtx) (chunk : List Byte) (len : Word) : StreamCtx :=
  let y := absorbBlocks A (x.res ++ chunk).length { x with res := x.res ++ chunk }
  { y with total := y.total + len }

/-- The context after S_FINAL: cleared whatever S_WIPE is (42_dispatch_seq_stream.md R158). -/
def closeStream (x : StreamCtx) : StreamCtx :=
  { x with phase := .finalized, sg := zeroBlock, res := [], pos := 0, total := 0, first := true }

/-- The digest S_FINAL returns: the residual as the FINAL block, then the output transform (42 R158). -/
def streamDigest (A : Algo) (x : StreamCtx) : List Byte :=
  finish A (ubiBlock A x.sg x.res (x.pos + BitVec.ofNat 64 x.res.length) x.first true tagMsg) x.bits

/-- S_INIT, legal in every lifecycle state (42_dispatch_seq_stream.md R156). -/
def execSInit (s : State) : Result :=
  runCommand Instr.sInit.opc (fun s => do
    let cfg := currentConfig s
    validateConfig cfg
    return setDone (setStream s (openStream (s.config.algoFor cfg.bits) cfg)) false) s

/-- S_UPDATE (42_dispatch_seq_stream.md R157). -/
def execSUpdate (s : State) : Result :=
  runCommand Instr.sUpdate.opc (fun s => do
    require (s.stream.phase = .opened) .streamNotOpen
    checkRange s s.srcAddr s.srcLen.toNat
    return setDone (setStream s (absorb (s.config.algoFor s.stream.bits) s.stream (srcBytes s) s.srcLen)) false) s

/-- S_FINAL (42_dispatch_seq_stream.md R158). The guard of UbiBlock (41_ubi.md R132) stands here, the one command
whose block is not cut to 128 bytes by the command itself; it never fails (60_exceptions.md R244; log 13). -/
def execSFinal (s : State) : Result :=
  runCommand Instr.sFinal.opc (fun s => do
    require (s.stream.phase ≠ .finalized) .finalizeTwice
    require (s.stream.phase ≠ .empty) .streamNotOpen
    require (s.stream.res.length ≤ 128) .ubiBlockOversize
    let dg := streamDigest (s.config.algoFor s.stream.bits) s.stream
    return setDone (setStream (writeDigest s dg s.stream.bits) (closeStream s.stream)) false) s

end Sys2Proof.Machine
end

