-- ==== Sys2Proof/Machine/SystemCmds.lean ====
section
/-! DEFINITION. The system commands NOP, CLRERR, WIPE (46_verify_system.md R221 to R224). -/

namespace Sys2Proof.Machine

/-- NOP (46_verify_system.md R221): only the common changes of 30_encoding.md R88. -/
def execNop (s : State) : Result :=
  runCommand Instr.nop.opc (fun s => .ok (setDone s false)) s

/-- CLRERR, the one command that executes while an error is pending (46_verify_system.md R222, 60_exceptions.md R243). -/
def execClrerr (s : State) : Result :=
  if s.busy then .refused .accessWhileBusy else .next (returnFromError (countCommand s))

/-- The registers and sessions WIPE erases (46_verify_system.md R223). -/
def wipeState (s : State) : State :=
  { clearResult s with
    twk0 := 0
    twk1 := 0
    twk2 := 0
    persLen := 0
    pers := Vector.ofFn fun _ => 0
    stream := resetStream
    merkle := resetMerkle }

/-- WIPE (46_verify_system.md R223). -/
def execWipe (s : State) : Result :=
  runCommand Instr.wipe.opc (fun s => .ok (setDone (wipeState s) false)) s

end Sys2Proof.Machine
end

