-- ==== Sys2Proof/Machine/Dispatch.lean ====
section
/-! DEFINITION. The meaning of every command, one arm each: the whole transition of 30_encoding.md R88 for the
command's word. -/

namespace Sys2Proof.Machine

def exec (i : Instr) (s : State) : Host.Outcome State Fault Refusal :=
  match i with
  | .nop => Sys2Proof.Machine.execNop s
  | .clrerr => Sys2Proof.Machine.execClrerr s
  | .wipe => Sys2Proof.Machine.execWipe s
  | .enc => Sys2Proof.Machine.execEnc s
  | .dec => Sys2Proof.Machine.execDec s
  | .ubi d => Sys2Proof.Machine.execUbi d s
  | .hash => Sys2Proof.Machine.execHash s
  | .tree => Sys2Proof.Machine.execTree s
  | .verify => Sys2Proof.Machine.execVerify s
  | .sInit => Sys2Proof.Machine.execSInit s
  | .sUpdate => Sys2Proof.Machine.execSUpdate s
  | .sFinal => Sys2Proof.Machine.execSFinal s
  | .mac => Sys2Proof.Machine.execMac s
  | .mkBegin => Sys2Proof.Machine.execMkBegin s
  | .mkPush => Sys2Proof.Machine.execMkPush s
  | .mkRoot => Sys2Proof.Machine.execMkRoot s

end Sys2Proof.Machine
end

