-- ==== Sys2Proof/Machine/HostAccess.lean ====
section
/-! DEFINITION. What each access of the host does (10_state.md R21, R31; 20_memory.md R66, R69; 30_encoding.md R86;
70_reset_and_hazards.md R260, R268). -/

namespace Sys2Proof.Machine

/-- A write of `w` to CMD: the command it names, or an illegal command (30_encoding.md R84, R88). -/
def issueWord (w : Word) (s : State) : Result :=
  match decode w with
  | .ok i => exec i s
  | .error _ => illegalCommand w s

/-- A host write of a register (10_state.md R21): index 0 is CMD. Only whole words (20_memory.md R66), and none while
BUSY (70_reset_and_hazards.md R268). -/
def hostWriteReg (width idx : Nat) (v : Word) (s : State) : Result :=
  if width ≠ 8 then .refused .registerWidth
  else if s.busy then .refused .accessWhileBusy
  else if idx = 0 then issueWord v s
  else .next (writeReg s idx v)

/-- The registers that hold results: OUT_LEN, MK_COUNT, OUT0..OUT15 (70_reset_and_hazards.md R268 (c)). -/
def isResultReg (idx : Nat) : Bool := decide (0x0E ≤ idx ∧ idx ≤ 0x1F)

/-- A host read of a register (10_state.md R21): no side effect on the core (R31). While BUSY, STATUS may be read and
results may not (70_reset_and_hazards.md R268); a STATUS read then takes the next free value (log 5). -/
def hostReadReg (width idx : Nat) (s : State) : Result :=
  if width ≠ 8 then .refused .registerWidth
  else if s.busy ∧ isResultReg idx then .refused .accessWhileBusy
  else .next { s with
    answer := some (readReg s idx)
    busyReads := if s.busy ∧ idx = 1 then s.busyReads + 1 else s.busyReads }

/-- The IMEM access widths in bytes (20_memory.md R66). -/
def imemWidths : List Nat := [1, 2, 4, 8]

/-- A host write of IMEM, little-endian (20_memory.md R64, R66); outside IMEM a bus error (R69); not while BUSY
(70_reset_and_hazards.md R264). -/
def hostWriteMem (width addr : Nat) (v : Word) (s : State) : Result :=
  if width ∉ imemWidths then .refused .imemWidth
  else if s.busy then .refused .accessWhileBusy
  else if addr + width ≤ s.config.imemSize then .next { s with imem := memWriteBytes s.imem addr (lowBytes width v) }
  else .fault .imemBusError

/-- A host read of IMEM, little-endian, zero-extended to a word (20_memory.md R64, R66); outside IMEM a bus error
(R69). -/
def hostReadMem (width addr : Nat) (s : State) : Result :=
  if width ∉ imemWidths then .refused .imemWidth
  else if addr + width ≤ s.config.imemSize then .next { s with answer := some (le64 (imemBytes s addr width)) }
  else .fault .imemBusError

/-- Reset, at any time, also while a command runs (70_reset_and_hazards.md R260, R261): every piece of state takes
its reset value, IMEM becomes unspecified anew; the parameters and the host's later accesses stay. -/
def applyReset (s : State) : State := resetState s.config (s.epoch + 1) s.script

/-- One access of the host. -/
def hostAccess (a : HostAction) (s : State) : Result :=
  match a with
  | .writeReg width idx v => hostWriteReg width idx v s
  | .readReg width idx => hostReadReg width idx s
  | .writeMem width addr v => hostWriteMem width addr v s
  | .readMem width addr => hostReadMem width addr s
  | .reset => .next (applyReset s)

/-- The next transition: the host's next access, or, when the host does nothing, none: the core holds its state
(60_exceptions.md R250, 70_reset_and_hazards.md R261). -/
def nextAccess (s : State) : Result :=
  match s.script with
  | [] => .next s
  | a :: rest => hostAccess a { s with script := rest }

/-- The host access that issues command word `w` (30_encoding.md R86). -/
def issueAccess (w : Word) : HostAction := .writeReg 8 0 w

end Sys2Proof.Machine
end

