-- ==== Sys2Proof/Machine/Step.lean ====
section
/-! DEFINITION. One step: the host's next access (20_memory.md R70), and where a command word stands to be run next. -/

namespace Sys2Proof.Machine

/-- One step of the core and its host (00_scope.md R16, 20_memory.md R70). -/
def step (s : State) : Host.Outcome State Fault Refusal := nextAccess s

/-- `s` with the command word `w` as the host's next access: a write of it to CMD (30_encoding.md R80, R86; log 7). -/
def State.withFetchWord (s : State) (nbits w : Nat) : State :=
  { s with script := issueAccess (BitVec.ofNat 64 (w % 2 ^ nbits)) :: s.script }

end Sys2Proof.Machine
end

