-- ==== Sys2Proof/Safety.lean ====
section
/-! DEFINITION. The terms claims are stated in: when a command is executed, which configurations are legal, when a
computation ends, the invariant of the machine, and what the host may not learn. -/

namespace Sys2Proof.Machine

/-- A command issued now is executed: the core is idle and no error is pending (30_encoding.md R88). -/
abbrev Ready (s : State) : Prop := s.busy = false ∧ s.err = none

/-- A configuration that passes every check of 42_dispatch_seq_stream.md R151. -/
abbrev ConfigLegal (cfg : CfgRec) : Prop :=
  cfg.bits.toNat ∈ digestSizes ∧ cfg.mode ≠ 3 ∧ cfg.xform = 0 ∧ cfg.fan ≠ 0 ∧ cfg.leaf ≠ 0
    ∧ ¬ (cfg.strict = true ∧ cfg.plen.toNat > persMax)

/-- The cause of the first failing check of 42_dispatch_seq_stream.md R151, in that rule's order. -/
def firstConfigError (cfg : CfgRec) : Option Cause :=
  if cfg.bits.toNat % 8 ≠ 0 then some .sizeNotMult8
  else if cfg.bits.toNat ∉ digestSizes then some .sizeUnknown
  else if cfg.mode = 3 then some .modeReserved
  else if cfg.xform ≠ 0 then some .xformUnsupported
  else if cfg.fan = 0 then some .fanoutZero
  else if cfg.leaf = 0 then some .leafZero
  else if cfg.strict = true ∧ cfg.plen.toNat > persMax then some .persTooLong
  else none

/-- The tree over `len` bytes has a root: not (fan-out 1 over more than one leaf) (43_dispatch_tree.md R187). -/
abbrev TreeEnds (cfg : CfgRec) (len : Nat) : Prop := cfg.fan ≠ 1 ∨ leafCount len cfg.leaf.toNat = 1

/-- `Hash` over `len` bytes ends (42_dispatch_seq_stream.md R161, 43_dispatch_tree.md R187). -/
abbrev HashEnds (cfg : CfgRec) (len : Nat) : Prop := cfg.mode = modeTree → TreeEnds cfg len

/-- The state a command leaves when it raises `c` (60_exceptions.md R240, R241): the five STATUS fields and
CMD_COUNT. -/
abbrev raised (s : State) (opc : Byte) (c : Cause) : State :=
  { s with cmdCount := s.cmdCount + 1, err := some { cause := c, opc := opc }, done := false, matched := false }

/-- The state a command that never completes leaves (43_dispatch_tree.md R187): counted, BUSY. -/
abbrev running (s : State) : State := { s with cmdCount := s.cmdCount + 1, busy := true }

/-- The words of OUT after a digest result (10_state.md R22). -/
abbrev digestWords (dg : List Byte) : Block := words (zeroPad 128 dg)

/-- OUT_LEN after a digest result of `bits` bits (10_state.md R22). -/
abbrev digestLen (bits : BitVec 16) : Word := BitVec.ofNat 64 (digestBytes bits)

/-! ### The invariant -/

/-- The streaming context's invariants (10_state.md R33), in the form that also holds once a session has ingested
2^64 bytes and its counters have wrapped (41_ubi.md R136; log 17). -/
abbrev StreamInv (x : StreamCtx) : Prop :=
  (x.phase = .empty → x = resetStream)
    ∧ (x.phase = .finalized → x.sg = zeroBlock ∧ x.res = [] ∧ x.pos = 0 ∧ x.total = 0 ∧ x.first = true)
    ∧ (x.phase = .opened →
        x.pos + BitVec.ofNat 64 x.res.length = x.total ∧ x.pos.toNat % 128 = 0 ∧ x.res.length ≤ 128
          ∧ (x.first = true → x.pos = 0) ∧ (x.first = false → x.res ≠ []) ∧ x.bits.toNat ∈ digestSizes)

/-- 10_state.md R33 as written, for an open context: it holds until a session's byte count wraps (log 17). -/
abbrev StreamExact (x : StreamCtx) : Prop :=
  x.pos + BitVec.ofNat 64 x.res.length = x.total ∧ x.pos.toNat % 128 = 0 ∧ x.res.length ≤ 128
    ∧ (x.res.length = 0 ↔ x.total = 0) ∧ (x.first = true ↔ x.pos = 0)

/-- The Merkle node list's invariants (10_state.md R34, 45_merkle.md R206 to R208). -/
abbrev MerkleInv (c : Config) (m : MerkleList) : Prop :=
  (m.isOpen = false → m = resetMerkle)
    ∧ (m.isOpen = true → ConfigLegal m.cfg ∧ m.cfg.pers.length ≤ persMax
        ∧ (∀ n ∈ m.nodes, n.length = digestBytes m.cfg.bits))
    ∧ c.mkMax.all (fun k => decide (m.nodes.length ≤ k)) = true

/-- The result registers' invariant (10_state.md R22): OUT_LEN is 0, 32, 64 or 128, and the words of OUT beyond it
are zero. -/
abbrev ResultInv (s : State) : Prop :=
  s.outLen.toNat ∈ [0, 32, 64, 128] ∧ ∀ i < 16, s.outLen.toNat ≤ 8 * i → blockWord s.out i = 0

/-- IMEM is in canonical form and lists addresses of IMEM only (20_memory.md R60). -/
abbrev ImemInv (s : State) : Prop := memWf s.imem = true ∧ ∀ c ∈ s.imem, c.1 < s.config.imemSize

/-- InternalInvariant is never recorded (60_exceptions.md R244), and a running command has no error pending. -/
abbrev ErrorInv (s : State) : Prop :=
  s.err.all (fun e => decide (causeKind e.cause ≠ .internalInvariant)) = true ∧ (s.busy = true → s.err = none)

/-- The invariant of the machine. -/
abbrev Inv (s : State) : Prop :=
  StreamInv s.stream ∧ MerkleInv s.config s.merkle ∧ ResultInv s ∧ ImemInv s ∧ ErrorInv s

/-! ### What MEM_WIPE may not change -/

/-- A state with every copy of MEM_WIPE (CFG bit 18, S_WIPE, MK_CFG.wipe) set to 0 (46_verify_system.md R224). -/
def eraseWipe (s : State) : State :=
  { s with
    cfg := s.cfg &&& 0xFBFFFF
    stream := { s.stream with wipe := false }
    merkle := { s.merkle with cfg := { s.merkle.cfg with wipe := false } } }

/-- An outcome with MEM_WIPE erased from its state. -/
def eraseWipeResult : Result → Result
  | .next t => .next (eraseWipe t)
  | .fault r => .fault r
  | .refused r => .refused r

/-! ### Host scripts of whole sessions (30_encoding.md R86) -/

/-- A streaming session: S_INIT, one S_UPDATE per chunk given by address and length, S_FINAL
(70_reset_and_hazards.md R265). -/
def streamSession (cs : List (Word × Word)) : List HostAction :=
  issueAccess (encode .sInit)
    :: (cs.flatMap fun c => [.writeReg 8 0x06 c.1, .writeReg 8 0x07 c.2, issueAccess (encode .sUpdate)])
    ++ [issueAccess (encode .sFinal)]

/-- A Merkle session: MK_BEGIN, one MK_PUSH per transaction given by address and length, MK_ROOT
(70_reset_and_hazards.md R265). -/
def merkleSession (txs : List (Word × Word)) : List HostAction :=
  issueAccess (encode .mkBegin)
    :: (txs.flatMap fun c => [.writeReg 8 0x06 c.1, .writeReg 8 0x07 c.2, issueAccess (encode .mkPush)])
    ++ [issueAccess (encode .mkRoot)]

/-- The bytes of IMEM a chunk or transaction names. -/
def chunkBytes (s : State) (c : Word × Word) : List Byte := imemBytes s c.1.toNat c.2.toNat

end Sys2Proof.Machine
end

