-- ==== Sys2Proof/Certificates/Slice0/Obligations.lean ====
section
/-! DEFINITION. The statements about the SK3 core. Each docstring names the rules of spec/ it rests on. -/

open Sys2Proof Sys2Proof.Machine

/-! ### Command words -/

/-- 30_encoding.md R83: a word decodes exactly when it is legal. -/
def Obligations.DecodeAcceptsExactlyLegalWords : Prop :=
  ∀ w : Word, (∃ i, decode w = .ok i) ↔ legalWord w = true

/-- 30_encoding.md sections 1 and 2: decoding and encoding agree in both directions, for every instruction with every
operand: the words that decode to an instruction are its one command word. -/
def Obligations.DecodeEncodeAgree : Prop :=
  ∀ (w : Word) (i : Instr), decode w = .ok i ↔ w = encode i

/-- 30_encoding.md section 2: the words the spec writes out (ENC, UBI 48, UBI 28, UBI 63, HASH), the word of every other
opcode of its table, and three illegal ones. -/
def Obligations.KnownWordsDecode : Prop :=
  decode 0x0000000000000000 = .ok .nop ∧ decode 0x0000000000000001 = .ok .clrerr
    ∧ decode 0x0000000000000002 = .ok .wipe ∧ decode 0x0000000000000011 = .ok .dec
    ∧ decode 0x0000000000000031 = .ok .tree ∧ decode 0x0000000000000032 = .ok .verify
    ∧ decode 0x0000000000000038 = .ok .sInit ∧ decode 0x0000000000000039 = .ok .sUpdate
    ∧ decode 0x000000000000003A = .ok .sFinal ∧ decode 0x0000000000000040 = .ok .mac
    ∧ decode 0x0000000000000050 = .ok .mkBegin ∧ decode 0x0000000000000051 = .ok .mkPush
    ∧ decode 0x0000000000000052 = .ok .mkRoot
    ∧ decode 0x0000000000000010 = .ok .enc ∧ decode 0x0000000000003020 = .ok (.ubi 48)
    ∧ decode 0x0000000000001C20 = .ok (.ubi 28) ∧ decode 0x0000000000003F20 = .ok (.ubi 63)
    ∧ decode 0x0000000000000030 = .ok .hash
    ∧ decode 0x0000000000000130 = .error .arg ∧ decode 0x0000000000010030 = .error .upperBits
    ∧ decode 0x0000000000000003 = .error .opcode

/-- 30_encoding.md section 4 (the CMD write): when the host's next access writes to CMD a word that decodes to `i` and
the core is not BUSY, the step is exec of `i` on the state with that access taken off the script. -/
def Obligations.StepRunsTheDecodedCommand : Prop :=
  ∀ (s : State) (w : Word) (i : Instr) (rest : List HostAction),
    s.busy = false → s.script = issueAccess w :: rest → decode w = .ok i →
    step s = exec i { s with script := rest }

/-- 30_encoding.md section 3: an illegal word raises ILLEGAL_CMD with bits 7:0 of the word in ERR_OPC and changes
nothing else but CMD_COUNT and the STATUS fields of an error; with an error pending it is only counted. -/
def Obligations.IllegalWordRaisesIllegalCmd : Prop :=
  ∀ (s : State) (w : Word) (rest : List HostAction),
    s.busy = false → legalWord w = false → s.script = issueAccess w :: rest →
    (s.err = none → step s = .next (raised { s with script := rest } (w.extractLsb' 0 8) .illegalCmd))
      ∧ (s.err.isSome = true → step s = .next { s with script := rest, cmdCount := s.cmdCount + 1 })

/-- 60_exceptions.md R242: while an error is pending every CMD write whose word is not exactly CLRERR only counts, so
that nothing of it is left to execute later, while register and IMEM writes by the host do what they do without an
error. -/
def Obligations.PendingErrorIgnoresCommands : Prop :=
  ∀ (s : State) (w v : Word) (rest : List HostAction) (idx width addr : Nat), s.busy = false → s.err.isSome = true →
    (w ≠ 0x0000000000000001 → s.script = issueAccess w :: rest →
      step s = .next { s with script := rest, cmdCount := s.cmdCount + 1 })
    ∧ (idx ≠ 0 → s.script = .writeReg 8 idx v :: rest → step s = .next (writeReg { s with script := rest } idx v))
    ∧ (width ∈ [1, 2, 4, 8] → addr + width ≤ s.config.imemSize → s.script = .writeMem width addr v :: rest →
        step s = .next { s with script := rest, imem := memWriteBytes s.imem addr (lowBytes width v) })

/-! ### The system commands -/

/-- 46_verify_system.md R221: NOP counts, sets DONE and clears MATCH; with an error pending it only counts. -/
def Obligations.NopOnlyCountsAndSetsDone : Prop :=
  ∀ s : State,
    (Ready s → exec .nop s = .next { s with cmdCount := s.cmdCount + 1, done := true, matched := false })
      ∧ (s.busy = false → s.err.isSome = true → exec .nop s = .next { s with cmdCount := s.cmdCount + 1 })

/-- 46_verify_system.md R222: CLRERR with an error of kind 1 or 2 pending, of kind 3, and with none. -/
def Obligations.ClrerrReturnsFromError : Prop :=
  ∀ s : State, s.busy = false →
    (∀ e, s.err = some e → causeKind e.cause ≠ .internalInvariant →
      exec .clrerr s
        = .next { s with cmdCount := s.cmdCount + 1, err := none, done := true, matched := false })
    ∧ (∀ e, s.err = some e → causeKind e.cause = .internalInvariant →
        exec .clrerr s = .next { s with cmdCount := s.cmdCount + 1 })
    ∧ (s.err = none →
        exec .clrerr s = .next { s with cmdCount := s.cmdCount + 1, done := true, matched := false })

/-- 46_verify_system.md R223: what WIPE erases, and that everything else but CMD_COUNT and the flags stays. -/
def Obligations.WipeErasesKeyedState : Prop :=
  ∀ s : State, Ready s →
    exec .wipe s = .next { s with
      cmdCount := s.cmdCount + 1
      done := true
      matched := false
      out := zeroBlock
      outLen := 0
      twk0 := 0
      twk1 := 0
      twk2 := 0
      persLen := 0
      pers := Vector.ofFn fun _ => 0
      stream := resetStream
      merkle := resetMerkle }

/-! ### The block commands -/

/-- 40_cipher.md section 5: ENC writes the encrypted block to OUT and 128 to OUT_LEN and changes nothing else. The
round count, the standard security mode's, is the model's choice (DESIGN CHOICE, log 2): 40_cipher.md R103 pins the
same count in every mode. -/
def Obligations.EncWritesCiphertext : Prop :=
  ∀ s : State, Ready s → InImem s s.keyAddr 128 → InImem s s.srcAddr 128 →
    exec .enc s = .next { s with
      cmdCount := s.cmdCount + 1
      done := true
      matched := false
      out := encrypt s.config.rawAlgo (words (imemBytes s s.keyAddr.toNat 128)) ⟨s.twk0, s.twk1, s.twk2⟩
        (words (imemBytes s s.srcAddr.toNat 128))
      outLen := 128 }

/-- 40_cipher.md section 5: DEC writes the decrypted block to OUT and 128 to OUT_LEN and changes nothing else. The
round count, the standard security mode's, is the model's choice (DESIGN CHOICE, log 2): 40_cipher.md R103 pins the
same count in every mode. -/
def Obligations.DecWritesPlaintext : Prop :=
  ∀ s : State, Ready s → InImem s s.keyAddr 128 → InImem s s.srcAddr 128 →
    exec .dec s = .next { s with
      cmdCount := s.cmdCount + 1
      done := true
      matched := false
      out := decrypt s.config.rawAlgo (words (imemBytes s s.keyAddr.toNat 128)) ⟨s.twk0, s.twk1, s.twk2⟩
        (words (imemBytes s s.srcAddr.toNat 128))
      outLen := 128 }

/-- 41_ubi.md section 3: UBI with every domain tag writes the whole chaining value and changes nothing else. The round
count, the standard security mode's, is the model's choice (DESIGN CHOICE, log 2): 40_cipher.md R103 pins the same
count in every mode. -/
def Obligations.UbiWritesChainingValue : Prop :=
  ∀ (s : State) (d : Byte), Ready s → InImem s s.keyAddr 128 → InImem s s.srcAddr s.srcLen.toNat →
    exec (.ubi d) s = .next { s with
      cmdCount := s.cmdCount + 1
      done := true
      matched := false
      out := ubi s.config.rawAlgo (words (imemBytes s s.keyAddr.toNat 128)) d
        (imemBytes s s.srcAddr.toNat s.srcLen.toNat)
      outLen := 128 }

/-- 40_cipher.md R111: for every admissible choice of the algorithm parameters decryption inverts encryption and
encryption inverts decryption, for all keys, tweaks and blocks. -/
def Obligations.DecryptInvertsEncrypt : Prop :=
  ∀ A : Algo, A.wf = true → ∀ (K : Block) (T : Tweak) (B : Block),
    decrypt A K T (encrypt A K T B) = B ∧ encrypt A K T (decrypt A K T B) = B

/-- 40_cipher.md sections 1 to 4, the cipher word by word. The extended tweak has `T[0] xor T[1]` as its third word, and
the third tweak word has no effect in either direction. With the pinned pairing a MIX round works on words `2j` and
`2j + 1`; output word `i` of the permutation is input word `PI[i]`; the extended key is the key and its parity word;
a subkey adds tweak words to words 0 and 14 and its number to word 15; encryption is `R/4` groups of a subkey addition
and four rounds, and a last subkey. The parameters of the machine at reset are the numbers the spec prints. Which of
the three round counts a digest size and a raw command use is the model's reading and choice (log 2). -/
def Obligations.ThirdTweakWordIsIgnored : Prop :=
  ∀ (A : Algo) (K B : Block) (a b c c' : Word) (Ke Te : List Word),
    (extTweak ⟨a, b, c⟩ = [a, b, a ^^^ b]
      ∧ encrypt A K ⟨a, b, c⟩ B = encrypt A K ⟨a, b, c'⟩ B
      ∧ decrypt A K ⟨a, b, c⟩ B = decrypt A K ⟨a, b, c'⟩ B)
    ∧ (A.pairing = [0, 1, 2, 3, 4, 5, 6, 7, 8, 9, 10, 11, 12, 13, 14, 15] → ∀ r, ∀ j < 8,
        let x0 := blockWord B (2 * j)
        let x1 := blockWord B (2 * j + 1)
        let n := (A.rot.getD (r % 8) []).getD j 0
        blockWord (mixRound A B r) (2 * j) = x0 + x1
          ∧ blockWord (mixRound A B r) (2 * j + 1) = (x1 <<< n ||| x1 >>> (64 - n)) ^^^ (x0 + x1))
    ∧ (∀ i < 16, blockWord (permute A B) i = blockWord B (A.pi.getD i 0))
    ∧ ((extKey K).length = 17 ∧ (∀ i < 16, (extKey K).getD i 0 = blockWord K i)
        ∧ (extKey K).getD 16 0 = (List.range 16).foldl (fun x i => x ^^^ blockWord K i) 0x1BD11BDAA9FC1A22)
    ∧ (∀ d, ∀ i < 16, blockWord (subkey Ke Te d) i = Ke.getD ((d + i) % 17) 0
        + (if i = 0 then Te.getD (d % 3) 0 else if i = 14 then Te.getD ((d + 1) % 3) 0
           else if i = 15 then BitVec.ofNat 64 d else 0))
    ∧ (let addKey := fun (v : Block) d => blockOf fun i => blockWord v i + blockWord (subkey (extKey K) [a, b, a ^^^ b] d) i
       let fourRounds := fun (v : Block) d => (List.range 4).foldl (fun v k => permute A (mixRound A v (4 * d + k))) v
       encrypt A K ⟨a, b, c⟩ B
         = addKey ((List.range (A.rounds / 4)).foldl (fun v d => fourRounds (addKey v d) d) B) (A.rounds / 4))
    ∧ (∀ p : Config, p.rawAlgo = { p.params.toTables with rounds := p.params.rounds.standard }
        ∧ p.algoFor 256 = { p.params.toTables with rounds := p.params.rounds.standard }
        ∧ p.algoFor 512 = { p.params.toTables with rounds := p.params.rounds.enhanced }
        ∧ p.algoFor 1024 = { p.params.toTables with rounds := p.params.rounds.quantum })
    ∧ State.reset.config.params =
      { pairing := [0, 1, 2, 3, 4, 5, 6, 7, 8, 9, 10, 11, 12, 13, 14, 15]
        rot := [[24, 13, 8, 47, 8, 17, 22, 37], [38, 19, 10, 55, 49, 18, 23, 52],
                [33, 4, 51, 13, 34, 41, 59, 17], [5, 20, 48, 41, 47, 28, 16, 25],
                [41, 9, 37, 31, 12, 47, 44, 30], [16, 34, 56, 51, 4, 53, 42, 41],
                [31, 44, 47, 46, 19, 42, 44, 25], [9, 48, 35, 52, 23, 31, 37, 20]]
        pi := [0, 9, 2, 13, 6, 11, 4, 15, 10, 7, 12, 3, 14, 5, 8, 1]
        modeTag := [0, 1, 2]
        oddNode := .carryUp
        rounds := { standard := 72, enhanced := 72, quantum := 72 } }

/-- 41_ubi.md section 1: the flag bits and domain bits of `T[1]`, bit by bit: 55:0 are zero, 61:56 are the low six bits
of the tag, 62 is FIRST or the tag's bit 6, 63 is FINAL or the tag's bit 7. -/
def Obligations.TweakFieldsByBit : Prop :=
  ∀ (pos : Word) (first last : Bool) (D : Byte),
    (makeTweak pos first last D).t0 = pos ∧ (makeTweak pos first last D).t2 = 0
      ∧ (∀ k < 56, (makeTweak pos first last D).t1.getLsbD k = false)
      ∧ (∀ k < 6, (makeTweak pos first last D).t1.getLsbD (56 + k) = D.getLsbD k)
      ∧ (makeTweak pos first last D).t1.getLsbD 62 = (first || D.getLsbD 6)
      ∧ (makeTweak pos first last D).t1.getLsbD 63 = (last || D.getLsbD 7)

/-- 41_ubi.md section 2: one block, padded with zeros, is encrypted under the chaining value and its tweak and xored
with the result. An empty input is one zero block with FIRST, FINAL and position 0. A pass over full 128-byte
blocks and a last block of 1 to 128 bytes chains them in order: FIRST on the first, FINAL on the last only, each
block's position counting the useful bytes up to and with it, the last one's being `len(data)` modulo 2^64. -/
def Obligations.UbiChainsItsBlocks : Prop :=
  ∀ (A : Algo) (G : Block) (D : Byte) (full : List (List Byte)) (last : List Byte),
    (∀ (b : List Byte) (pos : Word) (first final : Bool), b.length ≤ 128 → ∀ i < 16,
        let P := words (b ++ List.replicate (128 - b.length) 0)
        blockWord (ubiBlock A G b pos first final D) i
          = blockWord P i ^^^ blockWord (encrypt A G (makeTweak pos first final D) P) i)
      ∧ ubi A G D [] = ubiBlock A G [] 0 true true D
      ∧ ((∀ b ∈ full, b.length = 128) → last ≠ [] → last.length ≤ 128 →
          ∃ (G' : Block) (pos : Word),
            full.foldl (fun (c : Block × Word × Bool) b =>
                (ubiBlock A c.1 b (c.2.1 + 128) c.2.2 false D, c.2.1 + 128, false)) (G, 0, true)
              = (G', pos, full.isEmpty)
            ∧ pos + BitVec.ofNat 64 last.length = BitVec.ofNat 64 (full.flatten ++ last).length
            ∧ ubi A G D (full.flatten ++ last)
              = ubiBlock A G' last (pos + BitVec.ofNat 64 last.length) full.isEmpty true D)

/-! ### The hash commands -/

/-- 42_dispatch_seq_stream.md section 2 (HASH) and 43_dispatch_tree.md sections 1, 2: in every mode HASH ends, writes
the digest, whose length is bits/8, to OUT and changes nothing else; in modes 0 and 1 it is the sequential digest with
the mode's own tag. The digest runs with the parameters of its size's security mode (DEDUCED, log 2). -/
def Obligations.HashWritesDigest : Prop :=
  ∀ s : State, Ready s → ConfigLegal (currentConfig s) → InImem s s.srcAddr s.srcLen.toNat →
    ((currentConfig s).mode = modeTree →
      TreeFits s.config (leafCount s.srcLen.toNat (currentConfig s).leaf.toNat)) →
    HashEnds (currentConfig s) s.srcLen.toNat →
    ∃ dg, hashDigest (s.config.algoFor (currentConfig s).bits) (currentConfig s) (imemBytes s s.srcAddr.toNat s.srcLen.toNat) = some dg
      ∧ dg.length = digestBytes (currentConfig s).bits
      ∧ ((currentConfig s).mode ≠ modeTree →
          dg = hashSeq (s.config.algoFor (currentConfig s).bits) (currentConfig s) (currentConfig s).mode
            (imemBytes s s.srcAddr.toNat s.srcLen.toNat))
      ∧ exec .hash s = .next { s with
          cmdCount := s.cmdCount + 1
          done := true
          matched := false
          out := digestWords dg
          outLen := digestLen (currentConfig s).bits }

/-- 43_dispatch_tree.md section 2: TREE, in every mode, ends, writes the tree digest and changes nothing else. The
digest runs with the parameters of its size's security mode (DEDUCED, log 2). -/
def Obligations.TreeWritesDigest : Prop :=
  ∀ s : State, Ready s → ConfigLegal (currentConfig s) → InImem s s.srcAddr s.srcLen.toNat →
    TreeFits s.config (leafCount s.srcLen.toNat (currentConfig s).leaf.toNat) →
    TreeEnds (currentConfig s) s.srcLen.toNat →
    ∃ dg, treeHash (s.config.algoFor (currentConfig s).bits) (currentConfig s) (imemBytes s s.srcAddr.toNat s.srcLen.toNat) = some dg
      ∧ dg.length = digestBytes (currentConfig s).bits
      ∧ exec .tree s = .next { s with
          cmdCount := s.cmdCount + 1
          done := true
          matched := false
          out := digestWords dg
          outLen := digestLen (currentConfig s).bits }

/-- 46_verify_system.md section on VERIFY: VERIFY, in every mode, ends; MATCH is 1 exactly when the digest equals the
expected bytes; OUT and OUT_LEN are zeroed; nothing else changes. The digest runs with the parameters of its size's
security mode (DEDUCED, log 2). -/
def Obligations.VerifySetsMatch : Prop :=
  ∀ s : State, Ready s → ConfigLegal (currentConfig s) → InImem s s.srcAddr s.srcLen.toNat →
    InImem s s.expAddr (digestBytes (currentConfig s).bits) →
    ((currentConfig s).mode = modeTree →
      TreeFits s.config (leafCount s.srcLen.toNat (currentConfig s).leaf.toNat)) →
    HashEnds (currentConfig s) s.srcLen.toNat →
    ∃ dg m, hashDigest (s.config.algoFor (currentConfig s).bits) (currentConfig s) (imemBytes s s.srcAddr.toNat s.srcLen.toNat) = some dg
      ∧ (m = true ↔ dg = imemBytes s s.expAddr.toNat (digestBytes (currentConfig s).bits))
      ∧ exec .verify s = .next { s with
          cmdCount := s.cmdCount + 1
          done := true
          matched := m
          out := zeroBlock
          outLen := 0 }

/-- 44_mac.md section on MAC: MAC writes the keyed digest (the configuration pass, the key under tag 43, the message
under tag 48, the output transform) and changes nothing else, in every mode. The digest runs with the parameters of
its size's security mode (DEDUCED, log 2). -/
def Obligations.MacWritesDigest : Prop :=
  ∀ s : State, Ready s → ConfigLegal (currentConfig s) → InImem s s.keyAddr s.keyLen.toNat →
    InImem s s.srcAddr s.srcLen.toNat →
    let cfg := currentConfig s
    let A := s.config.algoFor cfg.bits
    exec .mac s = .next { s with
      cmdCount := s.cmdCount + 1
      done := true
      matched := false
      out := digestWords (finish A
        (ubi A (ubi A (postConfig A cfg cfg.mode) 43 (imemBytes s s.keyAddr.toNat s.keyLen.toNat)) 48
          (imemBytes s s.srcAddr.toNat s.srcLen.toNat)) cfg.bits)
      outLen := digestLen cfg.bits }

/-- 10_state.md section 2 (digest results): the words of OUT after a digest are the leading words of the final chaining
value, and zeros above the digest length; OUT_LEN is bits/8. The bytes of OUT are the digest's bytes and zeros. -/
def Obligations.DigestResultWords : Prop :=
  (∀ (G : Block) (bits : BitVec 16), bits.toNat ∈ digestSizes →
    digestLen bits = BitVec.ofNat 64 (bits.toNat / 8)
      ∧ ∀ i < 16, blockWord (digestWords (truncDigest G bits)) i = if i < bits.toNat / 64 then blockWord G i else 0)
    ∧ ∀ (dg : List Byte), dg.length ≤ 128 → ∀ i < 16, ∀ k < 8,
        (blockWord (digestWords dg) i >>> (8 * k)).setWidth 8 = dg.getD (8 * i + k) 0

/-- 43_dispatch_tree.md R185: HASH with CFG.MODE = 2 makes the same checks and computes the same digest as TREE: the
same state but for ERR_OPC when they raise. -/
def Obligations.HashInTreeModeIsTree : Prop :=
  ∀ s : State, (currentConfig s).mode = modeTree →
    (∀ t, exec .tree s = .next t → (t.err = s.err ∨ t.err = none) → exec .hash s = .next t)
      ∧ (∀ t c, s.err = none → exec .tree s = .next t → t.err = some { cause := c, opc := 0x31 } →
          exec .hash s = .next { t with err := some { cause := c, opc := 0x30 } })

/-- 46_verify_system.md (S3's verify_hash property): if HASH completes on a state and the expected bytes are the digest
it wrote, VERIFY on that state sets MATCH; if they are other bytes, it does not. -/
def Obligations.VerifyAgreesWithHash : Prop :=
  ∀ s t : State, Ready s → InImem s s.expAddr (digestBytes (currentConfig s).bits) →
    exec .hash s = .next t → t.busy = false → t.err = none →
    ∃ u, exec .verify s = .next u ∧ u.done = true ∧ u.err = none
      ∧ (u.matched = true ↔
          imemBytes s s.expAddr.toNat (digestBytes (currentConfig s).bits)
            = (ser t.out).take (digestBytes (currentConfig s).bits))

/-- 42_dispatch_seq_stream.md R160: every digest has bits/8 bytes. -/
def Obligations.DigestLengths : Prop :=
  ∀ (A : Algo) (cfg : CfgRec) (x : StreamCtx) (key msg : List Byte), cfg.bits.toNat ∈ digestSizes →
    x.bits = cfg.bits →
    (∀ mode, (hashSeq A cfg mode msg).length = cfg.bits.toNat / 8)
      ∧ (∀ dg, hashDigest A cfg msg = some dg → dg.length = cfg.bits.toNat / 8)
      ∧ (∀ dg, treeHash A cfg msg = some dg → dg.length = cfg.bits.toNat / 8)
      ∧ (macDigest A cfg key msg).length = cfg.bits.toNat / 8
      ∧ (streamDigest A x).length = cfg.bits.toNat / 8

/-- 43_dispatch_tree.md R187 (termination): with fan-out 1 the level loop never ends from a level of more than one node,
however many turns it is given; with a fan-out of 2 or more every non-empty level reaches one root, the same for every
number of turns that is at least the number of nodes. -/
def Obligations.TreeLoopTermination : Prop :=
  ∀ (A : Algo) (Gc : Block) (level : List Block),
    (1 < level.length → ∀ turns, treeRoot A Gc 1 turns level = none)
      ∧ (∀ fan, 2 ≤ fan → level ≠ [] →
          ∃ root, ∀ turns, level.length ≤ turns → treeRoot A Gc fan turns level = some root)

/-- 43_dispatch_tree.md section 3 (edge cases): a message of at most `L` bytes has its one leaf as the root, whatever
the fan-out; and when one group holds all leaves the root is one parent pass over them. -/
def Obligations.TreeSmallShapes : Prop :=
  ∀ (A : Algo) (cfg : CfgRec) (msg : List Byte), cfg.leaf ≠ 0 →
    (msg.length ≤ cfg.leaf.toNat →
      treeHash A cfg msg = some (truncDigest (ubi A (postConfig A cfg modeTree) tagTree msg) cfg.bits))
    ∧ (cfg.leaf.toNat < msg.length → leafCount msg.length cfg.leaf.toNat ≤ cfg.fan.toNat →
        treeHash A cfg msg = some (truncDigest
          (treeParent A (postConfig A cfg modeTree) (treeLeaves A (postConfig A cfg modeTree) cfg.leaf.toNat msg))
          cfg.bits))

/-- 43_dispatch_tree.md R187: with fan-out 1 and more than one leaf TREE, HASH and VERIFY in tree mode, MK_PUSH and
MK_ROOT under a frozen tree configuration never complete: CMD_COUNT is incremented, BUSY is 1, nothing else changes. That the state
is a next state with BUSY = 1 is the model's choice (log 4). -/
def Obligations.FanOutOneNeverCompletes : Prop :=
  ∀ s : State, Ready s →
    (ConfigLegal (currentConfig s) → InImem s s.srcAddr s.srcLen.toNat → (currentConfig s).fan = 1 →
      1 < leafCount s.srcLen.toNat (currentConfig s).leaf.toNat →
      TreeFits s.config (leafCount s.srcLen.toNat (currentConfig s).leaf.toNat) →
      exec .tree s = .next (running s)
        ∧ ((currentConfig s).mode = modeTree → exec .hash s = .next (running s))
        ∧ ((currentConfig s).mode = modeTree → InImem s s.expAddr (digestBytes (currentConfig s).bits) →
            exec .verify s = .next (running s)))
    ∧ (s.merkle.isOpen = true → InImem s s.srcAddr s.srcLen.toNat → NodeListHasRoom s → ConfigLegal s.merkle.cfg →
        s.merkle.cfg.mode = modeTree → s.merkle.cfg.fan = 1 → 1 < leafCount s.srcLen.toNat s.merkle.cfg.leaf.toNat →
        TreeFits s.config (leafCount s.srcLen.toNat s.merkle.cfg.leaf.toNat) →
        exec .mkPush s = .next (running s))
    ∧ (s.merkle.isOpen = true → ConfigLegal s.merkle.cfg → s.merkle.cfg.mode = modeTree → s.merkle.cfg.fan = 1 →
        1 < s.merkle.nodes.length → (∀ n ∈ s.merkle.nodes, n.length = digestBytes s.merkle.cfg.bits) → PairsFit s →
        1 < leafCount (2 * digestBytes s.merkle.cfg.bits) s.merkle.cfg.leaf.toNat →
        exec .mkRoot s = .next (running s))

/-- 43_dispatch_tree.md R187: BUSY stays 1 until reset: no step of a BUSY core but a reset answers a state that is not
BUSY, and until then no register the host can read of it, no session and no byte of IMEM changes. -/
def Obligations.BusyStaysUntilReset : Prop :=
  ∀ s t : State, s.busy = true → step s = .next t →
    (∃ rest, s.script = .reset :: rest ∧ t = resetState s.config (s.epoch + 1) rest)
      ∨ t = { s with script := t.script, answer := t.answer, busyReads := t.busyReads }

/-! ### The streaming session -/

/-- 42_dispatch_seq_stream.md section 3: S_INIT opens the context in every lifecycle state; OUT and all else stay. The
digest runs with the parameters of its size's security mode (DEDUCED, log 2). -/
def Obligations.SInitOpensContext : Prop :=
  ∀ s : State, Ready s → ConfigLegal (currentConfig s) →
    exec .sInit s = .next { s with
      cmdCount := s.cmdCount + 1
      done := true
      matched := false
      stream :=
        { phase := .opened
          sg := postConfig (s.config.algoFor (currentConfig s).bits) (currentConfig s) (currentConfig s).mode
          res := []
          pos := 0
          total := 0
          first := true
          bits := (currentConfig s).bits
          wipe := (currentConfig s).wipe } }

/-- 42_dispatch_seq_stream.md section 3: S_UPDATE on an open context completes and changes only the context; what it
absorbs keeps the bytes in order: while residual and chunk have at most 128 bytes they are only appended, and TOTAL
counts the chunk. The digest runs with the parameters of its size's security mode (DEDUCED, log 2). -/
def Obligations.SUpdateAbsorbsChunk : Prop :=
  ∀ s : State, Ready s → s.stream.phase = .opened → InImem s s.srcAddr s.srcLen.toNat →
    exec .sUpdate s = .next { s with
        cmdCount := s.cmdCount + 1
        done := true
        matched := false
        stream := absorb (s.config.algoFor s.stream.bits) s.stream (imemBytes s s.srcAddr.toNat s.srcLen.toNat) s.srcLen }
      ∧ (absorb (s.config.algoFor s.stream.bits) s.stream (imemBytes s s.srcAddr.toNat s.srcLen.toNat) s.srcLen).total
          = s.stream.total + s.srcLen
      ∧ (s.stream.res.length + s.srcLen.toNat ≤ 128 →
          absorb (s.config.algoFor s.stream.bits) s.stream (imemBytes s s.srcAddr.toNat s.srcLen.toNat) s.srcLen
            = { s.stream with
                res := s.stream.res ++ imemBytes s s.srcAddr.toNat s.srcLen.toNat
                total := s.stream.total + s.srcLen })

/-- 42_dispatch_seq_stream.md section 3: S_FINAL on an open context writes the digest of its residual as the FINAL
block and finalizes the context; nothing else changes. The digest runs with the parameters of its size's security mode
(DEDUCED, log 2). -/
def Obligations.SFinalWritesDigest : Prop :=
  ∀ s : State, Ready s → s.stream.phase = .opened → s.stream.res.length ≤ 128 →
    exec .sFinal s = .next { s with
      cmdCount := s.cmdCount + 1
      done := true
      matched := false
      out := digestWords (finish (s.config.algoFor s.stream.bits)
        (ubiBlock (s.config.algoFor s.stream.bits) s.stream.sg s.stream.res (s.stream.pos + BitVec.ofNat 64 s.stream.res.length)
          s.stream.first true tagMsg) s.stream.bits)
      outLen := digestLen s.stream.bits
      stream :=
        { phase := .finalized
          sg := zeroBlock
          res := []
          pos := 0
          total := 0
          first := true
          bits := s.stream.bits
          wipe := s.stream.wipe } }

/-- 42_dispatch_seq_stream.md R159: for every legal configuration and every list of chunks in IMEM (none, empty and
overlapping ones included), S_INIT, one S_UPDATE a chunk and S_FINAL leave in OUT the sequential digest of the chunks'
concatenation, in every mode. The host writes SRC_ADDR and SRC_LEN before each S_UPDATE. The digest runs with the
parameters of its size's security mode (DEDUCED, log 2). -/
def Obligations.StreamingEqualsSequential : Prop :=
  ∀ (s : State) (cs : List (Word × Word)) (rest : List HostAction),
    Ready s → ConfigLegal (currentConfig s) → (∀ c ∈ cs, InImem s c.1 c.2.toNat) →
    s.script = streamSession cs ++ rest →
    ∃ t, Host.Core.run Sys2Proof.core (streamSession cs).length s = .next t
      ∧ t.out = digestWords (hashSeq (s.config.algoFor (currentConfig s).bits) (currentConfig s) (currentConfig s).mode (cs.flatMap (chunkBytes s)))
      ∧ t.outLen = digestLen (currentConfig s).bits
      ∧ t.stream.phase = .finalized ∧ t.done = true ∧ t.err = none ∧ t.script = rest

/-- 10_state.md section 6: R33 as written holds after every command that starts with it, unless S_UPDATE wraps the
session's byte count. (The restriction is the model's reading, log 17: R33's two equivalences cannot hold once a
counter has wrapped.) -/
def Obligations.StreamExactUntilWrap : Prop :=
  ∀ (i : Instr) (s t : State), (s.stream.phase = .opened → StreamExact s.stream) →
    (i = .sUpdate → s.stream.total.toNat + s.srcLen.toNat < 2 ^ 64) →
    exec i s = .next t → t.stream.phase = .opened → StreamExact t.stream

/-! ### The Merkle session -/

/-- 10_state.md section 5, 42_dispatch_seq_stream.md section 1, 45_merkle.md section on MK_BEGIN. The configuration a
command reads is, field by field, what the registers hold: bits 15:0, 17:16, 18, 19 and 23:20 of CFG, LEAF_SIZE,
FAN_OUT, PERS_LEN, and the first min(PERS_LEN, 104) bytes of PERS0..PERS12, least significant first. MK_BEGIN opens an
empty list and freezes exactly that configuration, whether or not a session is open; nothing else changes. -/
def Obligations.MkBeginFreezesConfig : Prop :=
  ∀ s : State, ∃ pers : List Byte,
    let cfg : CfgRec :=
      { bits := (readReg s 0x02).extractLsb' 0 16
        mode := (readReg s 0x02).extractLsb' 16 2
        wipe := (readReg s 0x02).getLsbD 18
        strict := (readReg s 0x02).getLsbD 19
        xform := (readReg s 0x02).extractLsb' 20 4
        leaf := readReg s 0x03
        fan := readReg s 0x04
        plen := readReg s 0x05
        pers := pers }
    pers.length = min (readReg s 0x05).toNat 104
      ∧ (∀ k < min (readReg s 0x05).toNat 104,
          pers[k]? = some ((readReg s (0x20 + k / 8) >>> (8 * (k % 8))).setWidth 8))
      ∧ currentConfig s = cfg
      ∧ (Ready s → ConfigLegal cfg → exec .mkBegin s = .next { s with
          cmdCount := s.cmdCount + 1
          done := true
          matched := false
          merkle := { isOpen := true, cfg := cfg, nodes := [] } })

/-- 45_merkle.md section on MK_PUSH: MK_PUSH, in every frozen mode, ends and appends the digest of the transaction;
MK_COUNT goes up by one; nothing else changes. The digest runs with the parameters of its size's security mode
(DEDUCED, log 2). -/
def Obligations.MkPushAppendsDigest : Prop :=
  ∀ s : State, Ready s → s.merkle.isOpen = true → ConfigLegal s.merkle.cfg →
    InImem s s.srcAddr s.srcLen.toNat → NodeListHasRoom s →
    (s.merkle.cfg.mode = modeTree → TreeFits s.config (leafCount s.srcLen.toNat s.merkle.cfg.leaf.toNat)) →
    HashEnds s.merkle.cfg s.srcLen.toNat →
    ∃ h t, hashDigest (s.config.algoFor s.merkle.cfg.bits) s.merkle.cfg (imemBytes s s.srcAddr.toNat s.srcLen.toNat) = some h
      ∧ t = { s with
          cmdCount := s.cmdCount + 1
          done := true
          matched := false
          merkle := { s.merkle with nodes := s.merkle.nodes ++ [h] } }
      ∧ exec .mkPush s = .next t ∧ readReg t 0x0F = readReg s 0x0F + 1

/-- 45_merkle.md section on MK_ROOT: MK_ROOT over a non-empty list of digests, in every frozen mode, ends, writes the
root and closes the session; nothing else changes. The digest runs with the parameters of its size's security mode
(DEDUCED, log 2). -/
def Obligations.MkRootWritesRoot : Prop :=
  ∀ s : State, Ready s → s.merkle.isOpen = true → ConfigLegal s.merkle.cfg → s.merkle.nodes ≠ [] →
    (∀ n ∈ s.merkle.nodes, n.length = digestBytes s.merkle.cfg.bits) → PairsFit s →
    (s.merkle.cfg.mode = modeTree → 1 < s.merkle.nodes.length →
      TreeEnds s.merkle.cfg (2 * digestBytes s.merkle.cfg.bits)) →
    ∃ root, merkleReduce (s.config.algoFor s.merkle.cfg.bits) s.merkle.cfg s.merkle.nodes = some root
      ∧ root.length = digestBytes s.merkle.cfg.bits
      ∧ exec .mkRoot s = .next { s with
          cmdCount := s.cmdCount + 1
          done := true
          matched := false
          out := digestWords root
          outLen := digestLen s.merkle.cfg.bits
          merkle := resetMerkle }

/-- 45_merkle.md section on the contract: MK_BEGIN, one MK_PUSH a transaction and MK_ROOT leave in OUT the reduction
of the transactions' digests under the configuration at MK_BEGIN, for every non-empty list in IMEM that the capacities
admit and whose hashes end. The digest runs with the parameters of its size's security mode (DEDUCED, log 2). -/
def Obligations.MerkleSessionComputesRoot : Prop :=
  ∀ (s : State) (txs : List (Word × Word)) (hs : List (List Byte)) (rest : List HostAction),
    Ready s → ConfigLegal (currentConfig s) → txs ≠ [] → (∀ c ∈ txs, InImem s c.1 c.2.toNat) →
    (∀ m, s.config.mkMax = some m → txs.length ≤ m) →
    ((currentConfig s).mode = modeTree → ∀ c ∈ txs,
      TreeFits s.config (leafCount c.2.toNat (currentConfig s).leaf.toNat)) →
    ((currentConfig s).mode = modeTree → 1 < txs.length →
      TreeFits s.config (ceilDiv (2 * digestBytes (currentConfig s).bits) (currentConfig s).leaf.toNat)
        ∧ TreeEnds (currentConfig s) (2 * digestBytes (currentConfig s).bits)) →
    txs.map (fun c => hashDigest (s.config.algoFor (currentConfig s).bits) (currentConfig s) (chunkBytes s c)) = hs.map some →
    s.script = merkleSession txs ++ rest →
    ∃ t root, Host.Core.run Sys2Proof.core (merkleSession txs).length s = .next t
      ∧ merkleReduce (s.config.algoFor (currentConfig s).bits) (currentConfig s) hs = some root
      ∧ t.out = digestWords root ∧ t.outLen = digestLen (currentConfig s).bits
      ∧ t.merkle = resetMerkle ∧ t.done = true ∧ t.err = none ∧ t.script = rest

/-- 45_merkle.md section on the reduction, with the pinned policy, in every mode. One turn of it, on any level: node `j`
of the next level is the hash of nodes `2j` and `2j + 1`, an odd last node goes up unchanged, and the turn ends when
every pair hash does. A list of one node is its own root, a longer one has the root of its next level, and none when a
pair hash does not end. So in the sequential modes three nodes give `hash(hash(h0 || h1) || h2)`. -/
def Obligations.MerkleOddNodeIsCarriedUp : Prop :=
  ∀ (A : Algo) (cfg : CfgRec) (level : List (List Byte)), A.oddNode = .carryUp →
    let pairHash := fun j => hashDigest A cfg (level.getD (2 * j) [] ++ level.getD (2 * j + 1) [])
    (∀ next, merkleLevel A cfg level = some next →
      next.length = (level.length + 1) / 2
        ∧ (∀ j, 2 * j + 1 < level.length → next[j]? = pairHash j)
        ∧ (level.length % 2 = 1 → next.getLast? = level.getLast?)
        ∧ (1 < level.length → merkleReduce A cfg level = merkleReduce A cfg next))
      ∧ ((∀ j, 2 * j + 1 < level.length → (pairHash j).isSome = true) → ∃ next, merkleLevel A cfg level = some next)
      ∧ (∀ j, 2 * j + 1 < level.length → pairHash j = none → merkleReduce A cfg level = none)
      ∧ ∀ h0 h1 h2 : List Byte,
          merkleReduce A cfg [h0] = some h0
            ∧ (cfg.mode ≠ modeTree →
              merkleReduce A cfg [h0, h1] = some (hashSeq A cfg cfg.mode (h0 ++ h1))
                ∧ merkleReduce A cfg [h0, h1, h2]
                  = some (hashSeq A cfg cfg.mode (hashSeq A cfg cfg.mode (h0 ++ h1) ++ h2)))

/-! ### Errors -/

/-- 42_dispatch_seq_stream.md section 1 (validation): each of the six commands that read the configuration raises the
cause of the first failing check, whatever its operands are. The legal sizes are 256, 512 and 1024, the longest
personalization in STRICT mode is 104 bytes, and a configuration is legal exactly when no check fails. -/
def Obligations.ConfigErrorsRaiseInOrder : Prop :=
  digestSizes = [256, 512, 1024] ∧ persMax = 104 ∧ (∀ cfg, ConfigLegal cfg ↔ firstConfigError cfg = none)
  ∧ ∀ (s : State) (i : Instr) (c : Cause), Ready s →
    i ∈ [Instr.hash, .tree, .verify, .mac, .sInit, .mkBegin] →
    firstConfigError (currentConfig s) = some c →
    exec i s = .next (raised s i.opc c)

/-- 20_memory.md section 1 (range check): a command with an operand outside IMEM, whose earlier checks pass, raises
ADDR_RANGE and changes nothing else; an empty operand is checked too. An operand lies inside IMEM when its address
plus its length, computed without wrap-around, is at most IMEM_SIZE. -/
def Obligations.OperandOutsideImemRaises : Prop :=
  (∀ (s : State) (addr : Word) (n : Nat), InImem s addr n ↔ addr.toNat + n ≤ s.config.imemSize)
  ∧ ∀ s : State, Ready s →
    (¬ (InImem s s.keyAddr 128 ∧ InImem s s.srcAddr 128) →
      exec .enc s = .next (raised s 0x10 .addrRange) ∧ exec .dec s = .next (raised s 0x11 .addrRange))
    ∧ (¬ (InImem s s.keyAddr 128 ∧ InImem s s.srcAddr s.srcLen.toNat) →
        ∀ d, exec (.ubi d) s = .next (raised s 0x20 .addrRange))
    ∧ (ConfigLegal (currentConfig s) → ¬ InImem s s.srcAddr s.srcLen.toNat →
        exec .hash s = .next (raised s 0x30 .addrRange) ∧ exec .tree s = .next (raised s 0x31 .addrRange))
    ∧ (ConfigLegal (currentConfig s) →
        ¬ (InImem s s.srcAddr s.srcLen.toNat ∧ InImem s s.expAddr (digestBytes (currentConfig s).bits)) →
        exec .verify s = .next (raised s 0x32 .addrRange))
    ∧ (ConfigLegal (currentConfig s) →
        ¬ (InImem s s.keyAddr s.keyLen.toNat ∧ InImem s s.srcAddr s.srcLen.toNat) →
        exec .mac s = .next (raised s 0x40 .addrRange))
    ∧ (s.stream.phase = .opened → ¬ InImem s s.srcAddr s.srcLen.toNat →
        exec .sUpdate s = .next (raised s 0x39 .addrRange))
    ∧ (s.merkle.isOpen = true → ¬ InImem s s.srcAddr s.srcLen.toNat →
        exec .mkPush s = .next (raised s 0x51 .addrRange))

/-- 60_exceptions.md section 2 (session state): the session commands on a session that is not in the right state raise
before anything else is looked at. -/
def Obligations.SessionStateErrors : Prop :=
  ∀ s : State, Ready s →
    (s.stream.phase ≠ .opened → exec .sUpdate s = .next (raised s 0x39 .streamNotOpen))
    ∧ (s.stream.phase = .finalized → exec .sFinal s = .next (raised s 0x3A .finalizeTwice))
    ∧ (s.stream.phase = .empty → exec .sFinal s = .next (raised s 0x3A .streamNotOpen))
    ∧ (s.merkle.isOpen = false → exec .mkPush s = .next (raised s 0x51 .merkleNotOpen)
        ∧ exec .mkRoot s = .next (raised s 0x52 .merkleNotOpen))
    ∧ (s.merkle.isOpen = true → s.merkle.nodes = [] → exec .mkRoot s = .next (raised s 0x52 .merkleEmpty))

/-- 60_exceptions.md section 2 (capacity): the last check: a full node list or a tree that does not fit the arena raises
CAPACITY. A message of `len` bytes has max(1, ceil(len / L)) leaves; a tree of more leaves than TREE_NODE_MAX does not
fit, a list of MK_MAX nodes is full, and a pair of digests under a tree configuration has ceil(2 · bits/8 / L) leaves;
either parameter may be unbounded. -/
def Obligations.CapacityErrors : Prop :=
  (∀ len leaf : Nat, leafCount len leaf = max 1 ((len + leaf - 1) / leaf))
  ∧ (∀ (c : Config) (n : Nat), ¬ TreeFits c n ↔ ∃ m, c.treeNodeMax = some m ∧ m < n)
  ∧ (∀ s : State, ¬ NodeListHasRoom s ↔ s.config.mkMax = some s.merkle.nodes.length)
  ∧ (∀ s : State, ¬ PairsFit s ↔ s.merkle.cfg.mode = 2 ∧ 1 < s.merkle.nodes.length
      ∧ ¬ TreeFits s.config
        ((2 * (s.merkle.cfg.bits.toNat / 8) + s.merkle.cfg.leaf.toNat - 1) / s.merkle.cfg.leaf.toNat))
  ∧ ∀ s : State, Ready s →
    (ConfigLegal (currentConfig s) → InImem s s.srcAddr s.srcLen.toNat →
      ¬ TreeFits s.config (leafCount s.srcLen.toNat (currentConfig s).leaf.toNat) →
      exec .tree s = .next (raised s 0x31 .capacity)
        ∧ ((currentConfig s).mode = modeTree → exec .hash s = .next (raised s 0x30 .capacity))
        ∧ ((currentConfig s).mode = modeTree → InImem s s.expAddr (digestBytes (currentConfig s).bits) →
            exec .verify s = .next (raised s 0x32 .capacity)))
    ∧ (s.merkle.isOpen = true → InImem s s.srcAddr s.srcLen.toNat →
        (¬ NodeListHasRoom s ∨ (s.merkle.cfg.mode = modeTree
          ∧ ¬ TreeFits s.config (leafCount s.srcLen.toNat s.merkle.cfg.leaf.toNat))) →
        exec .mkPush s = .next (raised s 0x51 .capacity))
    ∧ (s.merkle.isOpen = true → s.merkle.nodes ≠ [] → ¬ PairsFit s →
        exec .mkRoot s = .next (raised s 0x52 .capacity))

/-- 60_exceptions.md R241: errors are precise: whatever command leaves an error that was not pending before it has
changed nothing but CMD_COUNT and the STATUS fields of the error, and records its own opcode; so has whatever word
the host writes to CMD, legal or not. -/
def Obligations.ErrorsArePrecise : Prop :=
  ∀ (s t : State) (e : ErrorRecord), s.err = none → t.err = some e →
    (∀ i : Instr, exec i s = .next t → t = raised s i.opc e.cause)
      ∧ (∀ (w : Word) (rest : List HostAction), s.script = issueAccess w :: rest → step s = .next t →
          t = raised { s with script := rest } (w.extractLsb' 0 8) e.cause)

/-- 60_exceptions.md R237: which causes each command can record. -/
def Obligations.CausesPerCommand : Prop :=
  ∀ (i : Instr) (s t : State) (e : ErrorRecord), s.err = none → exec i s = .next t → t.err = some e →
    s.stream.res.length ≤ 128 →
    match i with
    | .nop | .clrerr | .wipe => False
    | .enc | .dec | .ubi _ => e.cause = .addrRange
    | .hash | .verify =>
      causeKind e.cause = .invalidConfig ∨ e.cause = .addrRange
        ∨ (e.cause = .capacity ∧ (currentConfig s).mode = modeTree)
    | .tree => causeKind e.cause = .invalidConfig ∨ e.cause = .addrRange ∨ e.cause = .capacity
    | .mac => causeKind e.cause = .invalidConfig ∨ e.cause = .addrRange
    | .sInit | .mkBegin => causeKind e.cause = .invalidConfig
    | .sUpdate => e.cause = .streamNotOpen ∨ e.cause = .addrRange
    | .sFinal => e.cause = .finalizeTwice ∨ e.cause = .streamNotOpen
    | .mkPush => e.cause = .merkleNotOpen ∨ e.cause = .addrRange ∨ e.cause = .capacity
    | .mkRoot => e.cause = .merkleNotOpen ∨ e.cause = .merkleEmpty ∨ e.cause = .capacity

/-- 60_exceptions.md section 1 and 10_state.md section 4, with the numbers printed there: the fields of the STATUS word
are the flags, the mirrors and the error record; BUSY is bit 0 and every reserved bit is 0 at any time. -/
def Obligations.StatusFields : Prop :=
  ∀ s : State,
    let w := readReg s 0x01
    (w.getLsbD 0 = s.busy ∧ w.extractLsb' 6 2 = 0 ∧ w.extractLsb' 10 6 = 0 ∧ w.extractLsb' 32 32 = 0)
      ∧ (s.busy = false →
        w.getLsbD 1 = s.done ∧ w.getLsbD 2 = s.matched
          ∧ w.extractLsb' 3 2 = (match s.stream.phase with | .empty => 0 | .opened => 1 | .finalized => 2)
          ∧ w.getLsbD 5 = s.merkle.isOpen
          ∧ (s.err = none → w.extractLsb' 8 2 = 0 ∧ w.extractLsb' 16 8 = 0 ∧ w.extractLsb' 24 8 = 0)
          ∧ (∀ e, s.err = some e → w.extractLsb' 24 8 = e.opc
              ∧ (w.extractLsb' 8 2, w.extractLsb' 16 8) =
                (match e.cause with
                | .fanoutZero => (1, 0x01)
                | .sizeNotMult8 => (1, 0x02)
                | .sizeUnknown => (1, 0x03)
                | .persTooLong => (1, 0x04)
                | .leafZero => (1, 0x05)
                | .modeReserved => (1, 0x06)
                | .xformUnsupported => (1, 0x07)
                | .finalizeTwice => (2, 0x20)
                | .merkleEmpty => (2, 0x21)
                | .streamNotOpen => (2, 0x22)
                | .merkleNotOpen => (2, 0x23)
                | .illegalCmd => (2, 0x24)
                | .addrRange => (2, 0x25)
                | .capacity => (2, 0x26)
                | .ubiBlockOversize => ((3, 0x40) : BitVec 2 × BitVec 8))))

/-! ### Frames over all commands -/

/-- 20_memory.md R61 and 10_state.md sections 2 and 5: no command writes a byte of IMEM, an address or length register,
CFG or a tree register; only WIPE writes the tweak and personalization registers; no command touches the parameters,
the host's script or the bus answer. -/
def Obligations.CommandsLeaveHostStateAlone : Prop :=
  ∀ (i : Instr) (s t : State), exec i s = .next t →
    t.imem = s.imem ∧ (∀ a, imemByte t a = imemByte s a)
      ∧ t.cfg = s.cfg ∧ t.leafSize = s.leafSize ∧ t.fanOut = s.fanOut
      ∧ t.srcAddr = s.srcAddr ∧ t.srcLen = s.srcLen ∧ t.keyAddr = s.keyAddr ∧ t.keyLen = s.keyLen
      ∧ t.expAddr = s.expAddr ∧ t.config = s.config ∧ t.epoch = s.epoch ∧ t.busyReads = s.busyReads
      ∧ t.script = s.script ∧ t.answer = s.answer
      ∧ (i ≠ .wipe → t.twk0 = s.twk0 ∧ t.twk1 = s.twk1 ∧ t.twk2 = s.twk2 ∧ t.persLen = s.persLen ∧ t.pers = s.pers)

/-- 10_state.md sections 2 and 6: only the result commands, VERIFY and WIPE write OUT and OUT_LEN; only S_INIT, S_UPDATE,
S_FINAL and WIPE write the streaming context; only MK_BEGIN, MK_PUSH, MK_ROOT and WIPE write the Merkle list. -/
def Obligations.OnlyListedCommandsWrite : Prop :=
  ∀ (i : Instr) (s t : State), exec i s = .next t →
    (i ∈ [Instr.nop, .clrerr, .sInit, .sUpdate, .mkBegin, .mkPush] → t.out = s.out ∧ t.outLen = s.outLen)
      ∧ (i ∉ [Instr.sInit, .sUpdate, .sFinal, .wipe] → t.stream = s.stream)
      ∧ (i ∉ [Instr.mkBegin, .mkPush, .mkRoot, .wipe] → t.merkle = s.merkle)

/-- 10_state.md R24: every CMD write that the core takes counts, whatever becomes of the command, and the count wraps
modulo 2^64. -/
def Obligations.EveryCommandWriteCounts : Prop :=
  ∀ (s t : State) (w : Word) (rest : List HostAction), s.script = issueAccess w :: rest → step s = .next t →
    t.cmdCount = s.cmdCount + 1

/-- 46_verify_system.md R224: no result depends on MEM_WIPE: a command on a state with every copy of MEM_WIPE cleared
gives the outcome it gives on the state itself, but for those copies. -/
def Obligations.MemWipeHasNoEffect : Prop :=
  ∀ (i : Instr) (s : State), exec i (eraseWipe s) = eraseWipeResult (exec i s)

/-- 60_exceptions.md R244: no command raises InternalInvariant from a state that meets the invariant. -/
def Obligations.InternalInvariantIsUnreachable : Prop :=
  ∀ (i : Instr) (s t : State) (e : ErrorRecord), StreamInv s.stream → s.err = none → exec i s = .next t →
    t.err = some e → causeKind e.cause ≠ .internalInvariant

/-- The invariant of the machine (10_state.md R22, R33, R34; 20_memory.md R60; 60_exceptions.md R244) is kept by every
step: every command, every host access, reset. -/
def Obligations.EveryStepKeepsInv : Prop :=
  ∀ s t : State, Inv s → step s = .next t → Inv t

/-- The invariant holds after reset, whatever the parameters, the number of resets and the host's script are. -/
def Obligations.ResetMeetsInv : Prop :=
  ∀ (c : Config) (epoch : Nat) (script : List HostAction), Inv (resetState c epoch script)

/-! ### Reset and the host's accesses -/

/-- 70_reset_and_hazards.md section 1 and 10_state.md section 8: reset may be applied at any time, also while a command
runs; every register then reads 0 but LEAF_SIZE 1024 and FAN_OUT 8, both sessions have their reset values, no IMEM byte
is listed. That the parameters and the rest of the host's script stay is the model's choice (log 7). -/
def Obligations.ResetGivesResetValues : Prop :=
  ∀ (s : State) (rest : List HostAction), s.script = .reset :: rest →
    ∃ t, step s = .next t ∧ t.script = rest ∧ t.config = s.config
      ∧ (∀ idx, readReg t idx = if idx = 0x03 then 1024 else if idx = 0x04 then 8 else 0)
      ∧ t.stream = { phase := .empty, sg := blockOf fun _ => 0, res := [], pos := 0, total := 0, first := true,
                     bits := 0, wipe := false }
      ∧ t.merkle = { isOpen := false
                     cfg := { bits := 0, mode := 0, wipe := false, strict := false, xform := 0, leaf := 0, fan := 0,
                              plen := 0, pers := [] }
                     nodes := [] }
      ∧ (∀ a, memRead t.imem a = none)

/-- 10_state.md sections 1 and 5: on a core that is not BUSY, with or without an error pending, the step takes a host
write to a register other than CMD. It changes that register's read value only, as its access type says: read-write
registers take the word (CFG its bits 23:0), read-only and reserved ones ignore it. Each index of the register map
writes the state its name in 10_state.md R21 says, the one the commands read. Nothing else of the state changes: no
other register, no flag or error, no field of either session, no byte of IMEM, no parameter. -/
def Obligations.RegisterWriteThenRead : Prop :=
  ∀ (s : State) (rest : List HostAction) (idx : Nat) (v : Word), idx ≠ 0 → s.busy = false →
    s.script = .writeReg 8 idx v :: rest →
    ∃ t, step s = .next t
      ∧ readReg t idx
        = (if idx = 0x02 then v &&& 0xFFFFFF
           else if (0x03 ≤ idx ∧ idx ≤ 0x0D) ∨ (0x20 ≤ idx ∧ idx ≤ 0x2C) then v
           else readReg s idx)
      ∧ (∀ j, j ≠ idx → readReg t j = readReg s j)
      ∧ t = { s with
          script := rest
          cfg := if idx = 0x02 then v.setWidth 24 else s.cfg
          leafSize := if idx = 0x03 then v else s.leafSize
          fanOut := if idx = 0x04 then v else s.fanOut
          persLen := if idx = 0x05 then v else s.persLen
          srcAddr := if idx = 0x06 then v else s.srcAddr
          srcLen := if idx = 0x07 then v else s.srcLen
          keyAddr := if idx = 0x08 then v else s.keyAddr
          keyLen := if idx = 0x09 then v else s.keyLen
          expAddr := if idx = 0x0A then v else s.expAddr
          twk0 := if idx = 0x0B then v else s.twk0
          twk1 := if idx = 0x0C then v else s.twk1
          twk2 := if idx = 0x0D then v else s.twk2
          pers := Vector.ofFn fun k : Fin 13 => if idx = 0x20 + k.val then v else s.pers[k] }
      ∧ ((idx = 0x01 ∨ 0x0E ≤ idx ∧ idx ≤ 0x1F ∨ 0x2D ≤ idx) → t = { s with script := rest })

/-- 10_state.md R31: CMD and every register index from 0x2E up read 0, and a write to a reserved index changes
nothing. -/
def Obligations.ReservedRegistersReadZero : Prop :=
  ∀ (s : State) (idx : Nat) (v : Word), 0x2E ≤ idx →
    readReg s idx = 0 ∧ readReg s 0 = 0 ∧ writeReg s idx v = s

/-- 10_state.md section 5 and 20_memory.md section 3: on a core that is not BUSY a host read of a register, and one of 1,
2, 4 or 8 bytes inside IMEM, is answered, IMEM bytes least significant first and zeros above them. Whatever host read
is answered changes nothing of the core: only the script advances, the bus answer is the value read, and a STATUS read
while BUSY, and no other read, takes the next free value (log 5). Each index of the register map of 10_state.md R21
reads the state its name says, the one the commands read and write (STATUS: `StatusFields`; CMD and reserved indexes:
`ReservedRegistersReadZero`). When the host makes no access the core holds its whole state (60_exceptions.md R250,
70_reset_and_hazards.md R261); that this is a step to the same state is the model's choice (log 7). -/
def Obligations.HostReadsHaveNoSideEffect : Prop :=
  ∀ (s : State) (rest : List HostAction) (width k : Nat),
    (s.script = [] → step s = .next s)
    ∧ (readReg s 0x02 = s.cfg.setWidth 64 ∧ readReg s 0x03 = s.leafSize ∧ readReg s 0x04 = s.fanOut
      ∧ readReg s 0x05 = s.persLen ∧ readReg s 0x06 = s.srcAddr ∧ readReg s 0x07 = s.srcLen
      ∧ readReg s 0x08 = s.keyAddr ∧ readReg s 0x09 = s.keyLen ∧ readReg s 0x0A = s.expAddr
      ∧ readReg s 0x0B = s.twk0 ∧ readReg s 0x0C = s.twk1 ∧ readReg s 0x0D = s.twk2
      ∧ readReg s 0x0E = s.outLen ∧ readReg s 0x0F = BitVec.ofNat 64 s.merkle.nodes.length
      ∧ (∀ i < 16, readReg s (0x10 + i) = blockWord s.out i)
      ∧ (∀ i : Fin 13, readReg s (0x20 + i.val) = s.pers[i])
      ∧ readReg s 0x2D = s.cmdCount)
    ∧ (s.busy = false → s.script = .readReg 8 k :: rest →
      step s = .next { s with script := rest, answer := some (readReg s k) })
    ∧ (s.busy = false → width ∈ [1, 2, 4, 8] → k + width ≤ s.config.imemSize → s.script = .readMem width k :: rest →
      ∃ v, step s = .next { s with script := rest, answer := some v }
        ∧ ∀ j < 8, (v >>> (8 * j)).setWidth 8 = if j < width then imemByte s (k + j) else 0)
    ∧ (∀ t, s.script = .readReg width k :: rest → step s = .next t →
      width = 8 ∧ t = { s with
        script := rest
        answer := some (readReg s k)
        busyReads := if s.busy = true ∧ k = 0x01 then s.busyReads + 1 else s.busyReads })
    ∧ (∀ t, s.script = .readMem width k :: rest → step s = .next t →
      width ∈ [1, 2, 4, 8] ∧ t = { s with script := rest, answer := some (le64 (imemBytes s k width)) })

/-- 20_memory.md R64, R66: a host write of 1, 2, 4 or 8 bytes at any address inside IMEM stores the value's bytes least
significant first and leaves every other byte alone; nothing else changes. An operand is its bytes, lowest address
first. -/
def Obligations.HostMemWriteIsLittleEndian : Prop :=
  ∀ (s : State) (rest : List HostAction) (width addr : Nat) (v : Word),
    s.busy = false → width ∈ [1, 2, 4, 8] → addr + width ≤ s.config.imemSize →
    s.script = .writeMem width addr v :: rest →
    ∃ t, step s = .next t
      ∧ t = { s with script := rest, imem := t.imem }
      ∧ (∀ k < width, imemByte t (addr + k) = (v >>> (8 * k)).setWidth 8)
      ∧ (∀ a, (a < addr ∨ addr + width ≤ a) → imemByte t a = imemByte s a)
      ∧ (∀ a n, imemBytes t a n = (List.range n).map fun k => imemByte t (a + k))

/-- 20_memory.md sections 3: a host access outside IMEM stops the machine with a bus error, and accesses of a width the
spec does not define are refused. -/
def Obligations.BadHostAccessesStop : Prop :=
  ∀ (s : State) (rest : List HostAction) (width addr : Nat) (v : Word), s.busy = false →
    (width ∈ [1, 2, 4, 8] → s.config.imemSize < addr + width →
      (s.script = .writeMem width addr v :: rest → step s = .fault .imemBusError)
        ∧ (s.script = .readMem width addr :: rest → step s = .fault .imemBusError))
    ∧ (width ∉ [1, 2, 4, 8] →
        (s.script = .writeMem width addr v :: rest → step s = .refused .imemWidth)
          ∧ (s.script = .readMem width addr :: rest → step s = .refused .imemWidth))
    ∧ (width ≠ 8 →
        (s.script = .writeReg width addr v :: rest → step s = .refused .registerWidth)
          ∧ (s.script = .readReg width addr :: rest → step s = .refused .registerWidth))

/-- 70_reset_and_hazards.md section 3 (BUSY): while BUSY is 1 a STATUS read shows it, and the accesses the contract
forbids (register and CMD writes, IMEM writes of every width, reads of results) are refused. BUSY as a state of the
machine, the free STATUS fields and the refusals are the model's form of it (logs 4, 5 and 6). -/
def Obligations.BusyContract : Prop :=
  ∀ (s : State) (rest : List HostAction) (idx addr : Nat) (v : Word), s.busy = true →
    (readReg s 0x01).getLsbD 0 = true
      ∧ (s.script = .writeReg 8 idx v :: rest → step s = .refused .accessWhileBusy)
      ∧ (∀ width ∈ [1, 2, 4, 8], s.script = .writeMem width addr v :: rest → step s = .refused .accessWhileBusy)
      ∧ (0x0E ≤ idx → idx ≤ 0x1F → s.script = .readReg 8 idx :: rest → step s = .refused .accessWhileBusy)
      ∧ (s.script = .readReg 8 0x01 :: rest →
          ∃ t, step s = .next t ∧ t.answer = some (readReg s 0x01) ∧ t.busyReads = s.busyReads + 1)

/-! ### What the digests are made of -/

/-- 42_dispatch_seq_stream.md sections 1 and 2, 43_dispatch_tree.md section 1, 44_mac.md: the passes each digest is made
of, with their domain tags: the 128-byte configuration block (magic, digest bits, mode tag, personalization padded with
zeros) under tag 28 from the zero chaining value, messages under 48, keys under 43, leaves and parents under 64, and
the output transform under 63 over no data, cut to bits/8 bytes. The leaves of a tree are the consecutive `L` bytes of
the message, the last one what is left; a level's groups are its consecutive `F` nodes, the last one what is left; the
root of several nodes is the root of their next level; and the tree digest is the root cut to bits/8 bytes. Blocks and
byte strings are each other's little-endian words (00_scope.md section 4, 20_memory.md section 2). -/
def Obligations.DigestsRunTheirPasses : Prop :=
  ∀ (A : Algo) (cfg : CfgRec) (mode : BitVec 2) (key msg : List Byte) (G : Block),
    cfg.pers.length ≤ 104 → A.modeTag = [0, 1, 2] → mode ≠ 3 →
    (configBlock A cfg mode = serWord 0x0133414853 ++ serWord (cfg.bits.setWidth 64) ++ serWord (mode.setWidth 64)
        ++ cfg.pers ++ List.replicate (104 - cfg.pers.length) 0
      ∧ (configBlock A cfg mode).length = 128
      ∧ postConfig A cfg mode = ubi A (blockOf fun _ => 0) 28 (configBlock A cfg mode)
      ∧ finish A G cfg.bits = (ser (ubi A G 63 [])).take (cfg.bits.toNat / 8)
      ∧ hashSeq A cfg mode msg = finish A (ubi A (postConfig A cfg mode) 48 msg) cfg.bits
      ∧ macDigest A cfg key msg = finish A (ubi A (ubi A (postConfig A cfg cfg.mode) 43 key) 48 msg) cfg.bits)
    ∧ (treeLeaves A G cfg.leaf.toNat [] = [ubi A G 64 []]
      ∧ (msg ≠ [] → msg.length ≤ cfg.leaf.toNat → treeLeaves A G cfg.leaf.toNat msg = [ubi A G 64 msg])
      ∧ (∀ b rest, b.length = cfg.leaf.toNat → b ≠ [] → rest ≠ [] →
          treeLeaves A G cfg.leaf.toNat (b ++ rest) = ubi A G 64 b :: treeLeaves A G cfg.leaf.toNat rest))
    ∧ (∀ (fan : Nat) (group rest : List Block), group ≠ [] →
        treeLevel A G fan [] = []
          ∧ (group.length ≤ fan → treeLevel A G fan group = [ubi A G 64 (group.flatMap ser)])
          ∧ (group.length = fan →
              treeLevel A G fan (group ++ rest) = ubi A G 64 (group.flatMap ser) :: treeLevel A G fan rest))
    ∧ (∀ (fan turns : Nat) (root : Block) (level : List Block),
        treeRoot A G fan turns [root] = some root
          ∧ (1 < level.length → treeRoot A G fan 0 level = none
              ∧ treeRoot A G fan (turns + 1) level = treeRoot A G fan turns (treeLevel A G fan level)))
    ∧ (let leaves := treeLeaves A (postConfig A cfg 2) cfg.leaf.toNat msg
       treeHash A cfg msg = (treeRoot A (postConfig A cfg 2) cfg.fan.toNat leaves.length leaves).map fun root =>
         (ser root).take (cfg.bits.toNat / 8))
    ∧ hashDigest A cfg msg = (if cfg.mode = 2 then treeHash A cfg msg else some (hashSeq A cfg cfg.mode msg))
    ∧ (∀ i < 16, ∀ k < 8,
        (ser G)[8 * i + k]? = some ((blockWord G i >>> (8 * k)).setWidth 8)
          ∧ (blockWord (words msg) i >>> (8 * k)).setWidth 8 = msg.getD (8 * i + k) 0)
end

