-- ==== Sys2Proof/Laws/Block.lean ====
section
/-! SUPPORT. Blocks, words and byte strings: a block is its sixteen words, serialization and its inverse, lengths. -/

namespace Sys2Proof.Machine

theorem blockWord_blockOf (f : Nat → Word) (i : Nat) : blockWord (blockOf f) i = if i < 16 then f i else 0 := by
  unfold blockWord blockOf
  split_ifs with h <;> simp [h]

@[simp] theorem blockWord_blockOf_lt (f : Nat → Word) (i : Nat) (h : i < 16) : blockWord (blockOf f) i = f i := by
  rw [blockWord_blockOf, if_pos h]

/-- A block is its words. -/
theorem block_ext (u v : Block) (h : ∀ i < 16, blockWord u i = blockWord v i) : u = v := by
  refine Vector.ext fun i hi => ?_
  simpa [blockWord, hi] using h i hi

@[simp] theorem blockWord_zeroBlock (i : Nat) : blockWord zeroBlock i = 0 := by
  unfold zeroBlock; rw [blockWord_blockOf]; split_ifs <;> rfl

@[simp] theorem lowBytes_length (n : Nat) (w : Word) : (lowBytes n w).length = n := by simp [lowBytes]

@[simp] theorem serWord_length (w : Word) : (serWord w).length = 8 := by simp [serWord]

@[simp] theorem zeros_length (n : Nat) : (zeros n).length = n := by simp [zeros]

theorem zeroPad_length (n : Nat) (b : List Byte) : (zeroPad n b).length = max n b.length := by
  simp [zeroPad]; omega

theorem flatMap_serWord_length (l : List Word) : (l.flatMap serWord).length = 8 * l.length := by
  induction l with
  | nil => rfl
  | cons w l ih => simp only [List.flatMap_cons, List.length_append, serWord_length, ih, List.length_cons]; omega

/-- A serialized block has 128 bytes (00_scope.md R12). -/
@[simp] theorem ser_length (v : Block) : (ser v).length = 128 := by
  rw [ser, flatMap_serWord_length]; simp

/-- Reading back a serialized word (00_scope.md R12). -/
theorem le64_serWord (w : Word) : le64 (serWord w) = w := by
  have h : serWord w = [w.extractLsb' 0 8, w.extractLsb' 8 8, w.extractLsb' 16 8, w.extractLsb' 24 8,
      w.extractLsb' 32 8, w.extractLsb' 40 8, w.extractLsb' 48 8, w.extractLsb' 56 8] := rfl
  rw [h]
  simp only [le64]
  ext i hi
  simp only [BitVec.getElem_or, BitVec.getElem_setWidth, BitVec.getElem_shiftLeft,
    BitVec.getLsbD_extractLsb']
  interval_cases i <;> simp [← BitVec.getLsbD_eq_getElem]

/-- Byte `k` of a word read from at most eight bytes is the `k`-th of them, and 0 above them (20_memory.md R64). -/
theorem le64_byte (l : List Byte) (h : l.length ≤ 8) (k : Nat) (hk : k < 8) :
    ((le64 l) >>> (8 * k)).setWidth 8 = l.getD k 0 := by
  induction l generalizing k with
  | nil => simp [le64]
  | cons b l ih =>
    simp only [List.length_cons] at h
    rw [le64]
    cases k with
    | zero => ext i hi; simp [← BitVec.getLsbD_eq_getElem]
    | succ k =>
      rw [List.getD_cons_succ, ← ih (by omega) k (by omega)]
      ext i hi
      have hlow : ¬ (8 * (k + 1) + i < 8) := by omega
      have hhigh : 8 * (k + 1) + i < 64 := by omega
      have hb : b.getLsbD (8 * (k + 1) + i) = false := BitVec.getLsbD_of_ge _ _ (by omega)
      simp [← BitVec.getLsbD_eq_getElem, show 8 * (k + 1) + i - 8 = 8 * k + i by omega, hlow, hhigh, hb]

/-- Bytes `8i .. 8i+7` of serialized words are word `i`. -/
theorem flatMap_serWord_slice (l : List Word) (i : Nat) (h : i < l.length) :
    ((l.flatMap serWord).drop (8 * i)).take 8 = serWord l[i] := by
  induction l generalizing i with
  | nil => simp at h
  | cons w l ih =>
    cases i with
    | zero => simp [List.flatMap_cons]
    | succ i =>
      have e : 8 * (i + 1) = (serWord w).length + 8 * i := by simp; omega
      rw [List.flatMap_cons, e, List.drop_append, List.drop_eq_nil_of_le (by simp)]
      simpa using ih i (by simpa using h)

/-- `words` undoes `ser` (00_scope.md R12). -/
theorem words_ser (v : Block) : words (ser v) = v := by
  refine block_ext _ _ fun i hi => ?_
  have hl : i < v.toList.length := by simpa using hi
  rw [words, blockWord_blockOf_lt _ _ hi, ser, flatMap_serWord_slice _ _ hl, le64_serWord]
  simp [blockWord, hi]

/-- A word's bytes are the eight bytes it was made of. -/
theorem serWord_le64 (l : List Byte) (h : l.length = 8) : serWord (le64 l) = l := by
  match l, h with
  | [a, b, c, d, e, f, g, i], _ =>
    simp only [le64, serWord, lowBytes, List.range, List.range.loop, List.map_cons, List.map_nil, List.cons.injEq, and_true]
    refine ⟨?_, ?_, ?_, ?_, ?_, ?_, ?_, ?_⟩ <;> (ext k hk; simp [hk]; interval_cases k <;> simp)

/-- A byte string is the concatenation of its eight-byte pieces. -/
theorem flatMap_pieces (b : List Byte) (n : Nat) (h : b.length = 8 * n) :
    (List.range n).flatMap (fun i => (b.drop (8 * i)).take 8) = b := by
  induction n generalizing b with
  | zero => simp at h; simp [h]
  | succ n ih =>
    rw [List.range_succ_eq_map, List.flatMap_cons, List.flatMap_map]
    have hd : (b.drop 8).length = 8 * n := by simp; omega
    have := ih (b.drop 8) hd
    simp only [List.drop_drop] at this
    have e : (fun i => List.take 8 (List.drop (8 * Nat.succ i) b)) = fun i => List.take 8 (List.drop (8 + 8 * i) b) := by
      funext i; rw [Nat.succ_eq_add_one]; congr 2; omega
    rw [e, this]; simp

/-- A block made of 128 bytes serializes to them (00_scope.md R12). -/
theorem ser_words (b : List Byte) (h : b.length = 128) : ser (words b) = b := by
  have e : (words b).toList = (List.range 16).map fun i => le64 ((b.drop (8 * i)).take 8) := by
    simp only [words, blockOf, Vector.toList_ofFn]
    rw [List.ofFn_eq_map, ← List.map_coe_finRange_eq_range, List.map_map]
    rfl
  rw [ser, e, List.flatMap_map]
  have : ∀ i ∈ List.range 16, serWord (le64 ((b.drop (8 * i)).take 8)) = (b.drop (8 * i)).take 8 := by
    intro i hi
    apply serWord_le64
    simp at hi ⊢; omega
  rw [List.flatMap_congr this]
  exact flatMap_pieces b 16 (by omega)

end Sys2Proof.Machine
end

