-- ==== Sys2Proof/Laws/Cipher.lean ====
section
/-! SUPPORT. The cipher's parameters and its round: what a bijection on 0..15 gives, that rotation amounts are in
1..63, and what a MIX round and its inverse do to each pair, said once (40_cipher.md R104 to R106, R111). -/

namespace Sys2Proof.Machine

/-- Positions and values of a bijection on 0..15 determine each other. -/
theorem isPermutation16_spec (l : List Nat) (h : isPermutation16 l = true) :
    l.length = 16
      ∧ (∀ i < 16, l.idxOf i < 16 ∧ l.getD (l.idxOf i) 0 = i)
      ∧ (∀ k < 16, l.getD k 0 < 16 ∧ l.idxOf (l.getD k 0) = k) := by
  have hl : l.length = 16 ∧ ∀ i < 16, i ∈ l := by simpa [isPermutation16] using h
  obtain ⟨hl, hm⟩ := hl
  have hp : (List.range 16).Perm l :=
    (List.subperm_of_subset List.nodup_range fun i hi => hm i (by simpa using hi)).perm_of_length_le (by simp [hl])
  refine ⟨hl, fun i hi => ?_, fun k hk => ?_⟩
  · have hx := List.idxOf_lt_length_of_mem (hm i hi)
    exact ⟨by omega, by rw [List.getD_eq_getElem _ _ hx, List.getElem_idxOf]⟩
  · rw [List.getD_eq_getElem _ _ (by omega)]
    exact ⟨by simpa using hp.mem_iff.mpr (List.getElem_mem (by omega)),
      (hp.nodup_iff.mp List.nodup_range).idxOf_getElem _ _⟩

theorem Algo_wf_pairing (A : Algo) (h : A.wf = true) : isPermutation16 A.pairing = true := by
  simp [Algo.wf, Tables.wf] at h; tauto

theorem Algo_wf_pi (A : Algo) (h : A.wf = true) : isPermutation16 A.pi = true := by
  simp [Algo.wf, Tables.wf] at h; tauto

/-- Every rotation amount a round uses is in 1..63 (40_cipher.md R104). -/
theorem rotAmount_range (A : Algo) (h : A.wf = true) (r j : Nat) (hj : j < 8) :
    1 ≤ rotAmount A r j ∧ rotAmount A r j ≤ 63 := by
  simp [Algo.wf, Tables.wf] at h
  obtain ⟨_, ⟨⟨⟨_, hlen⟩, hrow⟩, _⟩, _⟩ := h
  have hr : r % 8 < A.rot.length := by omega
  obtain ⟨hl, hb⟩ := hrow _ (List.getElem_mem hr)
  rw [rotAmount, List.getD_eq_getElem _ _ hr, List.getD_eq_getElem _ _ (by omega)]
  exact hb _ (List.getElem_mem _)

/-- Blocks whose sixteen pair words agree are equal. -/
theorem block_ext_pairs (A : Algo) (h : A.wf = true) (u v : Block)
    (hp : ∀ j < 8, pairWord A u j 0 = pairWord A v j 0 ∧ pairWord A u j 1 = pairWord A v j 1) : u = v := by
  obtain ⟨_, hidx, _⟩ := isPermutation16_spec _ (Algo_wf_pairing A h)
  refine block_ext _ _ fun i hi => ?_
  obtain ⟨hlt, he⟩ := hidx i hi
  obtain ⟨h0, h1⟩ := hp (A.pairing.idxOf i / 2) (by omega)
  rcases Nat.mod_two_eq_zero_or_one (A.pairing.idxOf i) with hk | hk
  · rw [pairWord, pairWord, show 2 * (A.pairing.idxOf i / 2) + 0 = A.pairing.idxOf i by omega, he] at h0; exact h0
  · rw [pairWord, pairWord, show 2 * (A.pairing.idxOf i / 2) + 1 = A.pairing.idxOf i by omega, he] at h1; exact h1

/-- The pair words of a block given word by word through the pairing. -/
theorem pairWord_blockOf (A : Algo) (h : A.wf = true) (f : Nat → Word) (j side : Nat) (hj : 2 * j + side < 16) :
    pairWord A (blockOf fun i => f (A.pairing.idxOf i)) j side = f (2 * j + side) := by
  obtain ⟨_, _, hget⟩ := isPermutation16_spec _ (Algo_wf_pairing A h)
  obtain ⟨hlt, he⟩ := hget _ hj
  rw [pairWord, blockWord_blockOf_lt _ _ hlt, he]

/-- What a MIX round does to pair `j` (40_cipher.md R105). -/
theorem pairWord_mixRound (A : Algo) (h : A.wf = true) (v : Block) (r j : Nat) (hj : j < 8) :
    pairWord A (mixRound A v r) j 0 = pairWord A v j 0 + pairWord A v j 1
      ∧ pairWord A (mixRound A v r) j 1
        = rotl64 (pairWord A v j 1) (rotAmount A r j) ^^^ (pairWord A v j 0 + pairWord A v j 1) := by
  let f := fun k => if k % 2 = 0 then pairWord A v (k / 2) 0 + pairWord A v (k / 2) 1
    else rotl64 (pairWord A v (k / 2) 1) (rotAmount A r (k / 2)) ^^^ (pairWord A v (k / 2) 0 + pairWord A v (k / 2) 1)
  have e : ∀ side, 2 * j + side < 16 → pairWord A (mixRound A v r) j side = f (2 * j + side) :=
    fun side => pairWord_blockOf A h f j side
  rw [e 0 (by omega), e 1 (by omega)]
  simp only [f, show (2 * j + 0) % 2 = 0 by omega, show (2 * j + 1) % 2 = 1 by omega,
    show (2 * j + 0) / 2 = j by omega, show (2 * j + 1) / 2 = j by omega]
  simp

/-- What the inverse of a MIX round does to pair `j` (40_cipher.md R111). -/
theorem pairWord_invMixRound (A : Algo) (h : A.wf = true) (w : Block) (r j : Nat) (hj : j < 8) :
    pairWord A (invMixRound A w r) j 0
        = pairWord A w j 0 - rotr64 (pairWord A w j 1 ^^^ pairWord A w j 0) (rotAmount A r j)
      ∧ pairWord A (invMixRound A w r) j 1 = rotr64 (pairWord A w j 1 ^^^ pairWord A w j 0) (rotAmount A r j) := by
  let f := fun k => if k % 2 = 0
    then pairWord A w (k / 2) 0 - rotr64 (pairWord A w (k / 2) 1 ^^^ pairWord A w (k / 2) 0) (rotAmount A r (k / 2))
    else rotr64 (pairWord A w (k / 2) 1 ^^^ pairWord A w (k / 2) 0) (rotAmount A r (k / 2))
  have e : ∀ side, 2 * j + side < 16 → pairWord A (invMixRound A w r) j side = f (2 * j + side) :=
    fun side => pairWord_blockOf A h f j side
  rw [e 0 (by omega), e 1 (by omega)]
  simp only [f, show (2 * j + 0) % 2 = 0 by omega, show (2 * j + 1) % 2 = 1 by omega,
    show (2 * j + 0) / 2 = j by omega, show (2 * j + 1) / 2 = j by omega]
  simp

end Sys2Proof.Machine
end

