-- ==== Sys2Proof/Laws/Memory.lean ====
section
/-! SUPPORT. IMEM: a byte reads as what was last written to it, writing leaves every other byte alone, and every
memory operation keeps the canonical form (20_memory.md R60). -/

namespace Sys2Proof.Machine

@[simp] theorem memRead_nil (a : Nat) : memRead [] a = none := rfl

theorem memRead_cons (k : Nat) (b : Byte) (m : Memory) (a : Nat) :
    memRead ((k, b) :: m) a = if k = a then some b else memRead m a := rfl

theorem memWrite_cons (k : Nat) (c : Byte) (m : Memory) (a : Nat) (b : Byte) :
    memWrite ((k, c) :: m) a b
      = if a < k then (a, b) :: (k, c) :: m else if a = k then (k, b) :: m else (k, c) :: memWrite m a b := rfl

/-- A read after one write: the written byte at its address, every other address as before. -/
theorem memRead_memWrite (m : Memory) (a x : Nat) (b : Byte) :
    memRead (memWrite m a b) x = if x = a then some b else memRead m x := by
  induction m with
  | nil => simp [memWrite, memRead_cons, eq_comm]
  | cons p m ih =>
    obtain ⟨k, c⟩ := p
    rw [memWrite_cons]
    split_ifs with h1 h2 <;> by_cases hx : x = a <;> simp_all [memRead_cons, eq_comm]

/-- A read after a write of consecutive bytes (20_memory.md R64): those bytes in their range, the rest as before. -/
theorem memRead_memWriteBytes (bs : List Byte) (m : Memory) (a x : Nat) :
    memRead (memWriteBytes m a bs) x = if a ≤ x ∧ x < a + bs.length then bs[x - a]? else memRead m x := by
  induction bs generalizing m a with
  | nil => simp [memWriteBytes]
  | cons b bs ih =>
    rw [memWriteBytes, ih, memRead_memWrite]
    by_cases hx : x = a
    · subst hx; simp
    · by_cases h : a + 1 ≤ x ∧ x < a + 1 + bs.length
      · have : x - a = (x - (a + 1)) + 1 := by omega
        simp only [List.length_cons]
        rw [if_pos h, if_pos (by omega), this, List.getElem?_cons_succ]
      · simp only [List.length_cons]
        rw [if_neg h, if_neg hx, if_neg (by omega)]

theorem memWf_cons_cons (a k : Nat) (b c : Byte) (m : Memory) :
    memWf ((a, b) :: (k, c) :: m) = true ↔ a < k ∧ memWf ((k, c) :: m) = true := by
  simp [memWf]

/-- The canonical form does not look at the bytes. -/
theorem memWf_cons_byte (k : Nat) (b c : Byte) (m : Memory) :
    memWf ((k, b) :: m) = memWf ((k, c) :: m) := by
  cases m <;> simp [memWf]

/-- Writing above the first address keeps it first. -/
theorem memWf_cons_memWrite (m : Memory) (k a : Nat) (c b : Byte) (hk : k < a)
    (h : memWf ((k, c) :: m) = true) : memWf ((k, c) :: memWrite m a b) = true := by
  induction m generalizing k c with
  | nil => simpa [memWrite, memWf_cons_cons, memWf] using hk
  | cons p m ih =>
    obtain ⟨x, d⟩ := p
    rw [memWf_cons_cons] at h
    rw [memWrite_cons]
    split_ifs with h1 h2
    · simp [memWf_cons_cons, hk, h1, h.2]
    · rw [memWf_cons_cons]
      exact ⟨by omega, by rw [memWf_cons_byte x b d]; exact h.2⟩
    · rw [memWf_cons_cons]
      exact ⟨h.1, ih x d (by omega) h.2⟩

/-- A write keeps the canonical form. -/
theorem memWf_memWrite (m : Memory) (a : Nat) (b : Byte) (h : memWf m = true) : memWf (memWrite m a b) = true := by
  cases m with
  | nil => rfl
  | cons p m =>
    obtain ⟨k, c⟩ := p
    rw [memWrite_cons]
    split_ifs with h1 h2
    · rw [memWf_cons_cons]; exact ⟨h1, h⟩
    · rw [memWf_cons_byte k b c]; exact h
    · exact memWf_cons_memWrite m k a c b (by omega) h

/-- A write of consecutive bytes keeps the canonical form. -/
theorem memWf_memWriteBytes (bs : List Byte) (m : Memory) (a : Nat) (h : memWf m = true) :
    memWf (memWriteBytes m a bs) = true := by
  induction bs generalizing m a with
  | nil => exact h
  | cons b bs ih => exact ih _ _ (memWf_memWrite m a b h)

/-- A write lists no address but its own and those listed before. -/
theorem mem_memWrite (m : Memory) (a : Nat) (b : Byte) (p : Nat × Byte) (h : p ∈ memWrite m a b) :
    p.1 = a ∨ p ∈ m := by
  induction m with
  | nil => left; simp [memWrite] at h; simp [h]
  | cons q m ih =>
    obtain ⟨k, c⟩ := q
    rw [memWrite_cons] at h
    split_ifs at h with h1 h2
    · simp only [List.mem_cons] at h ⊢
      rcases h with rfl | h
      · exact .inl rfl
      · exact .inr h
    · simp only [List.mem_cons] at h ⊢
      rcases h with rfl | h
      · exact .inl h2.symm
      · exact .inr (.inr h)
    · simp only [List.mem_cons] at h ⊢
      rcases h with h | h
      · exact .inr (.inl h)
      · exact (ih h).imp id .inr

/-- A write of consecutive bytes below a bound keeps every listed address below it. -/
theorem memWriteBytes_bound (bs : List Byte) (m : Memory) (a n : Nat) (hm : ∀ p ∈ m, p.1 < n)
    (ha : a + bs.length ≤ n) : ∀ p ∈ memWriteBytes m a bs, p.1 < n := by
  induction bs generalizing m a with
  | nil => exact hm
  | cons b bs ih =>
    simp only [List.length_cons] at ha
    refine ih _ _ (fun p hp => ?_) (by omega)
    rcases mem_memWrite m a b p hp with h | h
    · omega
    · exact hm p h

/-- The memory at reset has the canonical form. -/
theorem reset_memWf : memWf State.reset.imem = true := rfl

@[simp] theorem imemBytes_length (s : State) (a n : Nat) : (imemBytes s a n).length = n := by
  simp [imemBytes]

/-- The bytes an operand reads depend on IMEM and the reset count only (20_memory.md R62). -/
theorem imemBytes_congr (s t : State) (a n : Nat) (hi : t.imem = s.imem) (he : t.epoch = s.epoch) :
    imemBytes t a n = imemBytes s a n := by
  simp [imemBytes, imemByte, hi, he]

end Sys2Proof.Machine
end

