-- ==== Sys2Proof/Laws/State.lean ====
section
/-! SUPPORT. What each named update of the state leaves in each field: one lemma a field, true by rfl. -/

namespace Sys2Proof.Machine

/-! ### countCommand -/

@[simp] theorem countCommand_cfg (s : State) : (countCommand s).cfg = s.cfg := rfl
@[simp] theorem countCommand_leafSize (s : State) : (countCommand s).leafSize = s.leafSize := rfl
@[simp] theorem countCommand_fanOut (s : State) : (countCommand s).fanOut = s.fanOut := rfl
@[simp] theorem countCommand_persLen (s : State) : (countCommand s).persLen = s.persLen := rfl
@[simp] theorem countCommand_pers (s : State) : (countCommand s).pers = s.pers := rfl
@[simp] theorem countCommand_srcAddr (s : State) : (countCommand s).srcAddr = s.srcAddr := rfl
@[simp] theorem countCommand_srcLen (s : State) : (countCommand s).srcLen = s.srcLen := rfl
@[simp] theorem countCommand_keyAddr (s : State) : (countCommand s).keyAddr = s.keyAddr := rfl
@[simp] theorem countCommand_keyLen (s : State) : (countCommand s).keyLen = s.keyLen := rfl
@[simp] theorem countCommand_expAddr (s : State) : (countCommand s).expAddr = s.expAddr := rfl
@[simp] theorem countCommand_twk0 (s : State) : (countCommand s).twk0 = s.twk0 := rfl
@[simp] theorem countCommand_twk1 (s : State) : (countCommand s).twk1 = s.twk1 := rfl
@[simp] theorem countCommand_twk2 (s : State) : (countCommand s).twk2 = s.twk2 := rfl
@[simp] theorem countCommand_out (s : State) : (countCommand s).out = s.out := rfl
@[simp] theorem countCommand_outLen (s : State) : (countCommand s).outLen = s.outLen := rfl
@[simp] theorem countCommand_cmdCount (s : State) : (countCommand s).cmdCount = s.cmdCount + 1 := rfl
@[simp] theorem countCommand_busy (s : State) : (countCommand s).busy = s.busy := rfl
@[simp] theorem countCommand_done (s : State) : (countCommand s).done = s.done := rfl
@[simp] theorem countCommand_matched (s : State) : (countCommand s).matched = s.matched := rfl
@[simp] theorem countCommand_err (s : State) : (countCommand s).err = s.err := rfl
@[simp] theorem countCommand_stream (s : State) : (countCommand s).stream = s.stream := rfl
@[simp] theorem countCommand_merkle (s : State) : (countCommand s).merkle = s.merkle := rfl
@[simp] theorem countCommand_imem (s : State) : (countCommand s).imem = s.imem := rfl
@[simp] theorem countCommand_config (s : State) : (countCommand s).config = s.config := rfl
@[simp] theorem countCommand_epoch (s : State) : (countCommand s).epoch = s.epoch := rfl
@[simp] theorem countCommand_busyReads (s : State) : (countCommand s).busyReads = s.busyReads := rfl
@[simp] theorem countCommand_script (s : State) : (countCommand s).script = s.script := rfl
@[simp] theorem countCommand_answer (s : State) : (countCommand s).answer = s.answer := rfl

/-! ### setDone -/

@[simp] theorem setDone_cfg (s : State) (m : Bool) : (setDone s m).cfg = s.cfg := rfl
@[simp] theorem setDone_leafSize (s : State) (m : Bool) : (setDone s m).leafSize = s.leafSize := rfl
@[simp] theorem setDone_fanOut (s : State) (m : Bool) : (setDone s m).fanOut = s.fanOut := rfl
@[simp] theorem setDone_persLen (s : State) (m : Bool) : (setDone s m).persLen = s.persLen := rfl
@[simp] theorem setDone_pers (s : State) (m : Bool) : (setDone s m).pers = s.pers := rfl
@[simp] theorem setDone_srcAddr (s : State) (m : Bool) : (setDone s m).srcAddr = s.srcAddr := rfl
@[simp] theorem setDone_srcLen (s : State) (m : Bool) : (setDone s m).srcLen = s.srcLen := rfl
@[simp] theorem setDone_keyAddr (s : State) (m : Bool) : (setDone s m).keyAddr = s.keyAddr := rfl
@[simp] theorem setDone_keyLen (s : State) (m : Bool) : (setDone s m).keyLen = s.keyLen := rfl
@[simp] theorem setDone_expAddr (s : State) (m : Bool) : (setDone s m).expAddr = s.expAddr := rfl
@[simp] theorem setDone_twk0 (s : State) (m : Bool) : (setDone s m).twk0 = s.twk0 := rfl
@[simp] theorem setDone_twk1 (s : State) (m : Bool) : (setDone s m).twk1 = s.twk1 := rfl
@[simp] theorem setDone_twk2 (s : State) (m : Bool) : (setDone s m).twk2 = s.twk2 := rfl
@[simp] theorem setDone_out (s : State) (m : Bool) : (setDone s m).out = s.out := rfl
@[simp] theorem setDone_outLen (s : State) (m : Bool) : (setDone s m).outLen = s.outLen := rfl
@[simp] theorem setDone_cmdCount (s : State) (m : Bool) : (setDone s m).cmdCount = s.cmdCount := rfl
@[simp] theorem setDone_busy (s : State) (m : Bool) : (setDone s m).busy = s.busy := rfl
@[simp] theorem setDone_done (s : State) (m : Bool) : (setDone s m).done = true := rfl
@[simp] theorem setDone_matched (s : State) (m : Bool) : (setDone s m).matched = m := rfl
@[simp] theorem setDone_err (s : State) (m : Bool) : (setDone s m).err = s.err := rfl
@[simp] theorem setDone_stream (s : State) (m : Bool) : (setDone s m).stream = s.stream := rfl
@[simp] theorem setDone_merkle (s : State) (m : Bool) : (setDone s m).merkle = s.merkle := rfl
@[simp] theorem setDone_imem (s : State) (m : Bool) : (setDone s m).imem = s.imem := rfl
@[simp] theorem setDone_config (s : State) (m : Bool) : (setDone s m).config = s.config := rfl
@[simp] theorem setDone_epoch (s : State) (m : Bool) : (setDone s m).epoch = s.epoch := rfl
@[simp] theorem setDone_busyReads (s : State) (m : Bool) : (setDone s m).busyReads = s.busyReads := rfl
@[simp] theorem setDone_script (s : State) (m : Bool) : (setDone s m).script = s.script := rfl
@[simp] theorem setDone_answer (s : State) (m : Bool) : (setDone s m).answer = s.answer := rfl

/-! ### raiseError -/

@[simp] theorem raiseError_cfg (s : State) (opc : Byte) (c : Cause) : (raiseError s opc c).cfg = s.cfg := rfl
@[simp] theorem raiseError_leafSize (s : State) (opc : Byte) (c : Cause) : (raiseError s opc c).leafSize = s.leafSize := rfl
@[simp] theorem raiseError_fanOut (s : State) (opc : Byte) (c : Cause) : (raiseError s opc c).fanOut = s.fanOut := rfl
@[simp] theorem raiseError_persLen (s : State) (opc : Byte) (c : Cause) : (raiseError s opc c).persLen = s.persLen := rfl
@[simp] theorem raiseError_pers (s : State) (opc : Byte) (c : Cause) : (raiseError s opc c).pers = s.pers := rfl
@[simp] theorem raiseError_srcAddr (s : State) (opc : Byte) (c : Cause) : (raiseError s opc c).srcAddr = s.srcAddr := rfl
@[simp] theorem raiseError_srcLen (s : State) (opc : Byte) (c : Cause) : (raiseError s opc c).srcLen = s.srcLen := rfl
@[simp] theorem raiseError_keyAddr (s : State) (opc : Byte) (c : Cause) : (raiseError s opc c).keyAddr = s.keyAddr := rfl
@[simp] theorem raiseError_keyLen (s : State) (opc : Byte) (c : Cause) : (raiseError s opc c).keyLen = s.keyLen := rfl
@[simp] theorem raiseError_expAddr (s : State) (opc : Byte) (c : Cause) : (raiseError s opc c).expAddr = s.expAddr := rfl
@[simp] theorem raiseError_twk0 (s : State) (opc : Byte) (c : Cause) : (raiseError s opc c).twk0 = s.twk0 := rfl
@[simp] theorem raiseError_twk1 (s : State) (opc : Byte) (c : Cause) : (raiseError s opc c).twk1 = s.twk1 := rfl
@[simp] theorem raiseError_twk2 (s : State) (opc : Byte) (c : Cause) : (raiseError s opc c).twk2 = s.twk2 := rfl
@[simp] theorem raiseError_out (s : State) (opc : Byte) (c : Cause) : (raiseError s opc c).out = s.out := rfl
@[simp] theorem raiseError_outLen (s : State) (opc : Byte) (c : Cause) : (raiseError s opc c).outLen = s.outLen := rfl
@[simp] theorem raiseError_cmdCount (s : State) (opc : Byte) (c : Cause) : (raiseError s opc c).cmdCount = s.cmdCount := rfl
@[simp] theorem raiseError_busy (s : State) (opc : Byte) (c : Cause) : (raiseError s opc c).busy = s.busy := rfl
@[simp] theorem raiseError_done (s : State) (opc : Byte) (c : Cause) : (raiseError s opc c).done = false := rfl
@[simp] theorem raiseError_matched (s : State) (opc : Byte) (c : Cause) : (raiseError s opc c).matched = false := rfl
@[simp] theorem raiseError_err (s : State) (opc : Byte) (c : Cause) : (raiseError s opc c).err = some { cause := c, opc := opc } := rfl
@[simp] theorem raiseError_stream (s : State) (opc : Byte) (c : Cause) : (raiseError s opc c).stream = s.stream := rfl
@[simp] theorem raiseError_merkle (s : State) (opc : Byte) (c : Cause) : (raiseError s opc c).merkle = s.merkle := rfl
@[simp] theorem raiseError_imem (s : State) (opc : Byte) (c : Cause) : (raiseError s opc c).imem = s.imem := rfl
@[simp] theorem raiseError_config (s : State) (opc : Byte) (c : Cause) : (raiseError s opc c).config = s.config := rfl
@[simp] theorem raiseError_epoch (s : State) (opc : Byte) (c : Cause) : (raiseError s opc c).epoch = s.epoch := rfl
@[simp] theorem raiseError_busyReads (s : State) (opc : Byte) (c : Cause) : (raiseError s opc c).busyReads = s.busyReads := rfl
@[simp] theorem raiseError_script (s : State) (opc : Byte) (c : Cause) : (raiseError s opc c).script = s.script := rfl
@[simp] theorem raiseError_answer (s : State) (opc : Byte) (c : Cause) : (raiseError s opc c).answer = s.answer := rfl

/-! ### hang -/

@[simp] theorem hang_cfg (s : State) : (hang s).cfg = s.cfg := rfl
@[simp] theorem hang_leafSize (s : State) : (hang s).leafSize = s.leafSize := rfl
@[simp] theorem hang_fanOut (s : State) : (hang s).fanOut = s.fanOut := rfl
@[simp] theorem hang_persLen (s : State) : (hang s).persLen = s.persLen := rfl
@[simp] theorem hang_pers (s : State) : (hang s).pers = s.pers := rfl
@[simp] theorem hang_srcAddr (s : State) : (hang s).srcAddr = s.srcAddr := rfl
@[simp] theorem hang_srcLen (s : State) : (hang s).srcLen = s.srcLen := rfl
@[simp] theorem hang_keyAddr (s : State) : (hang s).keyAddr = s.keyAddr := rfl
@[simp] theorem hang_keyLen (s : State) : (hang s).keyLen = s.keyLen := rfl
@[simp] theorem hang_expAddr (s : State) : (hang s).expAddr = s.expAddr := rfl
@[simp] theorem hang_twk0 (s : State) : (hang s).twk0 = s.twk0 := rfl
@[simp] theorem hang_twk1 (s : State) : (hang s).twk1 = s.twk1 := rfl
@[simp] theorem hang_twk2 (s : State) : (hang s).twk2 = s.twk2 := rfl
@[simp] theorem hang_out (s : State) : (hang s).out = s.out := rfl
@[simp] theorem hang_outLen (s : State) : (hang s).outLen = s.outLen := rfl
@[simp] theorem hang_cmdCount (s : State) : (hang s).cmdCount = s.cmdCount := rfl
@[simp] theorem hang_busy (s : State) : (hang s).busy = true := rfl
@[simp] theorem hang_done (s : State) : (hang s).done = s.done := rfl
@[simp] theorem hang_matched (s : State) : (hang s).matched = s.matched := rfl
@[simp] theorem hang_err (s : State) : (hang s).err = s.err := rfl
@[simp] theorem hang_stream (s : State) : (hang s).stream = s.stream := rfl
@[simp] theorem hang_merkle (s : State) : (hang s).merkle = s.merkle := rfl
@[simp] theorem hang_imem (s : State) : (hang s).imem = s.imem := rfl
@[simp] theorem hang_config (s : State) : (hang s).config = s.config := rfl
@[simp] theorem hang_epoch (s : State) : (hang s).epoch = s.epoch := rfl
@[simp] theorem hang_busyReads (s : State) : (hang s).busyReads = s.busyReads := rfl
@[simp] theorem hang_script (s : State) : (hang s).script = s.script := rfl
@[simp] theorem hang_answer (s : State) : (hang s).answer = s.answer := rfl

/-! ### writeBlockResult -/

@[simp] theorem writeBlockResult_cfg (s : State) (v : Block) : (writeBlockResult s v).cfg = s.cfg := rfl
@[simp] theorem writeBlockResult_leafSize (s : State) (v : Block) : (writeBlockResult s v).leafSize = s.leafSize := rfl
@[simp] theorem writeBlockResult_fanOut (s : State) (v : Block) : (writeBlockResult s v).fanOut = s.fanOut := rfl
@[simp] theorem writeBlockResult_persLen (s : State) (v : Block) : (writeBlockResult s v).persLen = s.persLen := rfl
@[simp] theorem writeBlockResult_pers (s : State) (v : Block) : (writeBlockResult s v).pers = s.pers := rfl
@[simp] theorem writeBlockResult_srcAddr (s : State) (v : Block) : (writeBlockResult s v).srcAddr = s.srcAddr := rfl
@[simp] theorem writeBlockResult_srcLen (s : State) (v : Block) : (writeBlockResult s v).srcLen = s.srcLen := rfl
@[simp] theorem writeBlockResult_keyAddr (s : State) (v : Block) : (writeBlockResult s v).keyAddr = s.keyAddr := rfl
@[simp] theorem writeBlockResult_keyLen (s : State) (v : Block) : (writeBlockResult s v).keyLen = s.keyLen := rfl
@[simp] theorem writeBlockResult_expAddr (s : State) (v : Block) : (writeBlockResult s v).expAddr = s.expAddr := rfl
@[simp] theorem writeBlockResult_twk0 (s : State) (v : Block) : (writeBlockResult s v).twk0 = s.twk0 := rfl
@[simp] theorem writeBlockResult_twk1 (s : State) (v : Block) : (writeBlockResult s v).twk1 = s.twk1 := rfl
@[simp] theorem writeBlockResult_twk2 (s : State) (v : Block) : (writeBlockResult s v).twk2 = s.twk2 := rfl
@[simp] theorem writeBlockResult_out (s : State) (v : Block) : (writeBlockResult s v).out = v := rfl
@[simp] theorem writeBlockResult_outLen (s : State) (v : Block) : (writeBlockResult s v).outLen = 128 := rfl
@[simp] theorem writeBlockResult_cmdCount (s : State) (v : Block) : (writeBlockResult s v).cmdCount = s.cmdCount := rfl
@[simp] theorem writeBlockResult_busy (s : State) (v : Block) : (writeBlockResult s v).busy = s.busy := rfl
@[simp] theorem writeBlockResult_done (s : State) (v : Block) : (writeBlockResult s v).done = s.done := rfl
@[simp] theorem writeBlockResult_matched (s : State) (v : Block) : (writeBlockResult s v).matched = s.matched := rfl
@[simp] theorem writeBlockResult_err (s : State) (v : Block) : (writeBlockResult s v).err = s.err := rfl
@[simp] theorem writeBlockResult_stream (s : State) (v : Block) : (writeBlockResult s v).stream = s.stream := rfl
@[simp] theorem writeBlockResult_merkle (s : State) (v : Block) : (writeBlockResult s v).merkle = s.merkle := rfl
@[simp] theorem writeBlockResult_imem (s : State) (v : Block) : (writeBlockResult s v).imem = s.imem := rfl
@[simp] theorem writeBlockResult_config (s : State) (v : Block) : (writeBlockResult s v).config = s.config := rfl
@[simp] theorem writeBlockResult_epoch (s : State) (v : Block) : (writeBlockResult s v).epoch = s.epoch := rfl
@[simp] theorem writeBlockResult_busyReads (s : State) (v : Block) : (writeBlockResult s v).busyReads = s.busyReads := rfl
@[simp] theorem writeBlockResult_script (s : State) (v : Block) : (writeBlockResult s v).script = s.script := rfl
@[simp] theorem writeBlockResult_answer (s : State) (v : Block) : (writeBlockResult s v).answer = s.answer := rfl

/-! ### writeDigest -/

@[simp] theorem writeDigest_cfg (s : State) (dg : List Byte) (bits : BitVec 16) : (writeDigest s dg bits).cfg = s.cfg := rfl
@[simp] theorem writeDigest_leafSize (s : State) (dg : List Byte) (bits : BitVec 16) : (writeDigest s dg bits).leafSize = s.leafSize := rfl
@[simp] theorem writeDigest_fanOut (s : State) (dg : List Byte) (bits : BitVec 16) : (writeDigest s dg bits).fanOut = s.fanOut := rfl
@[simp] theorem writeDigest_persLen (s : State) (dg : List Byte) (bits : BitVec 16) : (writeDigest s dg bits).persLen = s.persLen := rfl
@[simp] theorem writeDigest_pers (s : State) (dg : List Byte) (bits : BitVec 16) : (writeDigest s dg bits).pers = s.pers := rfl
@[simp] theorem writeDigest_srcAddr (s : State) (dg : List Byte) (bits : BitVec 16) : (writeDigest s dg bits).srcAddr = s.srcAddr := rfl
@[simp] theorem writeDigest_srcLen (s : State) (dg : List Byte) (bits : BitVec 16) : (writeDigest s dg bits).srcLen = s.srcLen := rfl
@[simp] theorem writeDigest_keyAddr (s : State) (dg : List Byte) (bits : BitVec 16) : (writeDigest s dg bits).keyAddr = s.keyAddr := rfl
@[simp] theorem writeDigest_keyLen (s : State) (dg : List Byte) (bits : BitVec 16) : (writeDigest s dg bits).keyLen = s.keyLen := rfl
@[simp] theorem writeDigest_expAddr (s : State) (dg : List Byte) (bits : BitVec 16) : (writeDigest s dg bits).expAddr = s.expAddr := rfl
@[simp] theorem writeDigest_twk0 (s : State) (dg : List Byte) (bits : BitVec 16) : (writeDigest s dg bits).twk0 = s.twk0 := rfl
@[simp] theorem writeDigest_twk1 (s : State) (dg : List Byte) (bits : BitVec 16) : (writeDigest s dg bits).twk1 = s.twk1 := rfl
@[simp] theorem writeDigest_twk2 (s : State) (dg : List Byte) (bits : BitVec 16) : (writeDigest s dg bits).twk2 = s.twk2 := rfl
@[simp] theorem writeDigest_out (s : State) (dg : List Byte) (bits : BitVec 16) : (writeDigest s dg bits).out = words (zeroPad 128 dg) := rfl
@[simp] theorem writeDigest_outLen (s : State) (dg : List Byte) (bits : BitVec 16) : (writeDigest s dg bits).outLen = BitVec.ofNat 64 (digestBytes bits) := rfl
@[simp] theorem writeDigest_cmdCount (s : State) (dg : List Byte) (bits : BitVec 16) : (writeDigest s dg bits).cmdCount = s.cmdCount := rfl
@[simp] theorem writeDigest_busy (s : State) (dg : List Byte) (bits : BitVec 16) : (writeDigest s dg bits).busy = s.busy := rfl
@[simp] theorem writeDigest_done (s : State) (dg : List Byte) (bits : BitVec 16) : (writeDigest s dg bits).done = s.done := rfl
@[simp] theorem writeDigest_matched (s : State) (dg : List Byte) (bits : BitVec 16) : (writeDigest s dg bits).matched = s.matched := rfl
@[simp] theorem writeDigest_err (s : State) (dg : List Byte) (bits : BitVec 16) : (writeDigest s dg bits).err = s.err := rfl
@[simp] theorem writeDigest_stream (s : State) (dg : List Byte) (bits : BitVec 16) : (writeDigest s dg bits).stream = s.stream := rfl
@[simp] theorem writeDigest_merkle (s : State) (dg : List Byte) (bits : BitVec 16) : (writeDigest s dg bits).merkle = s.merkle := rfl
@[simp] theorem writeDigest_imem (s : State) (dg : List Byte) (bits : BitVec 16) : (writeDigest s dg bits).imem = s.imem := rfl
@[simp] theorem writeDigest_config (s : State) (dg : List Byte) (bits : BitVec 16) : (writeDigest s dg bits).config = s.config := rfl
@[simp] theorem writeDigest_epoch (s : State) (dg : List Byte) (bits : BitVec 16) : (writeDigest s dg bits).epoch = s.epoch := rfl
@[simp] theorem writeDigest_busyReads (s : State) (dg : List Byte) (bits : BitVec 16) : (writeDigest s dg bits).busyReads = s.busyReads := rfl
@[simp] theorem writeDigest_script (s : State) (dg : List Byte) (bits : BitVec 16) : (writeDigest s dg bits).script = s.script := rfl
@[simp] theorem writeDigest_answer (s : State) (dg : List Byte) (bits : BitVec 16) : (writeDigest s dg bits).answer = s.answer := rfl

/-! ### clearResult -/

@[simp] theorem clearResult_cfg (s : State) : (clearResult s).cfg = s.cfg := rfl
@[simp] theorem clearResult_leafSize (s : State) : (clearResult s).leafSize = s.leafSize := rfl
@[simp] theorem clearResult_fanOut (s : State) : (clearResult s).fanOut = s.fanOut := rfl
@[simp] theorem clearResult_persLen (s : State) : (clearResult s).persLen = s.persLen := rfl
@[simp] theorem clearResult_pers (s : State) : (clearResult s).pers = s.pers := rfl
@[simp] theorem clearResult_srcAddr (s : State) : (clearResult s).srcAddr = s.srcAddr := rfl
@[simp] theorem clearResult_srcLen (s : State) : (clearResult s).srcLen = s.srcLen := rfl
@[simp] theorem clearResult_keyAddr (s : State) : (clearResult s).keyAddr = s.keyAddr := rfl
@[simp] theorem clearResult_keyLen (s : State) : (clearResult s).keyLen = s.keyLen := rfl
@[simp] theorem clearResult_expAddr (s : State) : (clearResult s).expAddr = s.expAddr := rfl
@[simp] theorem clearResult_twk0 (s : State) : (clearResult s).twk0 = s.twk0 := rfl
@[simp] theorem clearResult_twk1 (s : State) : (clearResult s).twk1 = s.twk1 := rfl
@[simp] theorem clearResult_twk2 (s : State) : (clearResult s).twk2 = s.twk2 := rfl
@[simp] theorem clearResult_out (s : State) : (clearResult s).out = zeroBlock := rfl
@[simp] theorem clearResult_outLen (s : State) : (clearResult s).outLen = 0 := rfl
@[simp] theorem clearResult_cmdCount (s : State) : (clearResult s).cmdCount = s.cmdCount := rfl
@[simp] theorem clearResult_busy (s : State) : (clearResult s).busy = s.busy := rfl
@[simp] theorem clearResult_done (s : State) : (clearResult s).done = s.done := rfl
@[simp] theorem clearResult_matched (s : State) : (clearResult s).matched = s.matched := rfl
@[simp] theorem clearResult_err (s : State) : (clearResult s).err = s.err := rfl
@[simp] theorem clearResult_stream (s : State) : (clearResult s).stream = s.stream := rfl
@[simp] theorem clearResult_merkle (s : State) : (clearResult s).merkle = s.merkle := rfl
@[simp] theorem clearResult_imem (s : State) : (clearResult s).imem = s.imem := rfl
@[simp] theorem clearResult_config (s : State) : (clearResult s).config = s.config := rfl
@[simp] theorem clearResult_epoch (s : State) : (clearResult s).epoch = s.epoch := rfl
@[simp] theorem clearResult_busyReads (s : State) : (clearResult s).busyReads = s.busyReads := rfl
@[simp] theorem clearResult_script (s : State) : (clearResult s).script = s.script := rfl
@[simp] theorem clearResult_answer (s : State) : (clearResult s).answer = s.answer := rfl

/-! ### setStream -/

@[simp] theorem setStream_cfg (s : State) (x : StreamCtx) : (setStream s x).cfg = s.cfg := rfl
@[simp] theorem setStream_leafSize (s : State) (x : StreamCtx) : (setStream s x).leafSize = s.leafSize := rfl
@[simp] theorem setStream_fanOut (s : State) (x : StreamCtx) : (setStream s x).fanOut = s.fanOut := rfl
@[simp] theorem setStream_persLen (s : State) (x : StreamCtx) : (setStream s x).persLen = s.persLen := rfl
@[simp] theorem setStream_pers (s : State) (x : StreamCtx) : (setStream s x).pers = s.pers := rfl
@[simp] theorem setStream_srcAddr (s : State) (x : StreamCtx) : (setStream s x).srcAddr = s.srcAddr := rfl
@[simp] theorem setStream_srcLen (s : State) (x : StreamCtx) : (setStream s x).srcLen = s.srcLen := rfl
@[simp] theorem setStream_keyAddr (s : State) (x : StreamCtx) : (setStream s x).keyAddr = s.keyAddr := rfl
@[simp] theorem setStream_keyLen (s : State) (x : StreamCtx) : (setStream s x).keyLen = s.keyLen := rfl
@[simp] theorem setStream_expAddr (s : State) (x : StreamCtx) : (setStream s x).expAddr = s.expAddr := rfl
@[simp] theorem setStream_twk0 (s : State) (x : StreamCtx) : (setStream s x).twk0 = s.twk0 := rfl
@[simp] theorem setStream_twk1 (s : State) (x : StreamCtx) : (setStream s x).twk1 = s.twk1 := rfl
@[simp] theorem setStream_twk2 (s : State) (x : StreamCtx) : (setStream s x).twk2 = s.twk2 := rfl
@[simp] theorem setStream_out (s : State) (x : StreamCtx) : (setStream s x).out = s.out := rfl
@[simp] theorem setStream_outLen (s : State) (x : StreamCtx) : (setStream s x).outLen = s.outLen := rfl
@[simp] theorem setStream_cmdCount (s : State) (x : StreamCtx) : (setStream s x).cmdCount = s.cmdCount := rfl
@[simp] theorem setStream_busy (s : State) (x : StreamCtx) : (setStream s x).busy = s.busy := rfl
@[simp] theorem setStream_done (s : State) (x : StreamCtx) : (setStream s x).done = s.done := rfl
@[simp] theorem setStream_matched (s : State) (x : StreamCtx) : (setStream s x).matched = s.matched := rfl
@[simp] theorem setStream_err (s : State) (x : StreamCtx) : (setStream s x).err = s.err := rfl
@[simp] theorem setStream_stream (s : State) (x : StreamCtx) : (setStream s x).stream = x := rfl
@[simp] theorem setStream_merkle (s : State) (x : StreamCtx) : (setStream s x).merkle = s.merkle := rfl
@[simp] theorem setStream_imem (s : State) (x : StreamCtx) : (setStream s x).imem = s.imem := rfl
@[simp] theorem setStream_config (s : State) (x : StreamCtx) : (setStream s x).config = s.config := rfl
@[simp] theorem setStream_epoch (s : State) (x : StreamCtx) : (setStream s x).epoch = s.epoch := rfl
@[simp] theorem setStream_busyReads (s : State) (x : StreamCtx) : (setStream s x).busyReads = s.busyReads := rfl
@[simp] theorem setStream_script (s : State) (x : StreamCtx) : (setStream s x).script = s.script := rfl
@[simp] theorem setStream_answer (s : State) (x : StreamCtx) : (setStream s x).answer = s.answer := rfl

/-! ### setMerkle -/

@[simp] theorem setMerkle_cfg (s : State) (m : MerkleList) : (setMerkle s m).cfg = s.cfg := rfl
@[simp] theorem setMerkle_leafSize (s : State) (m : MerkleList) : (setMerkle s m).leafSize = s.leafSize := rfl
@[simp] theorem setMerkle_fanOut (s : State) (m : MerkleList) : (setMerkle s m).fanOut = s.fanOut := rfl
@[simp] theorem setMerkle_persLen (s : State) (m : MerkleList) : (setMerkle s m).persLen = s.persLen := rfl
@[simp] theorem setMerkle_pers (s : State) (m : MerkleList) : (setMerkle s m).pers = s.pers := rfl
@[simp] theorem setMerkle_srcAddr (s : State) (m : MerkleList) : (setMerkle s m).srcAddr = s.srcAddr := rfl
@[simp] theorem setMerkle_srcLen (s : State) (m : MerkleList) : (setMerkle s m).srcLen = s.srcLen := rfl
@[simp] theorem setMerkle_keyAddr (s : State) (m : MerkleList) : (setMerkle s m).keyAddr = s.keyAddr := rfl
@[simp] theorem setMerkle_keyLen (s : State) (m : MerkleList) : (setMerkle s m).keyLen = s.keyLen := rfl
@[simp] theorem setMerkle_expAddr (s : State) (m : MerkleList) : (setMerkle s m).expAddr = s.expAddr := rfl
@[simp] theorem setMerkle_twk0 (s : State) (m : MerkleList) : (setMerkle s m).twk0 = s.twk0 := rfl
@[simp] theorem setMerkle_twk1 (s : State) (m : MerkleList) : (setMerkle s m).twk1 = s.twk1 := rfl
@[simp] theorem setMerkle_twk2 (s : State) (m : MerkleList) : (setMerkle s m).twk2 = s.twk2 := rfl
@[simp] theorem setMerkle_out (s : State) (m : MerkleList) : (setMerkle s m).out = s.out := rfl
@[simp] theorem setMerkle_outLen (s : State) (m : MerkleList) : (setMerkle s m).outLen = s.outLen := rfl
@[simp] theorem setMerkle_cmdCount (s : State) (m : MerkleList) : (setMerkle s m).cmdCount = s.cmdCount := rfl
@[simp] theorem setMerkle_busy (s : State) (m : MerkleList) : (setMerkle s m).busy = s.busy := rfl
@[simp] theorem setMerkle_done (s : State) (m : MerkleList) : (setMerkle s m).done = s.done := rfl
@[simp] theorem setMerkle_matched (s : State) (m : MerkleList) : (setMerkle s m).matched = s.matched := rfl
@[simp] theorem setMerkle_err (s : State) (m : MerkleList) : (setMerkle s m).err = s.err := rfl
@[simp] theorem setMerkle_stream (s : State) (m : MerkleList) : (setMerkle s m).stream = s.stream := rfl
@[simp] theorem setMerkle_merkle (s : State) (m : MerkleList) : (setMerkle s m).merkle = m := rfl
@[simp] theorem setMerkle_imem (s : State) (m : MerkleList) : (setMerkle s m).imem = s.imem := rfl
@[simp] theorem setMerkle_config (s : State) (m : MerkleList) : (setMerkle s m).config = s.config := rfl
@[simp] theorem setMerkle_epoch (s : State) (m : MerkleList) : (setMerkle s m).epoch = s.epoch := rfl
@[simp] theorem setMerkle_busyReads (s : State) (m : MerkleList) : (setMerkle s m).busyReads = s.busyReads := rfl
@[simp] theorem setMerkle_script (s : State) (m : MerkleList) : (setMerkle s m).script = s.script := rfl
@[simp] theorem setMerkle_answer (s : State) (m : MerkleList) : (setMerkle s m).answer = s.answer := rfl

/-! ### wipeState -/

@[simp] theorem wipeState_cfg (s : State) : (wipeState s).cfg = s.cfg := rfl
@[simp] theorem wipeState_leafSize (s : State) : (wipeState s).leafSize = s.leafSize := rfl
@[simp] theorem wipeState_fanOut (s : State) : (wipeState s).fanOut = s.fanOut := rfl
@[simp] theorem wipeState_persLen (s : State) : (wipeState s).persLen = 0 := rfl
@[simp] theorem wipeState_pers (s : State) : (wipeState s).pers = Vector.ofFn fun _ => 0 := rfl
@[simp] theorem wipeState_srcAddr (s : State) : (wipeState s).srcAddr = s.srcAddr := rfl
@[simp] theorem wipeState_srcLen (s : State) : (wipeState s).srcLen = s.srcLen := rfl
@[simp] theorem wipeState_keyAddr (s : State) : (wipeState s).keyAddr = s.keyAddr := rfl
@[simp] theorem wipeState_keyLen (s : State) : (wipeState s).keyLen = s.keyLen := rfl
@[simp] theorem wipeState_expAddr (s : State) : (wipeState s).expAddr = s.expAddr := rfl
@[simp] theorem wipeState_twk0 (s : State) : (wipeState s).twk0 = 0 := rfl
@[simp] theorem wipeState_twk1 (s : State) : (wipeState s).twk1 = 0 := rfl
@[simp] theorem wipeState_twk2 (s : State) : (wipeState s).twk2 = 0 := rfl
@[simp] theorem wipeState_out (s : State) : (wipeState s).out = zeroBlock := rfl
@[simp] theorem wipeState_outLen (s : State) : (wipeState s).outLen = 0 := rfl
@[simp] theorem wipeState_cmdCount (s : State) : (wipeState s).cmdCount = s.cmdCount := rfl
@[simp] theorem wipeState_busy (s : State) : (wipeState s).busy = s.busy := rfl
@[simp] theorem wipeState_done (s : State) : (wipeState s).done = s.done := rfl
@[simp] theorem wipeState_matched (s : State) : (wipeState s).matched = s.matched := rfl
@[simp] theorem wipeState_err (s : State) : (wipeState s).err = s.err := rfl
@[simp] theorem wipeState_stream (s : State) : (wipeState s).stream = resetStream := rfl
@[simp] theorem wipeState_merkle (s : State) : (wipeState s).merkle = resetMerkle := rfl
@[simp] theorem wipeState_imem (s : State) : (wipeState s).imem = s.imem := rfl
@[simp] theorem wipeState_config (s : State) : (wipeState s).config = s.config := rfl
@[simp] theorem wipeState_epoch (s : State) : (wipeState s).epoch = s.epoch := rfl
@[simp] theorem wipeState_busyReads (s : State) : (wipeState s).busyReads = s.busyReads := rfl
@[simp] theorem wipeState_script (s : State) : (wipeState s).script = s.script := rfl
@[simp] theorem wipeState_answer (s : State) : (wipeState s).answer = s.answer := rfl

/-! ### appendNode -/

@[simp] theorem appendNode_cfg (s : State) (h : List Byte) : (appendNode s h).cfg = s.cfg := rfl
@[simp] theorem appendNode_leafSize (s : State) (h : List Byte) : (appendNode s h).leafSize = s.leafSize := rfl
@[simp] theorem appendNode_fanOut (s : State) (h : List Byte) : (appendNode s h).fanOut = s.fanOut := rfl
@[simp] theorem appendNode_persLen (s : State) (h : List Byte) : (appendNode s h).persLen = s.persLen := rfl
@[simp] theorem appendNode_pers (s : State) (h : List Byte) : (appendNode s h).pers = s.pers := rfl
@[simp] theorem appendNode_srcAddr (s : State) (h : List Byte) : (appendNode s h).srcAddr = s.srcAddr := rfl
@[simp] theorem appendNode_srcLen (s : State) (h : List Byte) : (appendNode s h).srcLen = s.srcLen := rfl
@[simp] theorem appendNode_keyAddr (s : State) (h : List Byte) : (appendNode s h).keyAddr = s.keyAddr := rfl
@[simp] theorem appendNode_keyLen (s : State) (h : List Byte) : (appendNode s h).keyLen = s.keyLen := rfl
@[simp] theorem appendNode_expAddr (s : State) (h : List Byte) : (appendNode s h).expAddr = s.expAddr := rfl
@[simp] theorem appendNode_twk0 (s : State) (h : List Byte) : (appendNode s h).twk0 = s.twk0 := rfl
@[simp] theorem appendNode_twk1 (s : State) (h : List Byte) : (appendNode s h).twk1 = s.twk1 := rfl
@[simp] theorem appendNode_twk2 (s : State) (h : List Byte) : (appendNode s h).twk2 = s.twk2 := rfl
@[simp] theorem appendNode_out (s : State) (h : List Byte) : (appendNode s h).out = s.out := rfl
@[simp] theorem appendNode_outLen (s : State) (h : List Byte) : (appendNode s h).outLen = s.outLen := rfl
@[simp] theorem appendNode_cmdCount (s : State) (h : List Byte) : (appendNode s h).cmdCount = s.cmdCount := rfl
@[simp] theorem appendNode_busy (s : State) (h : List Byte) : (appendNode s h).busy = s.busy := rfl
@[simp] theorem appendNode_done (s : State) (h : List Byte) : (appendNode s h).done = s.done := rfl
@[simp] theorem appendNode_matched (s : State) (h : List Byte) : (appendNode s h).matched = s.matched := rfl
@[simp] theorem appendNode_err (s : State) (h : List Byte) : (appendNode s h).err = s.err := rfl
@[simp] theorem appendNode_stream (s : State) (h : List Byte) : (appendNode s h).stream = s.stream := rfl
@[simp] theorem appendNode_merkle (s : State) (h : List Byte) : (appendNode s h).merkle = { s.merkle with nodes := s.merkle.nodes ++ [h] } := rfl
@[simp] theorem appendNode_imem (s : State) (h : List Byte) : (appendNode s h).imem = s.imem := rfl
@[simp] theorem appendNode_config (s : State) (h : List Byte) : (appendNode s h).config = s.config := rfl
@[simp] theorem appendNode_epoch (s : State) (h : List Byte) : (appendNode s h).epoch = s.epoch := rfl
@[simp] theorem appendNode_busyReads (s : State) (h : List Byte) : (appendNode s h).busyReads = s.busyReads := rfl
@[simp] theorem appendNode_script (s : State) (h : List Byte) : (appendNode s h).script = s.script := rfl
@[simp] theorem appendNode_answer (s : State) (h : List Byte) : (appendNode s h).answer = s.answer := rfl

/-! ### applyReset -/

@[simp] theorem applyReset_cfg (s : State) : (applyReset s).cfg = 0 := rfl
@[simp] theorem applyReset_leafSize (s : State) : (applyReset s).leafSize = leafDefault := rfl
@[simp] theorem applyReset_fanOut (s : State) : (applyReset s).fanOut = fanOutDefault := rfl
@[simp] theorem applyReset_persLen (s : State) : (applyReset s).persLen = 0 := rfl
@[simp] theorem applyReset_pers (s : State) : (applyReset s).pers = Vector.ofFn fun _ => 0 := rfl
@[simp] theorem applyReset_srcAddr (s : State) : (applyReset s).srcAddr = 0 := rfl
@[simp] theorem applyReset_srcLen (s : State) : (applyReset s).srcLen = 0 := rfl
@[simp] theorem applyReset_keyAddr (s : State) : (applyReset s).keyAddr = 0 := rfl
@[simp] theorem applyReset_keyLen (s : State) : (applyReset s).keyLen = 0 := rfl
@[simp] theorem applyReset_expAddr (s : State) : (applyReset s).expAddr = 0 := rfl
@[simp] theorem applyReset_twk0 (s : State) : (applyReset s).twk0 = 0 := rfl
@[simp] theorem applyReset_twk1 (s : State) : (applyReset s).twk1 = 0 := rfl
@[simp] theorem applyReset_twk2 (s : State) : (applyReset s).twk2 = 0 := rfl
@[simp] theorem applyReset_out (s : State) : (applyReset s).out = zeroBlock := rfl
@[simp] theorem applyReset_outLen (s : State) : (applyReset s).outLen = 0 := rfl
@[simp] theorem applyReset_cmdCount (s : State) : (applyReset s).cmdCount = 0 := rfl
@[simp] theorem applyReset_busy (s : State) : (applyReset s).busy = false := rfl
@[simp] theorem applyReset_done (s : State) : (applyReset s).done = false := rfl
@[simp] theorem applyReset_matched (s : State) : (applyReset s).matched = false := rfl
@[simp] theorem applyReset_err (s : State) : (applyReset s).err = none := rfl
@[simp] theorem applyReset_stream (s : State) : (applyReset s).stream = resetStream := rfl
@[simp] theorem applyReset_merkle (s : State) : (applyReset s).merkle = resetMerkle := rfl
@[simp] theorem applyReset_imem (s : State) : (applyReset s).imem = [] := rfl
@[simp] theorem applyReset_config (s : State) : (applyReset s).config = s.config := rfl
@[simp] theorem applyReset_epoch (s : State) : (applyReset s).epoch = s.epoch + 1 := rfl
@[simp] theorem applyReset_busyReads (s : State) : (applyReset s).busyReads = 0 := rfl
@[simp] theorem applyReset_script (s : State) : (applyReset s).script = s.script := rfl
@[simp] theorem applyReset_answer (s : State) : (applyReset s).answer = none := rfl

end Sys2Proof.Machine
end

