-- ==== Sys2Proof/Laws/Ops.lean ====
section
/-! SUPPORT. What each shared operation can do, said once: the checks, the command template (30_encoding.md R88), the
decoder, the register file. -/

namespace Sys2Proof.Machine

/-! ### The checks -/

@[simp] theorem require_pos {p : Prop} [Decidable p] (c : Cause) (h : p) : require p c = .ok () := if_pos h

@[simp] theorem require_neg {p : Prop} [Decidable p] (c : Cause) (h : ¬ p) : require p c = .error (.raises c) := if_neg h

/-- A check passes, or raises its cause. -/
theorem require_cases (p : Prop) [Decidable p] (c : Cause) :
    (p ∧ require p c = .ok ()) ∨ (¬ p ∧ require p c = .error (.raises c)) := by
  by_cases h : p
  · exact .inl ⟨h, require_pos c h⟩
  · exact .inr ⟨h, require_neg c h⟩

theorem require_ok_iff (p : Prop) [Decidable p] (c : Cause) (u : Unit) : require p c = .ok u ↔ p := by
  rcases require_cases p c with ⟨h, e⟩ | ⟨h, e⟩ <;> simp [h]

theorem terminating_some {α : Type} (a : α) : terminating (some a) = .ok a := rfl

theorem terminating_none {α : Type} : terminating (none : Option α) = .error .never := rfl

@[simp] theorem except_bind_ok {α β : Type} (a : α) (f : α → Except Stop β) : (Except.ok a >>= f) = f a := rfl

@[simp] theorem except_bind_error {α β : Type} (e : Stop) (f : α → Except Stop β) :
    ((Except.error e : Except Stop α) >>= f) = .error e := rfl

/-- A sequence of two computations ends well only if both do. -/
theorem bind_eq_ok {α β : Type} (x : Except Stop α) (f : α → Except Stop β) (b : β) :
    (x >>= f) = .ok b ↔ ∃ a, x = .ok a ∧ f a = .ok b := by
  cases x <;> simp

/-- A check, then the rest. -/
theorem require_bind {β : Type} (p : Prop) [Decidable p] (c : Cause) (f : Unit → Except Stop β) :
    (require p c >>= f) = if p then f () else .error (.raises c) := by
  rcases require_cases p c with ⟨h, e⟩ | ⟨h, e⟩ <;> simp [h]

/-- Checks first, the first that fails raises: `ValidateConfig` (42_dispatch_seq_stream.md R151). -/
theorem validateConfig_eq (cfg : CfgRec) :
    validateConfig cfg = match firstConfigError cfg with
      | none => .ok ()
      | some c => .error (.raises c) := by
  simp only [validateConfig, require_bind, firstConfigError]
  unfold require
  split_ifs <;> first | rfl | contradiction

/-- A legal configuration has a digest size that is a multiple of 8. -/
theorem digestSizes_mod (n : Nat) (h : n ∈ digestSizes) : n % 8 = 0 := by
  simp [digestSizes] at h; omega

theorem firstConfigError_none_iff (cfg : CfgRec) : firstConfigError cfg = none ↔ ConfigLegal cfg := by
  unfold firstConfigError
  constructor
  · intro h
    split_ifs at h with h1 h2 h3 h4 h5 h6 h7
    exact ⟨by simpa using h2, h3, by simpa using h4, h5, h6, h7⟩
  · rintro ⟨h2, h3, h4, h5, h6, h7⟩
    rw [if_neg (by simpa using digestSizes_mod _ h2), if_neg (by simpa using h2), if_neg h3, if_neg (by simpa using h4),
      if_neg h5, if_neg h6, if_neg h7]

theorem validateConfig_legal (cfg : CfgRec) (h : ConfigLegal cfg) : validateConfig cfg = .ok () := by
  rw [validateConfig_eq, (firstConfigError_none_iff cfg).mpr h]

theorem validateConfig_ok_iff (cfg : CfgRec) (u : Unit) : validateConfig cfg = .ok u ↔ ConfigLegal cfg := by
  rw [validateConfig_eq, ← firstConfigError_none_iff]
  cases firstConfigError cfg <;> simp

/-! ### The command template -/

/-- A command issued to a ready core runs its body on the counted state (30_encoding.md R88). -/
theorem runCommand_ready (opc : Byte) (body : State → Except Stop State) (s : State) (h : Ready s) :
    runCommand opc body s = match body (countCommand s) with
      | .ok t => .next t
      | .error (.raises c) => .next (raised s opc c)
      | .error .never => .next (running s) := by
  obtain ⟨hb, he⟩ := h
  simp only [runCommand, hb, he, Option.isSome_none, Bool.false_eq_true, if_false]
  rfl

/-- While an error is pending a command is counted and ignored (60_exceptions.md R242). -/
theorem runCommand_pending (opc : Byte) (body : State → Except Stop State) (s : State) (hb : s.busy = false)
    (he : s.err.isSome = true) : runCommand opc body s = .next (countCommand s) := by
  simp [runCommand, hb, he]

/-- All a command can do if it answers a next state: it was ignored, it completed, it raised, or it never ends. -/
theorem runCommand_cases (opc : Byte) (body : State → Except Stop State) (s t : State)
    (h : runCommand opc body s = .next t) :
    s.busy = false ∧
      ((s.err.isSome = true ∧ t = countCommand s)
        ∨ (s.err = none ∧ body (countCommand s) = .ok t)
        ∨ (s.err = none ∧ ∃ c, body (countCommand s) = .error (.raises c) ∧ t = raised s opc c)
        ∨ (s.err = none ∧ body (countCommand s) = .error .never ∧ t = running s)) := by
  cases hb : s.busy with
  | true => simp [runCommand, hb] at h
  | false =>
    refine ⟨rfl, ?_⟩
    cases he : s.err with
    | some e =>
      rw [runCommand_pending opc body s hb (by simp [he])] at h
      exact .inl ⟨rfl, by injection h with h; exact h.symm⟩
    | none =>
      rw [runCommand_ready opc body s ⟨hb, he⟩] at h
      cases hbody : body (countCommand s) with
      | ok u =>
        rw [hbody] at h
        exact .inr (.inl ⟨rfl, by injection h with h; rw [h]⟩)
      | error e =>
        rw [hbody] at h
        cases e with
        | raises c => exact .inr (.inr (.inl ⟨rfl, c, rfl, by injection h with h; exact h.symm⟩))
        | never => exact .inr (.inr (.inr ⟨rfl, rfl, by injection h with h; exact h.symm⟩))

/-- A command never faults. -/
theorem runCommand_no_fault (opc : Byte) (body : State → Except Stop State) (s : State) (r : Fault) :
    runCommand opc body s ≠ .fault r := by
  unfold runCommand
  split_ifs
  · simp
  · simp
  · split <;> simp

/-- A command is refused only while the core is BUSY (93 U7). -/
theorem runCommand_refused (opc : Byte) (body : State → Except Stop State) (s : State) (r : Refusal)
    (h : runCommand opc body s = .refused r) : s.busy = true ∧ r = .accessWhileBusy := by
  unfold runCommand at h
  split_ifs at h with hb he
  · exact ⟨hb, by injection h with h; exact h.symm⟩
  · split at h <;> simp at h

/-! ### The host's accesses -/

/-- A step with a pending access is that access on the state without it. -/
theorem step_cons (s : State) (a : HostAction) (rest : List HostAction) (h : s.script = a :: rest) :
    step s = hostAccess a { s with script := rest } := by
  simp [step, nextAccess, h]

/-- With no pending access the core holds its state. -/
theorem step_nil (s : State) (h : s.script = []) : step s = .next s := by simp [step, nextAccess, h]

/-- A CMD write to a core that is not BUSY issues the word. -/
theorem hostAccess_issue (s : State) (w : Word) (h : s.busy = false) :
    hostAccess (issueAccess w) s = issueWord w s := by
  simp [hostAccess, issueAccess, hostWriteReg, h]

/-- Every write to a register other than CMD leaves everything but the host-written registers alone. -/
theorem writeReg_frame (s : State) (idx : Nat) (v : Word) :
    (writeReg s idx v).out = s.out ∧ (writeReg s idx v).outLen = s.outLen
      ∧ (writeReg s idx v).cmdCount = s.cmdCount ∧ (writeReg s idx v).busy = s.busy
      ∧ (writeReg s idx v).done = s.done ∧ (writeReg s idx v).matched = s.matched
      ∧ (writeReg s idx v).err = s.err ∧ (writeReg s idx v).stream = s.stream
      ∧ (writeReg s idx v).merkle = s.merkle ∧ (writeReg s idx v).imem = s.imem
      ∧ (writeReg s idx v).config = s.config ∧ (writeReg s idx v).epoch = s.epoch
      ∧ (writeReg s idx v).busyReads = s.busyReads ∧ (writeReg s idx v).script = s.script
      ∧ (writeReg s idx v).answer = s.answer := by
  unfold writeReg
  split <;> first | (split_ifs <;> simp) | simp

end Sys2Proof.Machine
end

