-- ==== Sys2Proof/Laws/Operands.lean ====
section
/-! SUPPORT. What the operand reads and the checks of a command do, said once; and that counting a command changes no
operand. -/

namespace Sys2Proof.Machine

/-! ### Checks -/

theorem checkRange_pos {s : State} {a : Word} {n : Nat} (h : InImem s a n) : checkRange s a n = .ok () :=
  require_pos _ h

theorem checkRange_neg {s : State} {a : Word} {n : Nat} (h : ¬ InImem s a n) :
    checkRange s a n = .error (.raises .addrRange) :=
  require_neg _ h

/-- The range check passes exactly for an operand inside IMEM (20_memory.md R63). -/
theorem checkRange_ok_iff (s : State) (a : Word) (n : Nat) (u : Unit) : checkRange s a n = .ok u ↔ InImem s a n :=
  require_ok_iff _ _ u

theorem checkTree_pos {s : State} {cfg : CfgRec}
    (h : cfg.mode = modeTree → TreeFits s.config (leafCount s.srcLen.toNat cfg.leaf.toNat)) : checkTree s cfg = .ok () :=
  require_pos _ h

theorem checkTree_neg {s : State} {cfg : CfgRec}
    (h : ¬ (cfg.mode = modeTree → TreeFits s.config (leafCount s.srcLen.toNat cfg.leaf.toNat))) :
    checkTree s cfg = .error (.raises .capacity) :=
  require_neg _ h

/-- The capacity check passes exactly when the tree is not used or fits (43_dispatch_tree.md R188). -/
theorem checkTree_ok_iff (s : State) (cfg : CfgRec) (u : Unit) :
    checkTree s cfg = .ok u ↔ (cfg.mode = modeTree → TreeFits s.config (leafCount s.srcLen.toNat cfg.leaf.toNat)) :=
  require_ok_iff _ _ u

theorem terminating_ok_iff {α : Type} (o : Option α) (a : α) : terminating o = .ok a ↔ o = some a := by
  cases o <;> simp [terminating]

/-! ### Counting a command leaves its operands alone -/

@[simp] theorem currentConfig_countCommand (s : State) : currentConfig (countCommand s) = currentConfig s := rfl
@[simp] theorem imemByte_countCommand (s : State) (a : Nat) : imemByte (countCommand s) a = imemByte s a := rfl
@[simp] theorem imemBytes_countCommand (s : State) (a n : Nat) : imemBytes (countCommand s) a n = imemBytes s a n := rfl
@[simp] theorem keyBlock_countCommand (s : State) : keyBlock (countCommand s) = keyBlock s := rfl
@[simp] theorem srcBlock_countCommand (s : State) : srcBlock (countCommand s) = srcBlock s := rfl
@[simp] theorem srcBytes_countCommand (s : State) : srcBytes (countCommand s) = srcBytes s := rfl
@[simp] theorem keyBytes_countCommand (s : State) : keyBytes (countCommand s) = keyBytes s := rfl
@[simp] theorem expBytes_countCommand (s : State) (n : Nat) : expBytes (countCommand s) n = expBytes s n := rfl
@[simp] theorem tweakRegs_countCommand (s : State) : tweakRegs (countCommand s) = tweakRegs s := rfl
@[simp] theorem checkRange_countCommand (s : State) (a : Word) (n : Nat) :
    checkRange (countCommand s) a n = checkRange s a n := rfl
@[simp] theorem checkTree_countCommand (s : State) (cfg : CfgRec) : checkTree (countCommand s) cfg = checkTree s cfg := rfl

/-! ### The state a command leaves when it completes (30_encoding.md R88), field by field -/

theorem done_block (s : State) (v : Block) : setDone (writeBlockResult (countCommand s) v) false
    = { s with cmdCount := s.cmdCount + 1, done := true, matched := false, out := v, outLen := 128 } := rfl

theorem done_digest (s : State) (dg : List Byte) (bits : BitVec 16) :
    setDone (writeDigest (countCommand s) dg bits) false
      = { s with cmdCount := s.cmdCount + 1, done := true, matched := false, out := digestWords dg, outLen := digestLen bits } := by
  simp only [setDone, writeDigest, countCommand]

theorem done_verify (s : State) (m : Bool) : setDone (clearResult (countCommand s)) m
    = { s with cmdCount := s.cmdCount + 1, done := true, matched := m, out := zeroBlock, outLen := 0 } := rfl

theorem done_append (s : State) (h : List Byte) : setDone (appendNode (countCommand s) h) false
    = { s with cmdCount := s.cmdCount + 1, done := true, matched := false,
               merkle := { s.merkle with nodes := s.merkle.nodes ++ [h] } } := rfl

theorem done_stream (s : State) (x : StreamCtx) : setDone (setStream (countCommand s) x) false
    = { s with cmdCount := s.cmdCount + 1, done := true, matched := false, stream := x } := rfl

theorem done_merkle (s : State) (m : MerkleList) : setDone (setMerkle (countCommand s) m) false
    = { s with cmdCount := s.cmdCount + 1, done := true, matched := false, merkle := m } := rfl

theorem done_final (s : State) (dg : List Byte) (bits : BitVec 16) (x : StreamCtx) :
    setDone (setStream (writeDigest (countCommand s) dg bits) x) false
      = { s with cmdCount := s.cmdCount + 1, done := true, matched := false, out := digestWords dg,
                 outLen := digestLen bits, stream := x } := by
  simp only [setDone, setStream, writeDigest, countCommand]

theorem done_root (s : State) (dg : List Byte) (bits : BitVec 16) (m : MerkleList) :
    setDone (setMerkle (writeDigest (countCommand s) dg bits) m) false
      = { s with cmdCount := s.cmdCount + 1, done := true, matched := false, out := digestWords dg,
                 outLen := digestLen bits, merkle := m } := by
  simp only [setDone, setMerkle, writeDigest, countCommand]

/-! ### Lengths of operands -/

@[simp] theorem srcBytes_length (s : State) : (srcBytes s).length = s.srcLen.toNat := imemBytes_length _ _ _
@[simp] theorem keyBytes_length (s : State) : (keyBytes s).length = s.keyLen.toNat := imemBytes_length _ _ _
@[simp] theorem expBytes_length (s : State) (n : Nat) : (expBytes s n).length = n := imemBytes_length _ _ _

/-- The personalization of a configuration fits its block (42_dispatch_seq_stream.md R150). -/
theorem currentConfig_pers_length (s : State) : (currentConfig s).pers.length ≤ persMax := by
  simp only [currentConfig, List.length_take]
  omega

end Sys2Proof.Machine
end

