-- ==== Sys2Proof/Laws/Commands.lean ====
section
/-! SUPPORT. Everything a command can do, said once: if `exec` answers a next state, which states that can be. -/

namespace Sys2Proof.Machine

/-- What a command leaves when it completes on the state `s`, which has counted it already (30_encoding.md R88 steps 5
and 6), with the checks that have passed. CLRERR does not run through the template and is `returnFromError`. -/
def Completes (i : Instr) (s t : State) : Prop :=
  match i with
  | .nop => t = setDone s false
  | .clrerr => False
  | .wipe => t = setDone (wipeState s) false
  | .enc => InImem s s.keyAddr blockBytes ∧ InImem s s.srcAddr blockBytes
      ∧ t = setDone (writeBlockResult s (encrypt s.config.rawAlgo (keyBlock s) (tweakRegs s) (srcBlock s))) false
  | .dec => InImem s s.keyAddr blockBytes ∧ InImem s s.srcAddr blockBytes
      ∧ t = setDone (writeBlockResult s (decrypt s.config.rawAlgo (keyBlock s) (tweakRegs s) (srcBlock s))) false
  | .ubi d => InImem s s.keyAddr blockBytes ∧ InImem s s.srcAddr s.srcLen.toNat
      ∧ t = setDone (writeBlockResult s (ubi s.config.rawAlgo (keyBlock s) d (srcBytes s))) false
  | .hash => ConfigLegal (currentConfig s) ∧ ∃ dg, hashDigest (s.config.algoFor (currentConfig s).bits) (currentConfig s) (srcBytes s) = some dg
      ∧ t = setDone (writeDigest s dg (currentConfig s).bits) false
  | .tree => ConfigLegal (currentConfig s) ∧ ∃ dg, treeHash (s.config.algoFor (currentConfig s).bits) (currentConfig s) (srcBytes s) = some dg
      ∧ t = setDone (writeDigest s dg (currentConfig s).bits) false
  | .verify => ConfigLegal (currentConfig s) ∧ ∃ dg, hashDigest (s.config.algoFor (currentConfig s).bits) (currentConfig s) (srcBytes s) = some dg
      ∧ t = setDone (clearResult s) (dg == expBytes s (digestBytes (currentConfig s).bits))
  | .sInit => ConfigLegal (currentConfig s)
      ∧ t = setDone (setStream s (openStream (s.config.algoFor (currentConfig s).bits) (currentConfig s))) false
  | .sUpdate => s.stream.phase = .opened ∧ InImem s s.srcAddr s.srcLen.toNat
      ∧ t = setDone (setStream s (absorb (s.config.algoFor s.stream.bits) s.stream (srcBytes s) s.srcLen)) false
  | .sFinal => s.stream.phase = .opened ∧ s.stream.res.length ≤ 128
      ∧ t = setDone (setStream (writeDigest s (streamDigest (s.config.algoFor s.stream.bits) s.stream) s.stream.bits)
          (closeStream s.stream)) false
  | .mac => ConfigLegal (currentConfig s)
      ∧ t = setDone (writeDigest s (macDigest (s.config.algoFor (currentConfig s).bits) (currentConfig s) (keyBytes s) (srcBytes s))
          (currentConfig s).bits) false
  | .mkBegin => ConfigLegal (currentConfig s)
      ∧ t = setDone (setMerkle s { isOpen := true, cfg := currentConfig s, nodes := [] }) false
  | .mkPush => s.merkle.isOpen = true ∧ NodeListHasRoom s
      ∧ ∃ h, hashDigest (s.config.algoFor s.merkle.cfg.bits) s.merkle.cfg (srcBytes s) = some h ∧ t = setDone (appendNode s h) false
  | .mkRoot => s.merkle.isOpen = true ∧ s.merkle.nodes ≠ []
      ∧ ∃ dg, merkleReduce (s.config.algoFor s.merkle.cfg.bits) s.merkle.cfg s.merkle.nodes = some dg
      ∧ t = setDone (setMerkle (writeDigest s dg s.merkle.cfg.bits) resetMerkle) false

/-- A command whose body, when it ends well, completes: all it can do if it answers a next state. -/
theorem runCommand_completes (i : Instr) (body : State → Except Stop State) (s t : State)
    (hb : ∀ u, body (countCommand s) = .ok u → Completes i (countCommand s) u)
    (h : runCommand i.opc body s = .next t) :
    s.busy = false ∧ ((s.err.isSome = true ∧ t = countCommand s)
      ∨ (s.err = none ∧ Completes i (countCommand s) t)
      ∨ (s.err = none ∧ ∃ c, t = raised s i.opc c)
      ∨ (s.err = none ∧ t = running s)) := by
  obtain ⟨h0, ⟨he, h1⟩ | ⟨he, h1⟩ | ⟨he, c, _, h1⟩ | ⟨he, _, h1⟩⟩ := runCommand_cases _ _ _ _ h
  · exact ⟨h0, .inl ⟨he, h1⟩⟩
  · exact ⟨h0, .inr (.inl ⟨he, hb _ h1⟩)⟩
  · exact ⟨h0, .inr (.inr (.inl ⟨he, c, h1⟩))⟩
  · exact ⟨h0, .inr (.inr (.inr ⟨he, h1⟩))⟩

/-- All that CLRERR can do. -/
theorem exec_clrerr_next (s t : State) (h : exec .clrerr s = .next t) :
    s.busy = false ∧ t = returnFromError (countCommand s) := by
  have h : execClrerr s = .next t := h
  cases hb : s.busy <;> simp [execClrerr, hb] at h
  exact ⟨rfl, h.symm⟩

/-- All that any other command can do if it answers a next state: it was ignored (60_exceptions.md R242), it completed,
it raised (R240, R241), or it never ends (43_dispatch_tree.md R187). -/
theorem exec_next (i : Instr) (hi : i ≠ .clrerr) (s t : State) (h : exec i s = .next t) :
    s.busy = false ∧ ((s.err.isSome = true ∧ t = countCommand s)
      ∨ (s.err = none ∧ Completes i (countCommand s) t)
      ∨ (s.err = none ∧ ∃ c, t = raised s i.opc c)
      ∨ (s.err = none ∧ t = running s)) := by
  cases i <;> first
    | exact absurd rfl hi
    | (simp only [exec, execNop, execWipe, execEnc, execDec, execUbi, execHash, execTree, execVerify, execSInit, execSUpdate, execSFinal,
         execMac, execMkBegin, execMkPush, execMkRoot] at h
       refine runCommand_completes _ _ s t (fun u hu => ?_) h
       simp only [bind_eq_ok, checkRange_ok_iff, validateConfig_ok_iff, require_ok_iff, checkTree_ok_iff,
         terminating_ok_iff, exists_const, pure, Except.pure, Except.ok.injEq] at hu
       simp only [Completes])
  case nop => exact hu.symm
  case wipe => exact hu.symm
  case enc => obtain ⟨h1, h2, h⟩ := hu; exact ⟨h1, h2, h.symm⟩
  case dec => obtain ⟨h1, h2, h⟩ := hu; exact ⟨h1, h2, h.symm⟩
  case ubi => obtain ⟨h1, h2, h⟩ := hu; exact ⟨h1, h2, h.symm⟩
  case hash => obtain ⟨h1, _, _, dg, h2, h⟩ := hu; exact ⟨h1, dg, h2, h.symm⟩
  case tree => obtain ⟨h1, _, _, dg, h2, h⟩ := hu; exact ⟨h1, dg, h2, h.symm⟩
  case verify => obtain ⟨h1, _, _, _, dg, h2, h⟩ := hu; exact ⟨h1, dg, h2, h.symm⟩
  case sInit => obtain ⟨h1, h⟩ := hu; exact ⟨h1, h.symm⟩
  case sUpdate => obtain ⟨h1, h2, h⟩ := hu; exact ⟨h1, h2, h.symm⟩
  case sFinal =>
    obtain ⟨h1, h2, h3, h⟩ := hu
    refine ⟨?_, h3, h.symm⟩
    cases hp : (countCommand s).stream.phase <;> simp_all
  case mac => obtain ⟨h1, _, _, h⟩ := hu; exact ⟨h1, h.symm⟩
  case mkBegin => obtain ⟨h1, h⟩ := hu; exact ⟨h1, h.symm⟩
  case mkPush => obtain ⟨h1, _, h2, _, dg, h3, h⟩ := hu; exact ⟨h1, h2, dg, h3, h.symm⟩
  case mkRoot => obtain ⟨h1, h2, _, dg, h3, h⟩ := hu; exact ⟨h1, h2, dg, h3, h.symm⟩

/-- Every command but CLRERR runs through the template of 30_encoding.md R88. -/
theorem exec_template (i : Instr) (hi : i ≠ .clrerr) : ∃ body, ∀ s, exec i s = runCommand i.opc body s := by
  cases i <;> first
    | exact absurd rfl hi
    | exact ⟨_, fun s => by
        simp only [exec, execNop, execWipe, execEnc, execDec, execUbi, execHash, execTree, execVerify, execSInit,
          execSUpdate, execSFinal, execMac, execMkBegin, execMkPush, execMkRoot]
        rfl⟩

/-- No command faults. -/
theorem exec_no_fault (i : Instr) (s : State) (r : Fault) : exec i s ≠ .fault r := by
  by_cases hi : i = .clrerr
  · subst hi
    show execClrerr s ≠ _
    unfold execClrerr
    split <;> simp
  · obtain ⟨body, hb⟩ := exec_template i hi
    rw [hb]
    exact runCommand_no_fault _ _ _ _

/-- A command is refused only while the core is BUSY (93 U7). -/
theorem exec_refused (i : Instr) (s : State) (r : Refusal) (h : exec i s = .refused r) :
    s.busy = true ∧ r = .accessWhileBusy := by
  by_cases hi : i = .clrerr
  · subst hi
    have h : execClrerr s = .refused r := h
    cases hb : s.busy <;> simp [execClrerr, hb] at h
    exact ⟨rfl, h.symm⟩
  · obtain ⟨body, hb⟩ := exec_template i hi
    rw [hb] at h
    exact runCommand_refused _ _ _ _ h

end Sys2Proof.Machine
end

