-- ==== Sys2Proof/Laws/Layouts.lean ====
section
/-! SUPPORT. Cutting a byte string: how many pieces there are and how long they are (41_ubi.md R133,
43_dispatch_tree.md R181, R182), and the lengths of digests (42_dispatch_seq_stream.md R160). -/

namespace Sys2Proof.Machine

theorem ceilDiv_zero (n : Nat) (hn : 0 < n) : ceilDiv 0 n = 0 := by
  unfold ceilDiv; exact Nat.div_eq_of_lt (by omega)

/-- One piece fewer once `n` elements are gone. -/
theorem ceilDiv_sub (k n : Nat) (hn : 0 < n) (hk : 0 < k) : ceilDiv k n = ceilDiv (k - n) n + 1 := by
  unfold ceilDiv
  by_cases h : n ≤ k
  · have e : k + n - 1 = (k - n + n - 1) + n := by omega
    rw [e, Nat.add_div_right _ hn]
  · have e : k + n - 1 = (k - 1) + n := by omega
    rw [e, Nat.add_div_right _ hn, Nat.div_eq_of_lt (by omega), Nat.div_eq_of_lt (by omega)]

theorem chunksUpTo_length {α : Type} (n : Nat) (hn : 0 < n) (fuel : Nat) (l : List α) (hf : l.length ≤ fuel) :
    (chunksUpTo n fuel l).length = ceilDiv l.length n := by
  induction fuel generalizing l with
  | zero =>
    have : l = [] := List.length_eq_zero_iff.mp (by omega)
    subst this; simp [chunksUpTo, ceilDiv_zero n hn]
  | succ fuel ih =>
    cases l with
    | nil => simp [chunksUpTo, ceilDiv_zero n hn]
    | cons a as =>
      rw [chunksUpTo, List.length_cons, ih _ (by simp only [List.length_drop, List.length_cons] at *; omega),
        List.length_drop, ← ceilDiv_sub _ n hn (by simp)]

/-- A list of `k` elements has `ceil(k/n)` groups of up to `n` (43_dispatch_tree.md R182). -/
theorem chunks_length {α : Type} (n : Nat) (hn : 0 < n) (l : List α) : (chunks n l).length = ceilDiv l.length n :=
  chunksUpTo_length n hn l.length l le_rfl

/-- A byte string has `max(1, ceil(len/n))` pieces (41_ubi.md R133, 43_dispatch_tree.md R181). -/
theorem pieces_length (n : Nat) (hn : 0 < n) (data : List Byte) : (pieces n data).length = leafCount data.length n := by
  cases data with
  | nil => simp [pieces, leafCount, ceilDiv_zero n hn]
  | cons b bs =>
    rw [pieces, chunks_length n hn, leafCount]
    have := ceilDiv_sub (b :: bs).length n hn (by simp)
    omega

/-- Fuel beyond the length of the list does not matter. -/
theorem chunksUpTo_fuel {α : Type} (n : Nat) (hn : 0 < n) (fuel : Nat) (l : List α) (hf : l.length ≤ fuel) :
    chunksUpTo n fuel l = chunks n l := by
  induction fuel using Nat.strongRecOn generalizing l with
  | _ fuel ih =>
    cases l with
    | nil => cases fuel <;> rfl
    | cons a as =>
      obtain ⟨f, rfl⟩ : ∃ f, fuel = f + 1 := ⟨fuel - 1, by simp at hf; omega⟩
      simp only [List.length_cons] at hf
      have hd : ((a :: as).drop n).length ≤ as.length := by simp only [List.length_drop, List.length_cons]; omega
      rw [chunks, List.length_cons, chunksUpTo, chunksUpTo, ih f (by omega) _ (by omega)]
      by_cases he : as.length = f
      · rw [he, ih f (by omega) _ (by omega)]
      · rw [ih as.length (by omega) _ hd]

/-- A list of at most `n` elements is one piece. -/
theorem chunks_short {α : Type} (n : Nat) (l : List α) (hne : l ≠ []) (hl : l.length ≤ n) : chunks n l = [l] := by
  cases l with
  | nil => exact absurd rfl hne
  | cons a as =>
    rw [chunks, List.length_cons, chunksUpTo, List.take_of_length_le hl, List.drop_of_length_le hl]
    cases as <;> rfl

/-- The first `n` elements are the first piece (43_dispatch_tree.md R181, R182). -/
theorem chunks_append {α : Type} (n : Nat) (l rest : List α) (hne : l ≠ []) (hl : l.length = n) :
    chunks n (l ++ rest) = l :: chunks n rest := by
  cases l with
  | nil => exact absurd rfl hne
  | cons a as =>
    have hn : 0 < n := by simp at hl; omega
    rw [chunks, List.cons_append, List.length_cons, chunksUpTo, ← List.cons_append, List.take_left' hl,
      List.drop_left' hl, chunksUpTo_fuel n hn _ _ (by simp)]

theorem chunksUpTo_piece_length {α : Type} (n fuel : Nat) (l p : List α) (h : p ∈ chunksUpTo n fuel l) :
    p.length ≤ n := by
  induction fuel generalizing l with
  | zero => simp [chunksUpTo] at h
  | succ fuel ih =>
    cases l with
    | nil => simp [chunksUpTo] at h
    | cons a as =>
      simp only [chunksUpTo, List.mem_cons] at h
      rcases h with rfl | h
      · simp
      · exact ih _ h

/-- No piece is longer than `n`: the guard of UbiBlock cannot fail inside a pass (60_exceptions.md R244). -/
theorem pieces_piece_length (n : Nat) (data p : List Byte) (h : p ∈ pieces n data) : p.length ≤ n := by
  cases data with
  | nil => simp [pieces] at h; simp [h]
  | cons b bs => exact chunksUpTo_piece_length n _ _ _ h

/-- A truncated digest has `bits/8` bytes (42_dispatch_seq_stream.md R153). -/
theorem truncDigest_length (G : Block) (bits : BitVec 16) (h : bits.toNat ∈ digestSizes) :
    (truncDigest G bits).length = digestBytes bits := by
  simp only [digestSizes, List.mem_cons, List.not_mem_nil, or_false] at h
  simp only [truncDigest, List.length_take, ser_length, digestBytes]
  omega

theorem treeLevel_length (A : Algo) (Gc : Block) (fan : Nat) (h : 0 < fan) (level : List Block) :
    (treeLevel A Gc fan level).length = ceilDiv level.length fan := by
  simp [treeLevel, chunks_length fan h]

theorem treeLeaves_length (A : Algo) (Gc : Block) (leaf : Nat) (h : 0 < leaf) (msg : List Byte) :
    (treeLeaves A Gc leaf msg).length = leafCount msg.length leaf := by
  simp [treeLeaves, pieces_length leaf h]

end Sys2Proof.Machine
end

