-- ==== Sys2Proof/Laws/PerInstr.lean ====
section
/-! SUPPORT. Statements about every instruction as syntax, one lemma a constructor: its command word is legal
(30_encoding.md R83) and carries its opcode, its argument and nothing else (R80, R82). -/

namespace Sys2Proof.Laws.LegalEncoding

/-- The command word of `i` is legal and has the opcode and argument of `i`. -/
def Statement (i : Instr) : Prop :=
  legalWord (encode i) = true ∧ wordOpc (encode i) = i.opc ∧ wordArg (encode i) = i.arg

theorem nop : Statement .nop := by unfold Statement; decide
theorem clrerr : Statement .clrerr := by unfold Statement; decide
theorem wipe : Statement .wipe := by unfold Statement; decide
theorem enc : Statement .enc := by unfold Statement; decide
theorem dec : Statement .dec := by unfold Statement; decide
theorem ubi (d : Byte) : Statement (.ubi d) := by revert d; unfold Statement; decide
theorem hash : Statement .hash := by unfold Statement; decide
theorem tree : Statement .tree := by unfold Statement; decide
theorem verify : Statement .verify := by unfold Statement; decide
theorem sInit : Statement .sInit := by unfold Statement; decide
theorem sUpdate : Statement .sUpdate := by unfold Statement; decide
theorem sFinal : Statement .sFinal := by unfold Statement; decide
theorem mac : Statement .mac := by unfold Statement; decide
theorem mkBegin : Statement .mkBegin := by unfold Statement; decide
theorem mkPush : Statement .mkPush := by unfold Statement; decide
theorem mkRoot : Statement .mkRoot := by unfold Statement; decide

end Sys2Proof.Laws.LegalEncoding
end

