-- ==== Sys2Proof/Laws/Stream.lean ====
section
/-! SUPPORT. What S_UPDATE's loop does to a streaming context (42_dispatch_seq_stream.md R157), said once. -/

namespace Sys2Proof.Machine

/-! ### One turn of the loop, field by field -/

@[simp] theorem consumeBlock_phase (A : Algo) (x : StreamCtx) : (consumeBlock A x).phase = x.phase := by
  simp only [consumeBlock]
@[simp] theorem consumeBlock_res (A : Algo) (x : StreamCtx) : (consumeBlock A x).res = x.res.drop 128 := by
  simp only [consumeBlock]
@[simp] theorem consumeBlock_pos (A : Algo) (x : StreamCtx) : (consumeBlock A x).pos = x.pos + 128 := by
  simp only [consumeBlock]
@[simp] theorem consumeBlock_total (A : Algo) (x : StreamCtx) : (consumeBlock A x).total = x.total := by
  simp only [consumeBlock]
@[simp] theorem consumeBlock_first (A : Algo) (x : StreamCtx) : (consumeBlock A x).first = false := by
  simp only [consumeBlock]
@[simp] theorem consumeBlock_bits (A : Algo) (x : StreamCtx) : (consumeBlock A x).bits = x.bits := by
  simp only [consumeBlock]
@[simp] theorem consumeBlock_wipe (A : Algo) (x : StreamCtx) : (consumeBlock A x).wipe = x.wipe := by
  simp only [consumeBlock]

/-- The context `y` is `x` after some turns of the loop: none, or `k` blocks of 128 bytes consumed with at least one
byte left over. -/
structure Consumed (x y : StreamCtx) : Prop where
  phase : y.phase = x.phase
  bits : y.bits = x.bits
  wipe : y.wipe = x.wipe
  total : y.total = x.total
  bytes : y.pos + BitVec.ofNat 64 y.res.length = x.pos + BitVec.ofNat 64 x.res.length
  blocks : y = x ∨ ∃ k, 1 ≤ k ∧ y.pos = x.pos + BitVec.ofNat 64 (128 * k) ∧ y.res = x.res.drop (128 * k)
    ∧ 128 * k < x.res.length ∧ y.first = false

theorem Consumed.refl (x : StreamCtx) : Consumed x x := ⟨rfl, rfl, rfl, rfl, rfl, .inl rfl⟩

/-- One turn, then more of them. -/
theorem Consumed.turn (A : Algo) (x y : StreamCtx) (hx : 128 < x.res.length) (h : Consumed (consumeBlock A x) y) :
    Consumed x y := by
  obtain ⟨h1, h2, h3, h4, h5, h6⟩ := h
  have hl : x.res.length = 128 + (consumeBlock A x).res.length := by simp; omega
  refine ⟨by simpa using h1, by simpa using h2, by simpa using h3, by simpa using h4, ?_, .inr ?_⟩
  · rw [h5, hl, consumeBlock_pos, BitVec.ofNat_add, BitVec.add_assoc]; rfl
  · rcases h6 with rfl | ⟨k, hk, h6, h7, h8, h9⟩
    · exact ⟨1, le_refl _, by simp, by simp, by omega, by simp⟩
    · refine ⟨k + 1, by omega, ?_, ?_, by omega, h9⟩
      · rw [h6, consumeBlock_pos, Nat.mul_add, BitVec.ofNat_add, BitVec.add_assoc, BitVec.add_comm (128 : Word)]; rfl
      · rw [h7, consumeBlock_res, List.drop_drop, Nat.mul_add, Nat.add_comm (128 * k)]

/-- All the loop can do. -/
theorem absorbBlocks_consumed (A : Algo) (turns : Nat) (x : StreamCtx) : Consumed x (absorbBlocks A turns x) := by
  induction turns generalizing x with
  | zero => exact .refl x
  | succ turns ih =>
    rw [absorbBlocks]
    split
    · next h => exact .turn A x _ h (ih _)
    · exact .refl x

/-- With enough turns the loop ends with at most one block left (10_state.md R33). -/
theorem absorbBlocks_residual (A : Algo) (turns : Nat) (x : StreamCtx) (h : x.res.length ≤ 128 + 128 * turns) :
    (absorbBlocks A turns x).res.length ≤ 128 := by
  induction turns generalizing x with
  | zero => simpa [absorbBlocks] using h
  | succ turns ih =>
    rw [absorbBlocks]
    split
    · exact ih _ (by simp; omega)
    · omega

end Sys2Proof.Machine
end

