-- ==== Sys2Proof/Tests/Slice0.lean ====
section
/-! SUPPORT. The model's own tests: words of the encoding table, the well-formedness checks on ill-formed terms, the
worked examples the spec prints, one step of each command, and a witness for the hypotheses of each statement. -/

namespace Sys2Proof.Tests

open Sys2Proof Sys2Proof.Machine

/-! ### Decoding: words written out from 30_encoding.md R80 and R82 (OPC in bits 7:0, ARG in bits 15:8) -/

theorem test_decode_nop : decode 0x0000000000000000 = .ok .nop := by decide
theorem test_decode_clrerr : decode 0x0000000000000001 = .ok .clrerr := by decide
theorem test_decode_wipe : decode 0x0000000000000002 = .ok .wipe := by decide
theorem test_decode_enc : decode 0x0000000000000010 = .ok .enc := by decide
theorem test_decode_dec : decode 0x0000000000000011 = .ok .dec := by decide
theorem test_decode_ubi_28 : decode 0x0000000000001C20 = .ok (.ubi 28) := by decide
theorem test_decode_ubi_200 : decode 0x000000000000C820 = .ok (.ubi 200) := by decide
theorem test_decode_hash : decode 0x0000000000000030 = .ok .hash := by decide
theorem test_decode_tree : decode 0x0000000000000031 = .ok .tree := by decide
theorem test_decode_verify : decode 0x0000000000000032 = .ok .verify := by decide
theorem test_decode_s_init : decode 0x0000000000000038 = .ok .sInit := by decide
theorem test_decode_s_update : decode 0x0000000000000039 = .ok .sUpdate := by decide
theorem test_decode_s_final : decode 0x000000000000003A = .ok .sFinal := by decide
theorem test_decode_mac : decode 0x0000000000000040 = .ok .mac := by decide
theorem test_decode_mk_begin : decode 0x0000000000000050 = .ok .mkBegin := by decide
theorem test_decode_mk_push : decode 0x0000000000000051 = .ok .mkPush := by decide
theorem test_decode_mk_root : decode 0x0000000000000052 = .ok .mkRoot := by decide

/-- 97_test_vectors_commands.md E13: the five illegal words printed there, with the reason of each. -/
theorem test_decode_illegal : decode 0x0000000000000003 = .error .opcode ∧ decode 0x0000000000000130 = .error .arg
    ∧ decode 0x0000000000010030 = .error .upperBits ∧ decode 0x00000000000000FF = .error .opcode
    ∧ decode 0x0000000000000101 = .error .arg := by decide

/-- Bit 63 alone makes a word illegal. -/
theorem test_decode_top_bit : decode 0x8000000000000000 = .error .upperBits := by decide

theorem test_decode_table_word : decodeTableWord 16 0x3020 = some (.ubi 48) ∧ decodeTableWord 8 0x30 = some .hash
    ∧ decodeTableWord 64 0x10030 = none := by decide

theorem test_encode_ubi : encode (.ubi 63) = 0x0000000000003F20 := by decide

/-! ### Well-formedness: each check refuses a term that fails it alone -/

theorem test_legalWord_accepts : legalWord 0x0000000000003020 = true := by decide
theorem test_legalWord_upper : legalWord 0x0001000000000000 = false := by decide
theorem test_legalWord_opcode : legalWord 0x0000000000000053 = false := by decide
theorem test_legalWord_arg : legalWord 0x0000000000000140 = false := by decide

theorem test_access_widths : HostAction.wf (.writeReg 8 2 0) = true ∧ HostAction.wf (.writeMem 4 0 0) = true
    ∧ HostAction.wf .reset = true := by decide
theorem test_access_bad_writeReg : HostAction.wf (.writeReg 4 2 0) = false := by decide
theorem test_access_bad_readReg : HostAction.wf (.readReg 1 2) = false := by decide
theorem test_access_bad_writeMem : HostAction.wf (.writeMem 3 0 0) = false := by decide
theorem test_access_bad_readMem : HostAction.wf (.readMem 16 0) = false := by decide

theorem test_pinned_params_wf : defaultConfig.wf = true := by decide
theorem test_algo_no_rounds : Algo.wf { pinnedAlgo with rounds := 0 } = false := by decide
theorem test_algo_rounds_not_mult4 : Algo.wf { pinnedAlgo with rounds := 74 } = false := by decide
theorem test_algo_rot_rows : Algo.wf { pinnedAlgo with rot := pinnedRot.tail } = false := by decide
theorem test_algo_rot_columns : Algo.wf { pinnedAlgo with rot := [1] :: pinnedRot.tail } = false := by decide
theorem test_algo_rot_zero :
    Algo.wf { pinnedAlgo with rot := [0, 13, 8, 47, 8, 17, 22, 37] :: pinnedRot.tail } = false := by decide
theorem test_algo_rot_64 :
    Algo.wf { pinnedAlgo with rot := [64, 13, 8, 47, 8, 17, 22, 37] :: pinnedRot.tail } = false := by decide
theorem test_algo_pi_length : Algo.wf { pinnedAlgo with pi := pinnedPi ++ [1] } = false := by decide
theorem test_algo_pi_not_bijection :
    Algo.wf { pinnedAlgo with pi := [0, 9, 2, 13, 6, 11, 4, 15, 10, 7, 12, 3, 14, 5, 8, 8] } = false := by decide
theorem test_algo_pairing_not_bijection : Algo.wf { pinnedAlgo with pairing := 1 :: pinnedPairing.tail } = false := by decide
theorem test_params_rounds : Params.wf { pinnedParams with rounds := { standard := 72, enhanced := 72, quantum := 71 } } = false := by
  decide
theorem test_securityMode : securityMode 256 = .standard ∧ securityMode 512 = .enhanced ∧ securityMode 1024 = .quantum := by
  decide
theorem test_algo_mode_tags : Algo.wf { pinnedAlgo with modeTag := [0, 1] } = false := by decide
theorem test_params_mkMax_zero : Config.wf { defaultConfig with mkMax := some 0 } = false := by decide
theorem test_params_treeNodeMax_zero : Config.wf { defaultConfig with treeNodeMax := some 0 } = false := by decide

/-! ### Pure functions: the examples the rules print -/

/-- 40_cipher.md R105: words 1 and 2, rotation 24 (round 0, pair 0), and 96_test_vectors_functions.md V7. -/
theorem test_mix_example :
    blockWord (mixRound pinnedAlgo (blockOf fun i => if i = 0 then 1 else if i = 1 then 2 else 0) 0) 0 = 3
      ∧ blockWord (mixRound pinnedAlgo (blockOf fun i => if i = 0 then 1 else if i = 1 then 2 else 0) 0) 1
        = 0x0000000002000003 := by decide

/-- 40_cipher.md R105: the addition wraps. -/
theorem test_mix_wraps :
    blockWord (mixRound pinnedAlgo (blockOf fun i => if i = 0 then 0xFFFFFFFFFFFFFFFF else if i = 1 then 1 else 0) 0) 0
      = 0 := by decide

/-- 96_test_vectors_functions.md V8. -/
theorem test_permute : (permute pinnedAlgo (blockOf fun i => BitVec.ofNat 64 i)).toList
    = [0, 9, 2, 13, 6, 11, 4, 15, 10, 7, 12, 3, 14, 5, 8, 1] := by decide

/-- 96_test_vectors_functions.md V8: the inverse table. -/
theorem test_invPermute : (invPermute pinnedAlgo (blockOf fun i => BitVec.ofNat 64 i)).toList
    = [0, 15, 2, 11, 6, 13, 4, 9, 14, 1, 8, 5, 10, 3, 12, 7] := by decide

/-- 40_cipher.md R107: both examples of the parity word. -/
theorem test_key_parity : (extKey zeroBlock).getD 16 0 = 0x1BD11BDAA9FC1A22
    ∧ (extKey (blockOf fun i => BitVec.ofNat 64 (i + 1))).getD 16 0 = 0x1BD11BDAA9FC1A32 := by decide

/-- 40_cipher.md R109: subkey 1 of the zero key and tweak. -/
theorem test_subkey : (subkey (extKey zeroBlock) (extTweak ⟨0, 0, 0⟩) 1).toList
    = List.replicate 15 0 ++ [0x1BD11BDAA9FC1A23] := by decide

/-- The key of vector V2: bytes 00 .. 7F. -/
def keyV2 : Block := words ((List.range 128).map (BitVec.ofNat 8))

/-- 96_test_vectors_functions.md V2: `Subkey(2)`, words 0, 13, 14, 15. -/
theorem test_subkey_V2 :
    let s := subkey (extKey keyV2) (extTweak ⟨0x0706050403020100, 0x0F0E0D0C0B0A0908, 0⟩) 2
    blockWord s 0 = 0x1F1E1D1C1B1A1918 ∧ blockWord s 13 = 0x7F7E7D7C7B7A7978
      ∧ blockWord s 14 = 0x22D720DEACFE1B22 ∧ blockWord s 15 = 0x0706050403020102 := by decide

/-- 96_test_vectors_functions.md V2: the data, bytes 80 .. FF, after `Subkey(0)` and round 0, words 0, 1, 3, 15. -/
theorem test_round_V2 :
    let v := permute pinnedAlgo (mixRound pinnedAlgo (addBlock (words ((List.range 128).map fun k => BitVec.ofNat 8 (128 + k)))
      (subkey (extKey keyV2) (extTweak ⟨0x0706050403020100, 0x0F0E0D0C0B0A0908, 0⟩) 0)) 0)
    blockWord v 0 = 0x342F2A25201B1610 ∧ blockWord v 1 = 0x33313F350B09060F
      ∧ blockWord v 3 = 0x78FF73F64A8D41C6 ∧ blockWord v 15 = 0xACB9BEB7B0858A8A := by decide

/-- 96_test_vectors_functions.md H0, UB4, UB5, UB6: tweaks of the tags 28, 48, 64 and 200. -/
theorem test_tweaks : (makeTweak 0x80 true true 28).t1 = 0xDC00000000000000
    ∧ (makeTweak 0x80 true false 48).t1 = 0x7000000000000000 ∧ (makeTweak 0x100 false false 48).t1 = 0x3000000000000000
    ∧ (makeTweak 0x12C false true 48).t1 = 0xB000000000000000 ∧ (makeTweak 0x80 true false 64).t1 = 0x4000000000000000
    ∧ (makeTweak 0x100 false true 64).t1 = 0xC000000000000000 ∧ (makeTweak 3 true true 200).t1 = 0xC800000000000000 := by
  decide

/-- 41_ubi.md R133: the blocks of 300 bytes have 128, 128 and 44 of them; of 128 bytes one; of none one empty. -/
theorem test_block_lengths : (chunksUpTo 128 3 (zeros 300)).map List.length = [128, 128, 44]
    ∧ (chunksUpTo 128 3 (zeros 128)).map List.length = [128] ∧ pieces 128 [] = [[]] := by decide +kernel

/-- 97_test_vectors_commands.md T6: 456 bytes in leaves of 100; levels of 5, 3, 2 nodes. -/
theorem test_leaf_counts : leafCount 456 100 = 5 ∧ leafCount 0 1024 = 1 ∧ leafCount 1025 1024 = 2
    ∧ (chunks 2 [0, 1, 2, 3, 4]).map List.length = [2, 2, 1] := by decide

/-- 42_dispatch_seq_stream.md R150: words 0, 1, 2 and the personalization "app-v1" of a 512-bit tree configuration. -/
theorem test_config_block :
    (configBlock pinnedAlgo { zeroCfg with bits := 512, pers := [0x61, 0x70, 0x70, 0x2D, 0x76, 0x31] } modeTree).take 32
      = [0x53, 0x48, 0x41, 0x33, 1, 0, 0, 0, 0, 2, 0, 0, 0, 0, 0, 0, 2, 0, 0, 0, 0, 0, 0, 0,
         0x61, 0x70, 0x70, 0x2D, 0x76, 0x31, 0, 0] := by decide

/-! ### The state the small tests and the witnesses start from -/

/-- A core after reset with CFG = `cfg`. -/
def ready (cfg : BitVec 24) : State := { State.reset with cfg := cfg }

/-- `s` with the data operand at `addr`, `len` bytes. -/
def withSrc (s : State) (addr len : Word) : State := { s with srcAddr := addr, srcLen := len }

/-- `s` with the error `c` of opcode `opc` pending. -/
def withErr (s : State) (c : Cause) (opc : Byte) : State := { s with err := some { cause := c, opc := opc } }

/-- `s` with an open, empty streaming context of 256 bits holding `n` zero bytes. -/
def withOpen (s : State) (n : Nat) : State :=
  { s with stream :=
      { phase := .opened, sg := zeroBlock, res := zeros n, pos := 0, total := BitVec.ofNat 64 n, first := true,
        bits := 256, wipe := false } }

/-- A 256-bit configuration of leaves of `leaf` bytes and fan-out `fan`. -/
def cfg256 (mode : BitVec 2) (leaf fan : Word) : CfgRec :=
  { zeroCfg with bits := 256, mode := mode, leaf := leaf, fan := fan }

/-- `s` with a Merkle session open under `cfg` that holds `n` zero digests. -/
def withMerkle (s : State) (cfg : CfgRec) (n : Nat) : State :=
  { s with merkle := { isOpen := true, cfg := cfg, nodes := List.replicate n (zeros 32) } }

/-- What a test looks at in a next state. -/
def look {α : Type} (r : Result) (f : State → α) : Option α :=
  match r with
  | .next t => some (f t)
  | _ => none

/-! ### One step of each command: STATUS values as the vectors print them -/

/-- 46_verify_system.md R221: DONE, CMD_COUNT 1. -/
theorem test_nop : look (step (State.reset.withFetchWord 8 0x00)) (fun t => (readReg t 1, readReg t 0x2D))
    = some (2, 1) := by decide

/-- 46_verify_system.md R222: CLRERR clears HASH's SIZE_UNKNOWN. -/
theorem test_clrerr : look (exec .clrerr (withErr State.reset .sizeUnknown 0x30)) (fun t => readReg t 1) = some 2 := by
  decide

/-- 60_exceptions.md R244: CLRERR leaves an InternalInvariant pending. -/
theorem test_clrerr_dead : look (exec .clrerr (withErr State.reset .ubiBlockOversize 0x3A)) (fun t => (readReg t 1, t.cmdCount))
    = some (0x3A400300, 1) := by decide

/-- 46_verify_system.md R223: the sessions and PERS_LEN go, CFG stays. -/
theorem test_wipe : look (exec .wipe { withMerkle (withOpen (ready 0x40100) 3) (cfg256 0 1 1) 2 with persLen := 9 })
    (fun t => (readReg t 1, readReg t 2, readReg t 5, readReg t 0x0F)) = some (2, 0x40100, 0, 0) := by decide

/-- 40_cipher.md R112: ENC completes from reset; a key at 65409 does not fit 65536 bytes (20_memory.md R63). -/
theorem test_enc : look (exec .enc State.reset) (fun t => (readReg t 1, readReg t 0x0E)) = some (2, 128)
    ∧ look (exec .enc { State.reset with keyAddr := 65409 }) (fun t => readReg t 1) = some 0x10250200 := by decide

/-- 40_cipher.md R113. -/
theorem test_dec : look (exec .dec State.reset) (fun t => (readReg t 1, readReg t 0x0E)) = some (2, 128)
    ∧ look (exec .dec { State.reset with srcAddr := 65409 }) (fun t => readReg t 1) = some 0x11250200 := by decide

/-- 41_ubi.md R137: no data at IMEM_SIZE is a legal operand, beyond it is not. -/
theorem test_ubi : look (exec (.ubi 200) (withSrc State.reset 65536 0)) (fun t => (readReg t 1, readReg t 0x0E))
      = some (2, 128)
    ∧ look (exec (.ubi 200) (withSrc State.reset 65537 0)) (fun t => readReg t 1) = some 0x20250200 := by decide

/-- 97_test_vectors_commands.md E1: HASH straight after reset raises SIZE_UNKNOWN; with 256 bits it completes. -/
theorem test_hash : look (step (State.reset.withFetchWord 8 0x30)) (fun t => readReg t 1) = some 0x30030100
    ∧ look (exec .hash (ready 0x100)) (fun t => (readReg t 1, readReg t 0x0E)) = some (2, 32) := by decide

/-- 97_test_vectors_commands.md E2: DIGEST_BITS = 100 raises SIZE_NOT_MULT8 first, whatever else is wrong. -/
theorem test_hash_priority :
    look (exec .hash (withSrc { ready 0x64 with fanOut := 0 } 65536 1)) (fun t => readReg t 1) = some 0x30020100 := by
  decide

/-- 97_test_vectors_commands.md E21: five leaves of 100 bytes do not fit an arena of 4; 43_dispatch_tree.md R187:
fan-out 1 over two leaves leaves BUSY. -/
theorem test_tree :
    look (exec .tree (withSrc { ready 0x100 with leafSize := 100, config := { defaultConfig with treeNodeMax := some 4 } } 0 401))
        (fun t => readReg t 1) = some 0x31260200
      ∧ look (exec .tree (withSrc { ready 0x100 with leafSize := 4, fanOut := 1 } 0 5)) (fun t => (t.busy, t.done, t.cmdCount))
        = some (true, false, 1) := by decide

/-- 43_dispatch_tree.md R187: a single leaf ends with fan-out 1 (97_test_vectors_commands.md T5). -/
theorem test_tree_one_leaf :
    look (exec .tree (withSrc { ready 0x100 with leafSize := 4, fanOut := 1 } 0 4)) (fun t => (readReg t 1, readReg t 0x0E))
      = some (2, 32) := by decide

/-- 46_verify_system.md R220: the expected digest must fit too; OUT_LEN is cleared. -/
theorem test_verify : look (exec .verify { ready 0x100 with expAddr := 65505 }) (fun t => readReg t 1) = some 0x32250200
    ∧ look (exec .verify { ready 0x100 with outLen := 128 }) (fun t => (t.done, readReg t 0x0E)) = some (true, 0) := by
  decide

/-- 97_test_vectors_commands.md E4: MODE = 3 raises MODE_RESERVED, here in MAC. -/
theorem test_mac : look (exec .mac (ready 0x30100)) (fun t => readReg t 1) = some 0x40060100
    ∧ look (exec .mac (ready 0x20400)) (fun t => (readReg t 1, readReg t 0x0E)) = some (2, 128) := by decide

/-- 97_test_vectors_commands.md E5: XFORM ≠ 0 raises in S_INIT; 42_dispatch_seq_stream.md R156: S_STATE becomes OPEN. -/
theorem test_s_init : look (exec .sInit (ready 0x100100)) (fun t => readReg t 1) = some 0x38070100
    ∧ look (exec .sInit (ready 0x40100)) (fun t => (readReg t 1, t.stream.wipe)) = some (0x0A, true) := by decide

/-- 42_dispatch_seq_stream.md R157: 128 residual bytes stay; one more byte consumes a block. -/
theorem test_s_update :
    look (exec .sUpdate (withSrc (withOpen State.reset 127) 0 1)) (fun t => (t.stream.res.length, t.stream.pos, t.stream.first))
        = some (128, 0, true)
      ∧ look (exec .sUpdate (withSrc (withOpen State.reset 128) 0 1)) (fun t => (t.stream.res.length, t.stream.pos, t.stream.total))
        = some (1, 128, 129) := by decide +kernel

/-- 97_test_vectors_commands.md E8, S1: S_FINAL with no session and on a finalized one. -/
theorem test_s_final : look (exec .sFinal State.reset) (fun t => readReg t 1) = some 0x3A220200
    ∧ look (exec .sFinal (withOpen State.reset 5)) (fun t => (readReg t 1, readReg t 0x0E, t.stream.res))
      = some (0x12, 32, []) := by decide

/-- 97_test_vectors_commands.md E6: LEAF_SIZE = 0 raises in MK_BEGIN; 45_merkle.md R206: MK_OPEN. -/
theorem test_mk_begin : look (exec .mkBegin { ready 0x100 with leafSize := 0 }) (fun t => readReg t 1) = some 0x50050100
    ∧ look (exec .mkBegin (withMerkle (ready 0x100) (cfg256 0 1 1) 2)) (fun t => (readReg t 1, readReg t 0x0F))
      = some (0x22, 0) := by decide

/-- 97_test_vectors_commands.md E22: the third push into a list of 2 raises; K1: a push counts. -/
theorem test_mk_push :
    look (exec .mkPush (withMerkle { State.reset with config := { defaultConfig with mkMax := some 2 } } (cfg256 0 1024 8) 2))
        (fun t => (readReg t 1, readReg t 0x0F)) = some (0x51260220, 2)
      ∧ look (exec .mkPush (withMerkle State.reset (cfg256 0 1024 8) 1)) (fun t => (readReg t 1, readReg t 0x0F))
        = some (0x22, 2) := by decide

/-- 97_test_vectors_commands.md E12: the root of an empty list raises and the session stays open; one node is its own
root (K8). -/
theorem test_mk_root : look (exec .mkRoot (withMerkle State.reset (cfg256 0 1024 8) 0)) (fun t => readReg t 1) = some 0x52210220
    ∧ look (exec .mkRoot (withMerkle State.reset (cfg256 0 1024 8) 1)) (fun t => (readReg t 1, readReg t 0x0E, readReg t 0x0F))
      = some (2, 32, 0) := by decide

/-! ### The host's accesses -/

/-- 97_test_vectors_commands.md G1: bits 63:24 of CFG are not stored; OUT_LEN and index 0x30 ignore writes. -/
theorem test_register_writes : readReg (writeReg State.reset 2 0xFFFFFFFFFF000100) 2 = 0xFF000100 &&& 0xFFFFFF
    ∧ readReg (writeReg State.reset 0x0E 5) 0x0E = 0 ∧ readReg (writeReg State.reset 0x30 5) 0x30 = 0
    ∧ readReg (writeReg State.reset 0x2C 7) 0x2C = 7 := by decide

/-- 20_memory.md R64: a 4-byte write is little-endian, and a 2-byte read inside it. -/
theorem test_memory_bytes :
    look (Host.Core.run Sys2Proof.core 2 { State.reset with script := [.writeMem 4 10 0x44332211, .readMem 2 11] })
      (fun t => t.answer) = some (some 0x3322) := by decide

/-- 20_memory.md R69: the last word of IMEM is at IMEM_SIZE - 8; one byte further is a bus error. -/
theorem test_memory_end :
    (look (step { State.reset with script := [.writeMem 8 65528 1] }) (fun t => t.imem.length) = some 8)
      ∧ step { State.reset with script := [.writeMem 8 65529 1] } = .fault .imemBusError := by
  refine ⟨by decide, rfl⟩

/-- 70_reset_and_hazards.md R261: the tree registers have S3's defaults after reset, also when it ends a running
command. -/
theorem test_reset :
    look (step { ready 0x100 with busy := true, leafSize := 0, script := [.reset] })
      (fun t => (readReg t 1, readReg t 2, readReg t 3, readReg t 4)) = some (0, 0, 1024, 8) := by decide

/-! ### Witnesses: for each statement with hypotheses a concrete case that meets all of them -/

/-- `s` with `a` as the host's next access. -/
def withAccess (s : State) (a : HostAction) : State := { s with script := [a] }

/-- `s` with an IMEM of `n` bytes, at most `m` Merkle nodes and at most `k` tree nodes. -/
def withParams (s : State) (n : Nat) (m k : Option Nat) : State :=
  { s with config := { defaultConfig with imemSize := n, mkMax := m, treeNodeMax := k } }

theorem witness_StepRunsTheDecodedCommand :
    let s := State.reset.withFetchWord 16 0x3020
    s.busy = false ∧ s.script = issueAccess 0x3020 :: [] ∧ decode 0x3020 = .ok (.ubi 48) := by decide

theorem witness_IllegalWordRaisesIllegalCmd :
    legalWord 0x0000000000010030 = false
      ∧ (let s := withAccess State.reset (issueAccess 0x0000000000010030)
         s.busy = false ∧ s.script = issueAccess 0x0000000000010030 :: [] ∧ s.err = none)
      ∧ (let s := withErr (withAccess State.reset (issueAccess 0x0000000000010030)) .illegalCmd 0x03
         s.busy = false ∧ s.script = issueAccess 0x0000000000010030 :: [] ∧ s.err.isSome = true) := by decide

/-- All three clauses: the word CLRERR with ARG = 1, the lowest register other than CMD, the last word of IMEM. -/
theorem witness_PendingErrorIgnoresCommands :
    let e := withErr State.reset .capacity 0x51
    e.busy = false ∧ e.err.isSome = true
      ∧ ((0x0000000000000101 : Word) ≠ 0x0000000000000001
        ∧ (withAccess e (issueAccess 0x101)).script = issueAccess 0x101 :: [])
      ∧ (withAccess e (.writeReg 8 1 5)).script = .writeReg 8 1 5 :: []
      ∧ (8 ∈ [1, 2, 4, 8] ∧ 65528 + 8 ≤ e.config.imemSize
        ∧ (withAccess e (.writeMem 8 65528 5)).script = .writeMem 8 65528 5 :: []) := by decide

/-- NopOnlyCountsAndSetsDone, WipeErasesKeyedState: with nothing pending, and with an error pending. -/
theorem witness_Ready : Ready State.reset ∧ Ready (withMerkle (withOpen (ready 0x40100) 3) (cfg256 0 1 1) 2)
    ∧ (withErr State.reset .capacity 0x51).busy = false ∧ (withErr State.reset .capacity 0x51).err.isSome = true := by
  decide

/-- ClrerrReturnsFromError: its three clauses. -/
theorem witness_ClrerrReturnsFromError :
    (withErr State.reset .sizeUnknown 0x30).busy = false
      ∧ (withErr State.reset .sizeUnknown 0x30).err = some { cause := .sizeUnknown, opc := 0x30 }
      ∧ causeKind .sizeUnknown ≠ .internalInvariant
      ∧ (withErr State.reset .ubiBlockOversize 0x3A).err = some { cause := .ubiBlockOversize, opc := 0x3A }
      ∧ causeKind .ubiBlockOversize = .internalInvariant ∧ State.reset.err = none := by decide

/-- EncWritesCiphertext, DecWritesPlaintext: the last key block of IMEM, data anywhere. -/
theorem witness_EncWritesCiphertext :
    let s := { State.reset with keyAddr := 65408, srcAddr := 1 }
    Ready s ∧ InImem s s.keyAddr 128 ∧ InImem s s.srcAddr 128 := by decide

/-- UbiWritesChainingValue: all of IMEM as data, and no data at the end of IMEM. -/
theorem witness_UbiWritesChainingValue :
    (let s := withSrc State.reset 0 65536
     Ready s ∧ InImem s s.keyAddr 128 ∧ InImem s s.srcAddr s.srcLen.toNat)
      ∧ (let s := withSrc State.reset 65536 0
         Ready s ∧ InImem s s.keyAddr 128 ∧ InImem s s.srcAddr s.srcLen.toNat) := by decide

theorem witness_DecryptInvertsEncrypt : pinnedAlgo.wf = true := by decide

/-- ThirdTweakWordIsIgnored: the pinned pairing, the last pair, the last word. -/
theorem witness_ThirdTweakWordIsIgnored :
    pinnedAlgo.pairing = [0, 1, 2, 3, 4, 5, 6, 7, 8, 9, 10, 11, 12, 13, 14, 15] ∧ 7 < 8 ∧ 15 < 16 := by decide

/-- UbiChainsItsBlocks: an empty and a full block, one full block and a last block of one byte, and a last block that
is full. -/
theorem witness_UbiChainsItsBlocks :
    ([] : List Byte).length ≤ 128 ∧ (∀ b ∈ [zeros 128], b.length = 128) ∧ zeros 1 ≠ [] ∧ (zeros 1).length ≤ 128
      ∧ zeros 128 ≠ [] ∧ (zeros 128).length ≤ 128 := by decide +kernel

/-- A core in tree mode with leaves of 100 bytes, fan-out 2 and an arena of 5 nodes: 456 bytes just fit (vector T6). -/
def treeCore : State :=
  withSrc (withParams { ready 0x020100 with leafSize := 100, fanOut := 2 } 65536 none (some 5)) 0 456

/-- HashWritesDigest, VerifySetsMatch, MacWritesDigest: sequential and tree mode. -/
theorem witness_HashWritesDigest :
    (let s := withSrc { ready 0x000100 with expAddr := 65504 } 0 3
     Ready s ∧ ConfigLegal (currentConfig s) ∧ InImem s s.srcAddr s.srcLen.toNat
       ∧ InImem s s.expAddr (digestBytes (currentConfig s).bits) ∧ InImem s s.keyAddr s.keyLen.toNat
       ∧ (currentConfig s).mode ≠ modeTree)
      ∧ (let s := treeCore
         Ready s ∧ ConfigLegal (currentConfig s) ∧ InImem s s.srcAddr s.srcLen.toNat
           ∧ InImem s s.expAddr (digestBytes (currentConfig s).bits) ∧ (currentConfig s).mode = modeTree
           ∧ TreeFits s.config (leafCount s.srcLen.toNat (currentConfig s).leaf.toNat)
           ∧ TreeEnds (currentConfig s) s.srcLen.toNat) := by decide

/-- TreeWritesDigest: fan-out 2 over five leaves, and fan-out 1 over one leaf. -/
theorem witness_TreeWritesDigest :
    (let s := treeCore
     Ready s ∧ ConfigLegal (currentConfig s) ∧ InImem s s.srcAddr s.srcLen.toNat
       ∧ TreeFits s.config (leafCount s.srcLen.toNat (currentConfig s).leaf.toNat) ∧ TreeEnds (currentConfig s) s.srcLen.toNat)
      ∧ (let s := withSrc { ready 0x000100 with fanOut := 1 } 0 1024
         Ready s ∧ ConfigLegal (currentConfig s) ∧ InImem s s.srcAddr s.srcLen.toNat
           ∧ TreeFits s.config (leafCount s.srcLen.toNat (currentConfig s).leaf.toNat)
           ∧ TreeEnds (currentConfig s) s.srcLen.toNat ∧ (currentConfig s).fan = 1) := by decide

/-- DigestResultWords, DigestLengths: each digest size, word 15 and word 4 of OUT, a digest of 32 bytes. -/
theorem witness_DigestSizes : (256#16).toNat ∈ digestSizes ∧ (512#16).toNat ∈ digestSizes
    ∧ (1024#16).toNat ∈ digestSizes ∧ 15 < 16 ∧ ¬ 4 < (256#16).toNat / 64 ∧ (zeros 32).length ≤ 128
    ∧ (openStream pinnedAlgo (cfg256 0 1 1)).bits = (cfg256 0 1 1).bits := by decide

/-- HashInTreeModeIsTree: TREE completes or runs on (first clause), TREE raises ADDR_RANGE (second clause). -/
theorem witness_HashInTreeModeIsTree :
    (currentConfig (ready 0x020100)).mode = modeTree
      ∧ look (exec .tree (ready 0x020100)) (fun t => (t.err, (ready 0x020100).err)) = some (none, none)
      ∧ look (exec .tree (withSrc (ready 0x020100) 65537 0)) (fun t => t.err)
        = some (some { cause := .addrRange, opc := 0x31 }) := by decide

/-- VerifyAgreesWithHash: a HASH that completes, with room for the expected digest. -/
theorem witness_VerifyAgreesWithHash :
    let s := ready 0x000100
    Ready s ∧ InImem s s.expAddr (digestBytes (currentConfig s).bits)
      ∧ look (exec .hash s) (fun t => (t.busy, t.err)) = some (false, none) := by decide

/-- TreeLoopTermination: a level of two nodes, fan-outs 1 and 2. -/
theorem witness_TreeLoopTermination :
    1 < [zeroBlock, zeroBlock].length ∧ 2 ≤ 2 ∧ [zeroBlock, zeroBlock] ≠ [] ∧ [zeroBlock, zeroBlock].length ≤ 2 := by decide

/-- TreeSmallShapes: no byte and exactly `L` bytes for the first clause; `L + 1` bytes and fan-out 2 for the second. -/
theorem witness_TreeSmallShapes :
    (cfg256 2 4 2).leaf ≠ 0 ∧ (zeros 0).length ≤ (cfg256 2 4 2).leaf.toNat ∧ (zeros 4).length ≤ (cfg256 2 4 2).leaf.toNat
      ∧ (cfg256 2 4 2).leaf.toNat < (zeros 5).length
      ∧ leafCount (zeros 5).length (cfg256 2 4 2).leaf.toNat ≤ (cfg256 2 4 2).fan.toNat := by decide

/-- FanOutOneNeverCompletes: 101 bytes in two leaves of 100; two nodes of 32 bytes, 64 bytes in two leaves of 63. -/
theorem witness_FanOutOneNeverCompletes :
    (let s := withSrc { ready 0x020100 with leafSize := 100, fanOut := 1 } 0 101
     Ready s ∧ ConfigLegal (currentConfig s) ∧ InImem s s.srcAddr s.srcLen.toNat ∧ (currentConfig s).fan = 1
       ∧ 1 < leafCount s.srcLen.toNat (currentConfig s).leaf.toNat
       ∧ TreeFits s.config (leafCount s.srcLen.toNat (currentConfig s).leaf.toNat) ∧ (currentConfig s).mode = modeTree
       ∧ InImem s s.expAddr (digestBytes (currentConfig s).bits))
      ∧ (let s := withSrc (withMerkle State.reset (cfg256 2 63 1) 2) 0 64
         Ready s ∧ s.merkle.isOpen = true ∧ InImem s s.srcAddr s.srcLen.toNat ∧ NodeListHasRoom s
           ∧ ConfigLegal s.merkle.cfg ∧ s.merkle.cfg.mode = modeTree ∧ s.merkle.cfg.fan = 1
           ∧ 1 < leafCount s.srcLen.toNat s.merkle.cfg.leaf.toNat
           ∧ TreeFits s.config (leafCount s.srcLen.toNat s.merkle.cfg.leaf.toNat)
           ∧ 1 < s.merkle.nodes.length ∧ (∀ n ∈ s.merkle.nodes, n.length = digestBytes s.merkle.cfg.bits) ∧ PairsFit s
           ∧ 1 < leafCount (2 * digestBytes s.merkle.cfg.bits) s.merkle.cfg.leaf.toNat) := by decide

/-- BusyStaysUntilReset: a STATUS read and a reset while a command runs. -/
theorem witness_BusyStaysUntilReset :
    look (step (withAccess (running State.reset) (.readReg 8 1))) (fun t => t.busy) = some true
      ∧ look (step (withAccess (running State.reset) .reset)) (fun t => t.busy) = some false := by decide

/-- MkBeginFreezesConfig: PERS_LEN beyond the 104 bytes of the personalization registers, the last of those bytes. -/
theorem witness_MkBeginFreezesConfig :
    let s := { ready 0x000100 with persLen := 105 }
    Ready s ∧ ConfigLegal (currentConfig s) ∧ 103 < min (readReg s 0x05).toNat 104
      ∧ (currentConfig s).pers.length = 104 := by decide

/-- SInitOpensContext, MkBeginFreezesConfig: also on a finalized context and with a session open. -/
theorem witness_SInitOpensContext :
    let s := withMerkle { ready 0x040400 with stream := closeStream resetStream } (cfg256 0 1 1) 2
    Ready s ∧ ConfigLegal (currentConfig s) ∧ s.stream.phase = .finalized := by decide

/-- SUpdateAbsorbsChunk, SFinalWritesDigest: 127 residual bytes and a chunk of one, the full block that is kept. -/
theorem witness_SUpdateAbsorbsChunk :
    let s := withSrc (withOpen State.reset 127) 65535 1
    Ready s ∧ s.stream.phase = .opened ∧ InImem s s.srcAddr s.srcLen.toNat
      ∧ s.stream.res.length + s.srcLen.toNat ≤ 128 ∧ s.stream.res.length ≤ 128 := by decide +kernel

/-- A host that runs a streaming session over two chunks, the second one empty at the end of IMEM. -/
def streamHost : State := { ready 0x010200 with script := streamSession [(0, 3), (65536, 0)] }

theorem witness_StreamingEqualsSequential :
    Ready streamHost ∧ ConfigLegal (currentConfig streamHost)
      ∧ (∀ c ∈ [((0 : Word), (3 : Word)), (65536, 0)], InImem streamHost c.1 c.2.toNat)
      ∧ streamHost.script = streamSession [(0, 3), (65536, 0)] ++ [] := by
  refine ⟨by decide, by decide, ?_, rfl⟩
  simp [InImem, streamHost, ready, State.reset, resetState, defaultConfig]

/-- StreamExactUntilWrap: an open context of 128 bytes, a chunk that fills the count, a context open afterwards. -/
theorem witness_StreamExactUntilWrap :
    let s := withSrc (withOpen State.reset 128) 0 1
    (s.stream.phase = .opened → StreamExact s.stream) ∧ s.stream.total.toNat + s.srcLen.toNat < 2 ^ 64
      ∧ look (exec .nop s) (fun t => t.stream.phase) = some .opened
      ∧ look (exec .sUpdate s) (fun t => t.stream.phase) = some .opened := by decide +kernel

/-- MkPushAppendsDigest: the last free place of a list of 2, in sequential and in tree mode. -/
theorem witness_MkPushAppendsDigest :
    (let s := withSrc (withMerkle (withParams State.reset 65536 (some 2) none) (cfg256 0 1024 8) 1) 0 3
     Ready s ∧ s.merkle.isOpen = true ∧ ConfigLegal s.merkle.cfg ∧ InImem s s.srcAddr s.srcLen.toNat ∧ NodeListHasRoom s
       ∧ s.merkle.cfg.mode ≠ modeTree)
      ∧ (let s := withSrc (withMerkle (withParams State.reset 65536 (some 2) (some 5)) (cfg256 2 100 2) 1) 0 456
         Ready s ∧ s.merkle.isOpen = true ∧ ConfigLegal s.merkle.cfg ∧ InImem s s.srcAddr s.srcLen.toNat
           ∧ NodeListHasRoom s ∧ TreeFits s.config (leafCount s.srcLen.toNat s.merkle.cfg.leaf.toNat)
           ∧ HashEnds s.merkle.cfg s.srcLen.toNat) := by decide

/-- MkRootWritesRoot: three nodes in sequential mode, and in tree mode pairs of 64 bytes in an arena of one node. -/
theorem witness_MkRootWritesRoot :
    (let s := withMerkle State.reset (cfg256 0 1024 8) 3
     Ready s ∧ s.merkle.isOpen = true ∧ ConfigLegal s.merkle.cfg ∧ s.merkle.nodes ≠ []
       ∧ (∀ n ∈ s.merkle.nodes, n.length = digestBytes s.merkle.cfg.bits) ∧ PairsFit s)
      ∧ (let s := withMerkle (withParams State.reset 65536 none (some 1)) (cfg256 2 64 1) 3
         Ready s ∧ s.merkle.isOpen = true ∧ ConfigLegal s.merkle.cfg ∧ s.merkle.nodes ≠ []
           ∧ (∀ n ∈ s.merkle.nodes, n.length = digestBytes s.merkle.cfg.bits) ∧ PairsFit s
           ∧ s.merkle.cfg.mode = modeTree ∧ TreeEnds s.merkle.cfg (2 * digestBytes s.merkle.cfg.bits)) := by decide

/-- A host that runs a Merkle session over three transactions, the last one empty. -/
def merkleHost : State :=
  withParams { ready 0x000100 with script := merkleSession [(0, 3), (3, 3), (6, 0)] } 65536 (some 3) (some 1)

theorem witness_MerkleSessionComputesRoot :
    Ready merkleHost ∧ ConfigLegal (currentConfig merkleHost) ∧ (currentConfig merkleHost).mode ≠ modeTree
      ∧ (∀ c ∈ [((0 : Word), (3 : Word)), (3, 3), (6, 0)], InImem merkleHost c.1 c.2.toNat)
      ∧ merkleHost.config.mkMax = some 3
      ∧ merkleHost.script = merkleSession [(0, 3), (3, 3), (6, 0)] ++ []
      ∧ ∃ hs : List (List Byte), [((0 : Word), (3 : Word)), (3, 3), (6, 0)].map
          (fun c => hashDigest (merkleHost.config.algoFor (currentConfig merkleHost).bits) (currentConfig merkleHost) (chunkBytes merkleHost c))
          = hs.map some := by
  refine ⟨by decide, by decide, by decide, ?_, rfl, rfl, ?_⟩
  · simp [InImem, merkleHost, withParams, ready, State.reset, resetState, defaultConfig]
  · refine ⟨[(0, 3), (3, 3), (6, 0)].map (fun c => hashSeq (merkleHost.config.algoFor (currentConfig merkleHost).bits) (currentConfig merkleHost)
      (currentConfig merkleHost).mode (chunkBytes merkleHost c)), ?_⟩
    simp [hashDigest, show ((currentConfig merkleHost).mode = modeTree) = False by decide]

/-- MerkleOddNodeIsCarriedUp: a level of three nodes, in sequential mode and in a tree mode whose pair hash ends. -/
theorem witness_MerkleOddNodeIsCarriedUp : pinnedAlgo.oddNode = .carryUp ∧ (cfg256 1 1 1).mode ≠ modeTree
    ∧ 2 * 0 + 1 < [zeros 32, zeros 32, zeros 32].length ∧ [zeros 32, zeros 32, zeros 32].length % 2 = 1
    ∧ (hashDigest pinnedAlgo (cfg256 0 1 1) (zeros 32 ++ zeros 32)).isSome = true := by decide

/-- MerkleOddNodeIsCarriedUp, a pair hash that does not end: fan-out 1 over two leaves of 32 bytes. -/
theorem witness_MerklePairNeverEnds : hashDigest pinnedAlgo (cfg256 2 32 1) (zeros 32 ++ zeros 32) = none := rfl

/-- DigestsRunTheirPasses: 104 bytes of personalization, one leaf of exactly `L` bytes, a full leaf with a byte after
it, a full and a short group, a level of two nodes. -/
theorem witness_DigestsRunTheirPasses : ({ cfg256 2 32 1 with pers := zeros 104 } : CfgRec).pers.length ≤ 104
    ∧ pinnedAlgo.modeTag = [0, 1, 2] ∧ modeTree ≠ 3 ∧ zeros 32 ≠ [] ∧ (zeros 32).length ≤ (cfg256 2 32 1).leaf.toNat
    ∧ (zeros 32).length = (cfg256 2 32 1).leaf.toNat ∧ zeros 1 ≠ []
    ∧ [zeroBlock, zeroBlock] ≠ [] ∧ [zeroBlock, zeroBlock].length = 2 ∧ [zeroBlock].length ≤ 2
    ∧ 1 < [zeroBlock, zeroBlock].length := by decide

/-- ConfigErrorsRaiseInOrder: each of the seven causes is the first failing check of some register contents. -/
theorem witness_ConfigErrorsRaiseInOrder : Ready (ready 0x64)
    ∧ firstConfigError (currentConfig (ready 0x000064)) = some .sizeNotMult8
    ∧ firstConfigError (currentConfig (ready 0x000180)) = some .sizeUnknown
    ∧ firstConfigError (currentConfig (ready 0xF30100)) = some .modeReserved
    ∧ firstConfigError (currentConfig { ready 0x100100 with fanOut := 0 }) = some .xformUnsupported
    ∧ firstConfigError (currentConfig { ready 0x000100 with fanOut := 0, leafSize := 0 }) = some .fanoutZero
    ∧ firstConfigError (currentConfig { ready 0x080100 with leafSize := 0, persLen := 105 }) = some .leafZero
    ∧ firstConfigError (currentConfig { ready 0x080100 with persLen := 105 }) = some .persTooLong
    ∧ firstConfigError (currentConfig { ready 0x080100 with persLen := 104 }) = none := by decide

/-- OperandOutsideImemRaises: each clause one byte beyond the end of IMEM, and an address that would wrap. -/
theorem witness_OperandOutsideImemRaises :
    (let s := { ready 0x000100 with keyAddr := 65409 }
     Ready s ∧ ConfigLegal (currentConfig s) ∧ ¬ (InImem s s.keyAddr 128 ∧ InImem s s.srcAddr 128)
       ∧ ¬ (InImem s s.keyAddr 128 ∧ InImem s s.srcAddr s.srcLen.toNat))
      ∧ (let s := withSrc (withMerkle (withOpen (ready 0x000100) 0) (cfg256 0 1 1) 0) 65537 0
         Ready s ∧ ConfigLegal (currentConfig s) ∧ ¬ InImem s s.srcAddr s.srcLen.toNat ∧ s.stream.phase = .opened
           ∧ s.merkle.isOpen = true)
      ∧ (let s := { ready 0x000100 with expAddr := 65505 }
         Ready s ∧ ConfigLegal (currentConfig s)
           ∧ ¬ (InImem s s.srcAddr s.srcLen.toNat ∧ InImem s s.expAddr (digestBytes (currentConfig s).bits)))
      ∧ (let s := { ready 0x000100 with keyAddr := 0xFFFFFFFFFFFFFFFF, keyLen := 2 }
         Ready s ∧ ConfigLegal (currentConfig s)
           ∧ ¬ (InImem s s.keyAddr s.keyLen.toNat ∧ InImem s s.srcAddr s.srcLen.toNat)) := by decide

/-- SessionStateErrors: the three phases, a closed and an empty list. -/
theorem witness_SessionStateErrors :
    Ready State.reset ∧ State.reset.stream.phase = .empty ∧ State.reset.stream.phase ≠ .opened
      ∧ State.reset.merkle.isOpen = false
      ∧ (let s := { State.reset with stream := closeStream resetStream }
         Ready s ∧ s.stream.phase = .finalized)
      ∧ (let s := withMerkle State.reset (cfg256 0 1 1) 0
         Ready s ∧ s.merkle.isOpen = true ∧ s.merkle.nodes = []) := by decide

/-- CapacityErrors: five leaves in an arena of four (E21), a third node in a list of two (E22), pairs of two leaves in an
arena of one. -/
theorem witness_CapacityErrors :
    (let s := withSrc (withParams { ready 0x020100 with leafSize := 100 } 65536 none (some 4)) 0 401
     Ready s ∧ ConfigLegal (currentConfig s) ∧ InImem s s.srcAddr s.srcLen.toNat
       ∧ ¬ TreeFits s.config (leafCount s.srcLen.toNat (currentConfig s).leaf.toNat) ∧ (currentConfig s).mode = modeTree
       ∧ InImem s s.expAddr (digestBytes (currentConfig s).bits))
      ∧ (let s := withMerkle (withParams State.reset 65536 (some 2) none) (cfg256 0 1 1) 2
         Ready s ∧ s.merkle.isOpen = true ∧ InImem s s.srcAddr s.srcLen.toNat ∧ ¬ NodeListHasRoom s)
      ∧ (let s := withSrc (withMerkle (withParams State.reset 65536 (some 3) (some 1)) (cfg256 2 63 2) 2) 0 64
         Ready s ∧ s.merkle.isOpen = true ∧ InImem s s.srcAddr s.srcLen.toNat ∧ s.merkle.cfg.mode = modeTree
           ∧ ¬ TreeFits s.config (leafCount s.srcLen.toNat s.merkle.cfg.leaf.toNat) ∧ s.merkle.nodes ≠ [] ∧ ¬ PairsFit s) := by
  decide

/-- ErrorsArePrecise, CausesPerCommand, InternalInvariantIsUnreachable: a command that raises from a state in order. -/
theorem witness_ErrorsArePrecise :
    State.reset.err = none ∧ StreamInv State.reset.stream ∧ State.reset.stream.res.length ≤ 128
      ∧ look (exec .hash State.reset) (fun t => t.err) = some (some { cause := .sizeUnknown, opc := 0x30 })
      ∧ look (step (withAccess State.reset (issueAccess 0x130))) (fun t => t.err)
        = some (some { cause := .illegalCmd, opc := 0x30 }) := by decide

/-- StatusFields: with and without an error (its first clause has no hypothesis). -/
theorem witness_StatusFields :
    State.reset.busy = false ∧ State.reset.err = none
      ∧ (withErr State.reset .capacity 0x51).err = some { cause := .capacity, opc := 0x51 } := by decide

/-- CommandsLeaveHostStateAlone, OnlyListedCommandsWrite: a command that answers a next state. -/
theorem witness_CommandsLeaveHostStateAlone :
    look (exec .enc State.reset) (fun t => t.imem) = some [] := by decide

/-- EveryCommandWriteCounts: the count wraps. -/
theorem witness_EveryCommandWriteCounts :
    let s := withAccess { State.reset with cmdCount := 0xFFFFFFFFFFFFFFFF } (issueAccess 0x10030)
    s.script = issueAccess 0x10030 :: [] ∧ look (step s) (fun t => t.cmdCount) = some 0 := by decide

/-- A state with both sessions open, a result, a byte of IMEM and a host about to write S_FINAL. -/
def fullCore : State :=
  { withMerkle (withOpen (ready 0x000100) 128) (cfg256 0 1024 8) 2 with
    outLen := 32, out := blockOf fun i => if i < 4 then 7 else 0, imem := [(65535, 1)],
    script := [issueAccess (encode .sFinal)] }

/-- EveryStepKeepsInv: a state far from reset meets the invariant and steps. -/
theorem witness_EveryStepKeepsInv : Inv fullCore ∧ look (step fullCore) (fun t => t.done) = some true := by
  refine ⟨⟨⟨?_, ?_, ?_⟩, ⟨?_, ?_, ?_⟩, ⟨?_, ?_⟩, ⟨?_, ?_⟩, ⟨?_, ?_⟩⟩, ?_⟩ <;> decide +kernel

/-- ResetGivesResetValues: reset while a command runs. -/
theorem witness_ResetGivesResetValues :
    (withAccess (running State.reset) .reset).script = .reset :: [] := by decide

/-- RegisterWriteThenRead: every range of indexes at its two ends, a state in order and one with an error pending. -/
theorem witness_RegisterWriteThenRead : (0x02 ≠ 0 ∧ 0x03 ≤ 0x0D ∧ 0x20 ≤ 0x2C)
    ∧ (0x0E ≤ 0x0E ∧ 0x0E ≤ 0x1F) ∧ (0x0E ≤ 0x1F ∧ 0x1F ≤ 0x1F) ∧ 0x2D ≤ 0x2D
    ∧ (let s := withAccess (withErr State.reset .capacity 0x51) (.writeReg 8 0x2C 5)
       s.busy = false ∧ s.script = .writeReg 8 0x2C 5 :: [] ∧ look (step s) (fun t => readReg t 0x2C) = some 5)
    ∧ (let s := withAccess State.reset (.writeReg 8 0x2D 5)
       s.busy = false ∧ s.script = .writeReg 8 0x2D 5 :: [] ∧ look (step s) (fun t => readReg t 0x2D) = some 0)
    ∧ (let s := withAccess State.reset (.writeReg 8 0x08 5)
       s.busy = false ∧ s.script = .writeReg 8 0x08 5 :: []
         ∧ look (step s) (fun t => (t.keyAddr, t.keyLen)) = some (5, 0)) := by decide

/-- ReservedRegistersReadZero: the first reserved index. -/
theorem witness_ReservedRegistersReadZero : 0x2E ≤ 0x2E := by decide

/-- HostReadsHaveNoSideEffect: no access, a register read and the last byte of IMEM, and a STATUS read while BUSY. -/
theorem witness_HostReadsHaveNoSideEffect :
    State.reset.script = [] ∧ State.reset.busy = false ∧ 1 ∈ [1, 2, 4, 8] ∧ 65535 + 1 ≤ State.reset.config.imemSize
      ∧ look (step (withAccess State.reset (.readReg 8 3))) (fun t => t.answer) = some (some 1024)
      ∧ look (step (withAccess { State.reset with imem := [(65535, 9)] } (.readMem 1 65535))) (fun t => t.answer)
        = some (some 9)
      ∧ look (step (withAccess (running State.reset) (.readReg 8 1))) (fun t => t.busyReads) = some 1 := by decide

/-- HostMemWriteIsLittleEndian: the last word of IMEM, an unaligned byte pair. -/
theorem witness_HostMemWriteIsLittleEndian :
    let s := withAccess State.reset (.writeMem 8 65528 1)
    s.busy = false ∧ 8 ∈ [1, 2, 4, 8] ∧ 65528 + 8 ≤ s.config.imemSize ∧ s.script = .writeMem 8 65528 1 :: []
      ∧ 2 ∈ [1, 2, 4, 8] ∧ 65533 + 2 ≤ s.config.imemSize := by decide

/-- BadHostAccessesStop: one byte beyond IMEM, three bytes, a half-word register access. -/
theorem witness_BadHostAccessesStop :
    State.reset.busy = false ∧ 8 ∈ [1, 2, 4, 8] ∧ State.reset.config.imemSize < 65529 + 8 ∧ 3 ∉ [1, 2, 4, 8] ∧ 4 ≠ 8
      ∧ (withAccess State.reset (.writeMem 8 65529 1)).script = .writeMem 8 65529 1 :: []
      ∧ (withAccess State.reset (.readMem 3 0)).script = .readMem 3 0 :: []
      ∧ (withAccess State.reset (.writeReg 4 2 1)).script = .writeReg 4 2 1 :: [] := by decide

/-- BusyContract: each clause, the result registers at both ends. -/
theorem witness_BusyContract :
    (running State.reset).busy = true
      ∧ (withAccess (running State.reset) (.writeReg 8 0 1)).script = .writeReg 8 0 1 :: []
      ∧ (8 ∈ [1, 2, 4, 8] ∧ (withAccess (running State.reset) (.writeMem 8 0 1)).script = .writeMem 8 0 1 :: [])
      ∧ (0x0E ≤ 0x1F ∧ (withAccess (running State.reset) (.readReg 8 0x1F)).script = .readReg 8 0x1F :: [])
      ∧ (withAccess (running State.reset) (.readReg 8 0x01)).script = .readReg 8 0x01 :: [] := by decide

end Sys2Proof.Tests
end

section
/-! SUPPORT. The decoder accepts exactly the legal command words, and what the core does with the others
(30_encoding.md R83, R84). -/

namespace Sys2Proof

/-! ### The fields of a legal word -/

/-- The opcode map is defined on the sixteen opcodes of 30_encoding.md R82, whatever the argument. -/
theorem decodeOpcode_isSome (opc arg : Byte) : (decodeOpcode opc arg).isSome = legalOpcodes.contains opc := by
  unfold decodeOpcode
  split
  case h_17 => simp_all [legalOpcodes]
  all_goals rfl

/-- 30_encoding.md R83, read off the fields of R80. -/
theorem legalWord_iff (w : Word) :
    legalWord w = true ↔
      wordUpper w = 0 ∧ (decodeOpcode (wordOpc w) (wordArg w)).isSome = true ∧ (wordArg w = 0 ∨ wordOpc w = 0x20) := by
  rw [decodeOpcode_isSome]
  simp only [legalWord, wordUpper, wordOpc, wordArg, Bool.and_eq_true, Bool.or_eq_true, beq_iff_eq, and_assoc]
  rfl

/-! ### The decoder on legal and on illegal words -/

/-- A legal word decodes to what the opcode map gives for its fields. -/
theorem decode_of_legal (w : Word) (h : legalWord w = true) :
    ∃ i, decodeOpcode (wordOpc w) (wordArg w) = some i ∧ decode w = .ok i := by
  obtain ⟨hupper, hopc, harg⟩ := (legalWord_iff w).mp h
  obtain ⟨i, hi⟩ := Option.isSome_iff_exists.mp hopc
  have hfields : ¬ (wordArg w ≠ 0 ∧ wordOpc w ≠ 0x20) := by tauto
  exact ⟨i, hi, by rw [decode, if_neg (not_not.mpr hupper), if_neg hfields, hi]⟩

/-- An illegal word has an illegal field, and each of the three is found by a branch of the decoder. -/
theorem decode_of_illegal (w : Word) (h : legalWord w = false) : ∃ e, decode w = .error e := by
  have hlegal : ¬ legalWord w = true := by simp [h]
  rw [legalWord_iff] at hlegal
  unfold decode
  split
  · exact ⟨_, rfl⟩
  split
  · exact ⟨_, rfl⟩
  next hupper hfields =>
    have hopc : decodeOpcode (wordOpc w) (wordArg w) = none := by
      rw [← Option.not_isSome_iff_eq_none]
      tauto
    rw [hopc]
    exact ⟨_, rfl⟩

/-- Settles O1: a legal word decodes, an illegal one does not. -/
theorem decodeAcceptsExactlyLegalWords : Obligations.DecodeAcceptsExactlyLegalWords := by
  intro w
  constructor
  · rintro ⟨i, hi⟩
    by_contra hlegal
    obtain ⟨e, he⟩ := decode_of_illegal w (by simpa using hlegal)
    simp [hi] at he
  · intro hlegal
    obtain ⟨i, -, hi⟩ := decode_of_legal w hlegal
    exact ⟨i, hi⟩

end Sys2Proof

namespace Sys2Proof.Machine

/-! ### An illegal word written to CMD -/

/-- Writing an illegal word to CMD runs the command that only raises (30_encoding.md R84). -/
theorem issueWord_of_illegal (w : Word) (s : State) (h : legalWord w = false) :
    issueWord w s = illegalCommand w s := by
  obtain ⟨e, he⟩ := decode_of_illegal w h
  simp only [issueWord, he]

theorem illegalCommand_ready (w : Word) (s : State) (h : Ready s) :
    illegalCommand w s = .next (raised s (wordOpc w) .illegalCmd) :=
  runCommand_ready _ _ s h

theorem illegalCommand_pending (w : Word) (s : State) (hb : s.busy = false) (he : s.err.isSome = true) :
    illegalCommand w s = .next (countCommand s) :=
  runCommand_pending _ _ s hb he

/-- Settles O5: the step is the illegal command on the state without that access, with an error pending or not. -/
theorem illegalWordRaisesIllegalCmd : Obligations.IllegalWordRaisesIllegalCmd := by
  intro s w rest hb hlegal hscript
  have hstep : step s = illegalCommand w { s with script := rest } := by
    rw [step_cons s _ rest hscript, hostAccess_issue { s with script := rest } w hb, issueWord_of_illegal w _ hlegal]
  rw [hstep]
  constructor
  · intro he
    exact illegalCommand_ready w _ ⟨hb, he⟩
  · intro he
    exact illegalCommand_pending w _ hb he

end Sys2Proof.Machine
end

section
/-! SUPPORT. HASH in the tree layout is TREE under another opcode (43_dispatch_tree.md R185). -/

namespace Sys2Proof.Machine

/-! ### The opcode in the command template -/

/-- The body runs on the counted state only, so it is known by its value there. -/
theorem runCommand_congr (opc : Byte) {body body' : State → Except Stop State} (s : State)
    (h : body (countCommand s) = body' (countCommand s)) : runCommand opc body s = runCommand opc body' s := by
  simp only [runCommand, h]

/-- One body under two opcodes: the same next state, unless the body raises, which alone records the opcode
(60_exceptions.md R240). -/
theorem runCommand_other_opc (opc opc' : Byte) (body : State → Except Stop State) (s t : State)
    (h : runCommand opc body s = .next t) :
    runCommand opc' body s = .next t
      ∨ ∃ c, s.err = none ∧ t = raised s opc c ∧ runCommand opc' body s = .next (raised s opc' c) := by
  obtain ⟨hb, ⟨he, rfl⟩ | ⟨he, hok⟩ | ⟨he, c, hraises, rfl⟩ | ⟨he, hnever, rfl⟩⟩ := runCommand_cases opc body s t h
  · exact .inl (runCommand_pending opc' body s hb he)
  · exact .inl (by rw [runCommand_ready opc' body s ⟨hb, he⟩, hok])
  · exact .inr ⟨c, he, rfl, by rw [runCommand_ready opc' body s ⟨hb, he⟩, hraises]⟩
  · exact .inl (by rw [runCommand_ready opc' body s ⟨hb, he⟩, hnever])

/-! ### A pending error names the command that raised it -/

/-- Completing a command leaves ERR alone. -/
theorem Completes.err_eq {i : Instr} {s t : State} (h : Completes i s t) : t.err = s.err := by
  cases i <;> simp only [Completes] at h
  case nop | wipe => simp [h]
  case enc | dec | ubi | sUpdate | sFinal => obtain ⟨-, -, rfl⟩ := h; simp
  case hash | tree | verify => obtain ⟨-, dg, -, rfl⟩ := h; simp
  case sInit | mac | mkBegin => obtain ⟨-, rfl⟩ := h; simp
  case mkPush | mkRoot => obtain ⟨-, -, dg, -, rfl⟩ := h; simp

/-- A command that leaves an error where none was pending has raised it, under its own opcode. -/
theorem exec_eq_raised (i : Instr) (hi : i ≠ .clrerr) (s t : State) (e : ErrorRecord) (hs : s.err = none)
    (h : exec i s = .next t) (ht : t.err = some e) : t = raised s i.opc e.cause := by
  obtain ⟨-, ⟨he, -⟩ | ⟨-, hdone⟩ | ⟨-, c, rfl⟩ | ⟨-, rfl⟩⟩ := exec_next i hi s t h
  · simp [hs] at he
  · simp [hdone.err_eq, hs] at ht
  · cases ht; rfl
  · simp [hs] at ht

/-! ### The body of HASH in the tree layout -/

/-- In the tree layout TREE's configuration for the capacity check is the current one, and `Hash` is `TreeHash`
(42_dispatch_seq_stream.md R161), so the two commands run one body. -/
theorem exec_hash_tree_same_body (s : State) (h : (currentConfig s).mode = modeTree) :
    ∃ body, exec .tree s = runCommand Instr.tree.opc body s ∧ exec .hash s = runCommand Instr.hash.opc body s := by
  simp only [exec, execTree, execHash]
  refine ⟨_, rfl, runCommand_congr _ s ?_⟩
  have hcfg : { currentConfig s with mode := modeTree } = currentConfig s := by rw [← h]
  have hdigest : hashDigest (s.config.algoFor (currentConfig s).bits) (currentConfig s) (srcBytes s)
      = treeHash (s.config.algoFor (currentConfig s).bits) (currentConfig s) (srcBytes s) := if_pos h
  simp only [currentConfig_countCommand, srcBytes_countCommand, countCommand_config, hcfg, hdigest]

/-- What TREE answers, HASH in the tree layout answers too, unless TREE raises; then HASH raises the same cause. -/
theorem exec_hash_of_exec_tree (s t : State) (h : (currentConfig s).mode = modeTree) (ht : exec .tree s = .next t) :
    exec .hash s = .next t
      ∨ ∃ c, s.err = none ∧ t = raised s Instr.tree.opc c ∧ exec .hash s = .next (raised s Instr.hash.opc c) := by
  obtain ⟨body, htree, hhash⟩ := exec_hash_tree_same_body s h
  rw [hhash]
  exact runCommand_other_opc Instr.tree.opc Instr.hash.opc body s t (htree ▸ ht)

/-- Settles O22: where TREE raises nothing only the first case of `exec_hash_of_exec_tree` is left; where it raises, only
the second, for in the first HASH would have raised with TREE's opcode. -/
theorem hashInTreeModeIsTree : Obligations.HashInTreeModeIsTree := by
  intro s hmode
  constructor
  · intro t ht hquiet
    rcases exec_hash_of_exec_tree s t hmode ht with hsame | ⟨c, hnone, rfl, -⟩
    · exact hsame
    · simp [hnone] at hquiet
  · intro t c hs ht herr
    rcases exec_hash_of_exec_tree s t hmode ht with hsame | ⟨c', -, rfl, hraises⟩
    · rw [exec_eq_raised .hash (by decide) s t _ hs hsame herr] at herr
      simp [Instr.opc] at herr
    · cases herr
      exact hraises

end Sys2Proof.Machine
end

section
/-! SUPPORT. NOP and CLRERR: the common changes of a command, and the return from an error (46_verify_system.md R221,
R222). -/

namespace Sys2Proof.Machine

/-! ### NOP -/

/-- The changes common to all commands that complete (30_encoding.md R88), with nothing else written. -/
theorem done_count (s : State) :
    setDone (countCommand s) false = { s with cmdCount := s.cmdCount + 1, done := true, matched := false } := rfl

/-- NOP is the command template with a body that checks and computes nothing (46_verify_system.md R221). -/
theorem exec_nop_eq (s : State) : exec .nop s = runCommand Instr.nop.opc (fun u => .ok (setDone u false)) s := rfl

theorem exec_nop_ready (s : State) (h : Ready s) : exec .nop s = .next (setDone (countCommand s) false) := by
  rw [exec_nop_eq, runCommand_ready _ _ s h]

theorem exec_nop_pending (s : State) (hb : s.busy = false) (he : s.err.isSome = true) :
    exec .nop s = .next (countCommand s) := by
  rw [exec_nop_eq, runCommand_pending _ _ s hb he]

/-- Settles O7: the command template on a ready core and with an error pending, for a body that writes nothing. -/
theorem nopOnlyCountsAndSetsDone : Obligations.NopOnlyCountsAndSetsDone := by
  intro s
  constructor
  · intro hready
    rw [exec_nop_ready s hready, done_count]
  · intro hb he
    exact exec_nop_pending s hb he

/-! ### The return from an error -/

theorem returnFromError_none (s : State) (h : s.err = none) : returnFromError s = setDone s false := by
  simp only [returnFromError, h]

/-- Only reset clears an error of kind 3 (60_exceptions.md R243). -/
theorem returnFromError_internalInvariant (s : State) (e : ErrorRecord) (h : s.err = some e)
    (hkind : causeKind e.cause = .internalInvariant) : returnFromError s = s := by
  simp only [returnFromError, h, if_pos hkind]

theorem returnFromError_clears (s : State) (e : ErrorRecord) (h : s.err = some e)
    (hkind : causeKind e.cause ≠ .internalInvariant) :
    returnFromError s = setDone { s with err := none } false := by
  simp only [returnFromError, h, if_neg hkind]

/-! ### CLRERR -/

/-- CLRERR on a core that is not BUSY counts and returns from the error, pending or not. -/
theorem exec_clrerr_idle (s : State) (hb : s.busy = false) :
    exec .clrerr s = .next (returnFromError (countCommand s)) := by
  have harm : exec .clrerr s = execClrerr s := rfl
  simp [harm, execClrerr, hb]

/-- With no error pending CLRERR does what NOP does (46_verify_system.md R222). -/
theorem exec_clrerr_eq_nop (s : State) (h : Ready s) : exec .clrerr s = exec .nop s := by
  obtain ⟨hb, he⟩ := h
  rw [exec_clrerr_idle s hb, returnFromError_none (countCommand s) he, exec_nop_ready s ⟨hb, he⟩]

/-- Settles O8: one clause for each case of the return from an error, on the counted state, whose ERR is that of `s`. -/
theorem clrerrReturnsFromError : Obligations.ClrerrReturnsFromError := by
  intro s hb
  refine ⟨?_, ?_, ?_⟩
  · intro e he hkind
    rw [exec_clrerr_idle s hb, returnFromError_clears (countCommand s) e he hkind]
    rfl
  · intro e he hkind
    rw [exec_clrerr_idle s hb, returnFromError_internalInvariant (countCommand s) e he hkind]
    rfl
  · intro he
    rw [exec_clrerr_eq_nop s ⟨hb, he⟩, exec_nop_ready s ⟨hb, he⟩, done_count]

end Sys2Proof.Machine
end

section
/-! SUPPORT. Errors are sticky and precise (60_exceptions.md R241, R242): what a pending error does to a CMD write, what
a raising command leaves, and the field facts about decoded words both rest on. -/

namespace Sys2Proof

/-! ### The fields of a word that decodes -/

/-- The opcode map gives a command only under that command's own opcode. -/
theorem opc_of_decodeOpcode {opc arg : Byte} {i : Instr} (h : decodeOpcode opc arg = some i) : i.opc = opc := by
  unfold decodeOpcode at h
  split at h <;> cases h <;> rfl

/-- Only legal words decode, so a decoded word has the fields of a legal one (30_encoding.md R83). -/
theorem fields_of_decode {w : Word} {i : Instr} (h : decode w = .ok i) :
    wordUpper w = 0 ∧ i.opc = wordOpc w ∧ (wordArg w = 0 ∨ wordOpc w = 0x20) := by
  have hlegal : legalWord w = true := decodeAcceptsExactlyLegalWords w |>.mp ⟨i, h⟩
  obtain ⟨hupper, -, harg⟩ := (legalWord_iff w).mp hlegal
  obtain ⟨j, hopcode, hj⟩ := decode_of_legal w hlegal
  obtain rfl : i = j := by simpa [h] using hj
  exact ⟨hupper, opc_of_decodeOpcode hopcode, harg⟩

/-- A word is its three fields in a row (30_encoding.md R80). -/
theorem word_eq_fields (w : Word) : wordUpper w ++ wordArg w ++ wordOpc w = w := by
  have hhigh : wordUpper w ++ wordArg w = w.extractLsb' 8 56 := BitVec.extractLsb'_append_extractLsb'_eq_extractLsb' rfl
  have hall : w.extractLsb' 8 56 ++ wordOpc w = w.extractLsb' 0 64 :=
    BitVec.extractLsb'_append_extractLsb'_eq_extractLsb' rfl
  rw [hhigh, hall, BitVec.extractLsb'_eq_self]

/-- Exactly one word is CLRERR (60_exceptions.md R242): its opcode takes no argument. -/
theorem eq_one_of_decode_clrerr {w : Word} (h : decode w = .ok .clrerr) : w = 0x0000000000000001 := by
  obtain ⟨hupper, hopc, harg⟩ := fields_of_decode h
  have hopc : wordOpc w = 0x01 := hopc.symm
  have harg : wordArg w = 0 := by simpa [hopc] using harg
  rw [← word_eq_fields w, hupper, hopc, harg]
  decide

end Sys2Proof

namespace Sys2Proof.Machine

/-! ### Commands while an error is pending -/

/-- While an error is pending every command but CLRERR only counts. -/
theorem exec_pending (i : Instr) (hi : i ≠ .clrerr) (s : State) (hb : s.busy = false) (he : s.err.isSome = true) :
    exec i s = .next (countCommand s) := by
  obtain ⟨body, hbody⟩ := exec_template i hi
  rw [hbody, runCommand_pending _ _ s hb he]

/-- While an error is pending every word but CLRERR's, legal or not, only counts (60_exceptions.md R242). -/
theorem issueWord_pending (w : Word) (hw : w ≠ 0x0000000000000001) (s : State) (hb : s.busy = false)
    (he : s.err.isSome = true) : issueWord w s = .next (countCommand s) := by
  unfold issueWord
  split
  next i hdecode =>
    have hi : i ≠ .clrerr := fun hi => hw (eq_one_of_decode_clrerr (hi ▸ hdecode))
    exact exec_pending i hi s hb he
  next => exact illegalCommand_pending w s hb he

/-! ### The host's writes to a core that is not BUSY -/

/-- A write of a register other than CMD (10_state.md R21) does the same with an error pending or not. -/
theorem hostAccess_writeReg (s : State) (idx : Nat) (v : Word) (hb : s.busy = false) (hidx : idx ≠ 0) :
    hostAccess (.writeReg 8 idx v) s = .next (writeReg s idx v) := by
  simp [hostAccess, hostWriteReg, hb, hidx]

/-- A write inside IMEM (20_memory.md R66) does the same with an error pending or not. -/
theorem hostAccess_writeMem (s : State) (width addr : Nat) (v : Word) (hb : s.busy = false)
    (hwidth : width ∈ imemWidths) (haddr : addr + width ≤ s.config.imemSize) :
    hostAccess (.writeMem width addr v) s
      = .next { s with imem := memWriteBytes s.imem addr (lowBytes width v) } := by
  simp [hostAccess, hostWriteMem, hb, hwidth, haddr]

/-- Settles O6: each clause is one host access on the state without it; of the three only the CMD write sees the
error. -/
theorem pendingErrorIgnoresCommands : Obligations.PendingErrorIgnoresCommands := by
  intro s w v rest idx width addr hb he
  refine ⟨?_, ?_, ?_⟩
  · intro hw hscript
    rw [step_cons s _ rest hscript, hostAccess_issue { s with script := rest } w hb,
      issueWord_pending w hw { s with script := rest } hb he]
    rfl
  · intro hidx hscript
    rw [step_cons s _ rest hscript, hostAccess_writeReg { s with script := rest } idx v hb hidx]
  · intro hwidth haddr hscript
    rw [step_cons s _ rest hscript, hostAccess_writeMem { s with script := rest } width addr v hb hwidth haddr]

/-! ### Commands that raise -/

/-- CLRERR never raises. -/
theorem exec_clrerr_err_eq_none (s t : State) (hs : s.err = none) (h : exec .clrerr s = .next t) : t.err = none := by
  obtain ⟨-, rfl⟩ := exec_clrerr_next s t h
  rw [returnFromError_none (countCommand s) hs, setDone_err, countCommand_err, hs]

/-- Whatever command leaves an error where none was pending has raised it, under its own opcode. -/
theorem exec_precise (i : Instr) (s t : State) (e : ErrorRecord) (hs : s.err = none) (h : exec i s = .next t)
    (ht : t.err = some e) : t = raised s i.opc e.cause := by
  by_cases hi : i = .clrerr
  · subst hi
    simp [exec_clrerr_err_eq_none s t hs h] at ht
  · exact exec_eq_raised i hi s t e hs h ht

/-- The body of an illegal command ends in no other way than by raising. -/
theorem illegalCommand_precise (w : Word) (s t : State) (e : ErrorRecord) (hs : s.err = none)
    (h : illegalCommand w s = .next t) (ht : t.err = some e) : t = raised s (wordOpc w) e.cause := by
  obtain ⟨-, ⟨he, -⟩ | ⟨-, hok⟩ | ⟨-, c, -, rfl⟩ | ⟨-, hnever, -⟩⟩ := runCommand_cases _ _ s t h
  · simp [hs] at he
  · cases hok
  · cases ht; rfl
  · cases hnever

/-- Whatever word leaves an error where none was pending has raised it, under bits 7:0 of the word. -/
theorem issueWord_precise (w : Word) (s t : State) (e : ErrorRecord) (hs : s.err = none) (h : issueWord w s = .next t)
    (ht : t.err = some e) : t = raised s (wordOpc w) e.cause := by
  unfold issueWord at h
  split at h
  next i hdecode =>
    obtain ⟨-, hopc, -⟩ := fields_of_decode hdecode
    exact hopc ▸ exec_precise i s t e hs h ht
  next => exact illegalCommand_precise w s t e hs h ht

/-- A CMD write that answers a next state was taken by a core that is not BUSY (70_reset_and_hazards.md R268). -/
theorem issueWord_of_hostAccess_issue (w : Word) (s t : State) (h : hostAccess (issueAccess w) s = .next t) :
    issueWord w s = .next t := by
  cases hb : s.busy with
  | true => simp [hostAccess, issueAccess, hostWriteReg, hb] at h
  | false => rwa [hostAccess_issue s w hb] at h

/-- Settles O43: the step on a CMD write is `issueWord` on the state without that access. -/
theorem errorsArePrecise : Obligations.ErrorsArePrecise := by
  intro s t e hs ht
  constructor
  · intro i h
    exact exec_precise i s t e hs h ht
  · intro w rest hscript h
    rw [step_cons s _ rest hscript] at h
    exact issueWord_precise w { s with script := rest } t e hs (issueWord_of_hostAccess_issue w _ t h) ht

end Sys2Proof.Machine
end

section
/-! SUPPORT. The decoder and the encoder undo each other (30_encoding.md R80 to R83), and a CMD write runs the decoded
command (R86, R88). -/

namespace Sys2Proof

/-- The opcode map gives back the argument it was given, unless it drops one (30_encoding.md R83 forbids those words). -/
theorem arg_of_decodeOpcode {opc arg : Byte} {i : Instr} (h : decodeOpcode opc arg = some i)
    (harg : arg = 0 ∨ opc = 0x20) : i.arg = arg := by
  unfold decodeOpcode at h
  split at h <;> cases h <;> first | rfl | exact (harg.resolve_right (by decide)).symm

/-- The fields of an instruction name it in the opcode map (30_encoding.md R82). -/
theorem decodeOpcode_opc_arg (i : Instr) : decodeOpcode i.opc i.arg = some i := by
  cases i <;> rfl

/-- Every command word is legal and carries its instruction's fields: `Laws.LegalEncoding`, all cases together. -/
theorem legalEncoding (i : Instr) : Laws.LegalEncoding.Statement i := by
  cases i
  case nop => exact Laws.LegalEncoding.nop
  case clrerr => exact Laws.LegalEncoding.clrerr
  case wipe => exact Laws.LegalEncoding.wipe
  case enc => exact Laws.LegalEncoding.enc
  case dec => exact Laws.LegalEncoding.dec
  case ubi d => exact Laws.LegalEncoding.ubi d
  case hash => exact Laws.LegalEncoding.hash
  case tree => exact Laws.LegalEncoding.tree
  case verify => exact Laws.LegalEncoding.verify
  case sInit => exact Laws.LegalEncoding.sInit
  case sUpdate => exact Laws.LegalEncoding.sUpdate
  case sFinal => exact Laws.LegalEncoding.sFinal
  case mac => exact Laws.LegalEncoding.mac
  case mkBegin => exact Laws.LegalEncoding.mkBegin
  case mkPush => exact Laws.LegalEncoding.mkPush
  case mkRoot => exact Laws.LegalEncoding.mkRoot

theorem decode_encode (i : Instr) : decode (encode i) = .ok i := by
  obtain ⟨hlegal, hopc, harg⟩ := legalEncoding i
  obtain ⟨j, hj, hdecode⟩ := decode_of_legal _ hlegal
  rw [hopc, harg, decodeOpcode_opc_arg] at hj
  rw [hdecode, Option.some.inj hj]

/-- A word that decodes is the command word of what it decodes to: its three fields are that word's. -/
theorem eq_encode_of_decode {w : Word} {i : Instr} (h : decode w = .ok i) : w = encode i := by
  have hlegal : legalWord w = true := decodeAcceptsExactlyLegalWords w |>.mp ⟨i, h⟩
  obtain ⟨hupper, -, hfields⟩ := (legalWord_iff w).mp hlegal
  obtain ⟨j, hopcode, hj⟩ := decode_of_legal w hlegal
  obtain rfl : i = j := by simpa [h] using hj
  have hopc : i.opc = wordOpc w := opc_of_decodeOpcode hopcode
  have harg : i.arg = wordArg w := arg_of_decodeOpcode hopcode hfields
  have hw := word_eq_fields w
  rw [hupper] at hw
  rw [encode, hopc, harg]
  exact hw.symm

/-- Settles O2: `decode_encode` one way, `eq_encode_of_decode` the other. -/
theorem decodeEncodeAgree : Obligations.DecodeEncodeAgree := by
  intro w i
  constructor
  · exact eq_encode_of_decode
  · rintro rfl
    exact decode_encode i

/-- Settles O3: the decoder evaluated on the words the spec writes out. -/
theorem knownWordsDecode : Obligations.KnownWordsDecode := by
  unfold Obligations.KnownWordsDecode
  decide

namespace Machine

/-- A CMD write of a word that decodes runs the command (30_encoding.md R88). -/
theorem step_issue {s : State} {w : Word} {i : Instr} {rest : List HostAction} (hb : s.busy = false)
    (hscript : s.script = issueAccess w :: rest) (hdecode : decode w = .ok i) :
    step s = exec i { s with script := rest } := by
  rw [step_cons s _ rest hscript, hostAccess_issue { s with script := rest } w hb]
  simp only [issueWord, hdecode]

/-- Settles O4: the step on a CMD write is the issue of its word, which decodes. -/
theorem stepRunsTheDecodedCommand : Obligations.StepRunsTheDecodedCommand :=
  fun _ _ _ _ hb hscript hdecode => step_issue hb hscript hdecode

end Machine

end Sys2Proof
end

section
/-! SUPPORT. Each command on a ready core: the checks it makes, what it computes and the state it writes, said once a
command (30_encoding.md R88). -/

namespace Sys2Proof.Machine

/-! ### How a command ends -/

/-- The next state of a command on a ready core `s`, by what its checks and its computation gave (30_encoding.md R88). -/
def ending (s : State) (opc : Byte) : Except Stop State → Result
  | .ok t => .next t
  | .error (.raises c) => .next (raised s opc c)
  | .error .never => .next (running s)

@[simp] theorem ending_ok (s t : State) (opc : Byte) : ending s opc (.ok t) = .next t := rfl

@[simp] theorem ending_raises (s : State) (opc : Byte) (c : Cause) :
    ending s opc (.error (.raises c)) = .next (raised s opc c) := rfl

@[simp] theorem ending_never (s : State) (opc : Byte) : ending s opc (.error .never) = .next (running s) := rfl

theorem runCommand_ending (opc : Byte) (body : State → Except Stop State) (s : State) (h : Ready s) :
    runCommand opc body s = ending s opc (body (countCommand s)) := by
  rw [runCommand_ready opc body s h]
  rcases body (countCommand s) with (_ | _) | _ <;> rfl

/-! ### What a command leaves when it completes -/

/-- Counted, DONE, MATCH as given (30_encoding.md R88 steps 1 and 6). -/
abbrev completed (s : State) (m : Bool) : State := { s with cmdCount := s.cmdCount + 1, done := true, matched := m }

/-- A digest result (10_state.md R22). -/
abbrev digested (s : State) (dg : List Byte) (bits : BitVec 16) : State :=
  { completed s false with out := digestWords dg, outLen := digestLen bits }

/-! ### WIPE -/

theorem exec_wipe_ready (s : State) (h : Ready s) :
    exec .wipe s = .next (setDone (wipeState (countCommand s)) false) := by
  have harm : exec .wipe s = runCommand Instr.wipe.opc (fun s => .ok (setDone (wipeState s) false)) s := rfl
  rw [harm, runCommand_ending _ _ s h, ending_ok]

/-! ### The block commands -/

theorem exec_enc_ready (s : State) (h : Ready s) : exec .enc s = ending s Instr.enc.opc (do
    checkRange s s.keyAddr blockBytes
    checkRange s s.srcAddr blockBytes
    return { completed s false with
      out := encrypt s.config.rawAlgo (keyBlock s) (tweakRegs s) (srcBlock s), outLen := 128 }) := by
  have harm : exec .enc s = execEnc s := rfl
  rw [harm, execEnc, runCommand_ending _ _ s h]
  simp only [done_block, checkRange_countCommand, keyBlock_countCommand, tweakRegs_countCommand, srcBlock_countCommand,
    countCommand_config, countCommand_keyAddr, countCommand_srcAddr]

theorem exec_dec_ready (s : State) (h : Ready s) : exec .dec s = ending s Instr.dec.opc (do
    checkRange s s.keyAddr blockBytes
    checkRange s s.srcAddr blockBytes
    return { completed s false with
      out := decrypt s.config.rawAlgo (keyBlock s) (tweakRegs s) (srcBlock s), outLen := 128 }) := by
  have harm : exec .dec s = execDec s := rfl
  rw [harm, execDec, runCommand_ending _ _ s h]
  simp only [done_block, checkRange_countCommand, keyBlock_countCommand, tweakRegs_countCommand, srcBlock_countCommand,
    countCommand_config, countCommand_keyAddr, countCommand_srcAddr]

theorem exec_ubi_ready (d : Byte) (s : State) (h : Ready s) : exec (.ubi d) s = ending s (Instr.ubi d).opc (do
    checkRange s s.keyAddr blockBytes
    checkRange s s.srcAddr s.srcLen.toNat
    return { completed s false with out := ubi s.config.rawAlgo (keyBlock s) d (srcBytes s), outLen := 128 }) := by
  have harm : exec (.ubi d) s = execUbi d s := rfl
  rw [harm, execUbi, runCommand_ending _ _ s h]
  simp only [done_block, checkRange_countCommand, keyBlock_countCommand, srcBytes_countCommand,
    countCommand_config, countCommand_keyAddr, countCommand_srcAddr, countCommand_srcLen]

/-! ### The hash commands -/

theorem exec_hash_ready (s : State) (h : Ready s) : exec .hash s = ending s Instr.hash.opc (do
    validateConfig (currentConfig s)
    checkRange s s.srcAddr s.srcLen.toNat
    checkTree s (currentConfig s)
    let dg ← terminating (hashDigest (s.config.algoFor (currentConfig s).bits) (currentConfig s) (srcBytes s))
    return digested s dg (currentConfig s).bits) := by
  have harm : exec .hash s = execHash s := rfl
  rw [harm, execHash, runCommand_ending _ _ s h]
  simp only [done_digest, checkRange_countCommand, checkTree_countCommand, currentConfig_countCommand,
    srcBytes_countCommand, countCommand_config, countCommand_srcAddr, countCommand_srcLen]

theorem exec_tree_ready (s : State) (h : Ready s) : exec .tree s = ending s Instr.tree.opc (do
    validateConfig (currentConfig s)
    checkRange s s.srcAddr s.srcLen.toNat
    checkTree s { currentConfig s with mode := modeTree }
    let dg ← terminating (treeHash (s.config.algoFor (currentConfig s).bits) (currentConfig s) (srcBytes s))
    return digested s dg (currentConfig s).bits) := by
  have harm : exec .tree s = execTree s := rfl
  rw [harm, execTree, runCommand_ending _ _ s h]
  simp only [done_digest, checkRange_countCommand, checkTree_countCommand, currentConfig_countCommand,
    srcBytes_countCommand, countCommand_config, countCommand_srcAddr, countCommand_srcLen]

theorem exec_verify_ready (s : State) (h : Ready s) : exec .verify s = ending s Instr.verify.opc (do
    validateConfig (currentConfig s)
    checkRange s s.srcAddr s.srcLen.toNat
    checkRange s s.expAddr (digestBytes (currentConfig s).bits)
    checkTree s (currentConfig s)
    let dg ← terminating (hashDigest (s.config.algoFor (currentConfig s).bits) (currentConfig s) (srcBytes s))
    return { completed s (dg == expBytes s (digestBytes (currentConfig s).bits)) with
      out := zeroBlock, outLen := 0 }) := by
  have harm : exec .verify s = execVerify s := rfl
  rw [harm, execVerify, runCommand_ending _ _ s h]
  simp only [done_verify, checkRange_countCommand, checkTree_countCommand, currentConfig_countCommand,
    srcBytes_countCommand, expBytes_countCommand, countCommand_config, countCommand_srcAddr, countCommand_srcLen,
    countCommand_expAddr]

theorem exec_mac_ready (s : State) (h : Ready s) : exec .mac s = ending s Instr.mac.opc (do
    validateConfig (currentConfig s)
    checkRange s s.keyAddr s.keyLen.toNat
    checkRange s s.srcAddr s.srcLen.toNat
    return digested s
      (macDigest (s.config.algoFor (currentConfig s).bits) (currentConfig s) (keyBytes s) (srcBytes s))
      (currentConfig s).bits) := by
  have harm : exec .mac s = execMac s := rfl
  rw [harm, execMac, runCommand_ending _ _ s h]
  simp only [done_digest, checkRange_countCommand, currentConfig_countCommand, srcBytes_countCommand,
    keyBytes_countCommand, countCommand_config, countCommand_srcAddr, countCommand_srcLen, countCommand_keyAddr,
    countCommand_keyLen]

/-! ### The streaming session -/

theorem exec_sInit_ready (s : State) (h : Ready s) : exec .sInit s = ending s Instr.sInit.opc (do
    validateConfig (currentConfig s)
    return { completed s false with
      stream := openStream (s.config.algoFor (currentConfig s).bits) (currentConfig s) }) := by
  have harm : exec .sInit s = execSInit s := rfl
  rw [harm, execSInit, runCommand_ending _ _ s h]
  simp only [done_stream, currentConfig_countCommand, countCommand_config]

theorem exec_sUpdate_ready (s : State) (h : Ready s) : exec .sUpdate s = ending s Instr.sUpdate.opc (do
    require (s.stream.phase = .opened) .streamNotOpen
    checkRange s s.srcAddr s.srcLen.toNat
    return { completed s false with
      stream := absorb (s.config.algoFor s.stream.bits) s.stream (srcBytes s) s.srcLen }) := by
  have harm : exec .sUpdate s = execSUpdate s := rfl
  rw [harm, execSUpdate, runCommand_ending _ _ s h]
  simp only [done_stream, checkRange_countCommand, srcBytes_countCommand, countCommand_config, countCommand_srcAddr,
    countCommand_srcLen, countCommand_stream]
  rfl

theorem exec_sFinal_ready (s : State) (h : Ready s) : exec .sFinal s = ending s Instr.sFinal.opc (do
    require (s.stream.phase ≠ .finalized) .finalizeTwice
    require (s.stream.phase ≠ .empty) .streamNotOpen
    require (s.stream.res.length ≤ 128) .ubiBlockOversize
    return { digested s (streamDigest (s.config.algoFor s.stream.bits) s.stream) s.stream.bits with
      stream := closeStream s.stream }) := by
  have harm : exec .sFinal s = execSFinal s := rfl
  rw [harm, execSFinal, runCommand_ending _ _ s h]
  simp only [done_final, countCommand_config, countCommand_stream]
  rfl

/-! ### The Merkle session -/

theorem exec_mkBegin_ready (s : State) (h : Ready s) : exec .mkBegin s = ending s Instr.mkBegin.opc (do
    validateConfig (currentConfig s)
    return { completed s false with merkle := { isOpen := true, cfg := currentConfig s, nodes := [] } }) := by
  have harm : exec .mkBegin s = execMkBegin s := rfl
  rw [harm, execMkBegin, runCommand_ending _ _ s h]
  simp only [done_merkle, currentConfig_countCommand]

theorem exec_mkPush_ready (s : State) (h : Ready s) : exec .mkPush s = ending s Instr.mkPush.opc (do
    require (s.merkle.isOpen = true) .merkleNotOpen
    checkRange s s.srcAddr s.srcLen.toNat
    require (NodeListHasRoom s) .capacity
    checkTree s s.merkle.cfg
    let h ← terminating (hashDigest (s.config.algoFor s.merkle.cfg.bits) s.merkle.cfg (srcBytes s))
    return { completed s false with merkle := { s.merkle with nodes := s.merkle.nodes ++ [h] } }) := by
  have harm : exec .mkPush s = execMkPush s := rfl
  rw [harm, execMkPush, runCommand_ending _ _ s h]
  simp only [done_append, checkRange_countCommand, checkTree_countCommand, srcBytes_countCommand, countCommand_config,
    countCommand_srcAddr, countCommand_srcLen, countCommand_merkle]
  rfl

theorem exec_mkRoot_ready (s : State) (h : Ready s) : exec .mkRoot s = ending s Instr.mkRoot.opc (do
    require (s.merkle.isOpen = true) .merkleNotOpen
    require (s.merkle.nodes ≠ []) .merkleEmpty
    require (PairsFit s) .capacity
    let dg ← terminating (merkleReduce (s.config.algoFor s.merkle.cfg.bits) s.merkle.cfg s.merkle.nodes)
    return { digested s dg s.merkle.cfg.bits with merkle := resetMerkle }) := by
  have harm : exec .mkRoot s = execMkRoot s := rfl
  rw [harm, execMkRoot, runCommand_ending _ _ s h]
  simp only [done_root, countCommand_config, countCommand_merkle]
  rfl

end Sys2Proof.Machine
end

section
/-! SUPPORT. What each check does to the rest of a command, and the statements that need no more than that: the
commands whose computation always ends, and the errors in the order of their checks. -/

namespace Sys2Proof.Machine

/-! ### Checks in front of the rest of a command -/

@[simp] theorem except_pure {α : Type} (a : α) : (pure a : Except Stop α) = .ok a := rfl

theorem validateConfig_raises {cfg : CfgRec} {c : Cause} (h : firstConfigError cfg = some c) :
    validateConfig cfg = .error (.raises c) := by
  rw [validateConfig_eq, h]

/-- Two range checks in a row raise the same cause, so it does not matter which of them fails. -/
theorem checkRange_checkRange_neg {α : Type} {s : State} {a b : Word} {n m : Nat} (f : Unit → Except Stop α)
    (h : ¬ (InImem s a n ∧ InImem s b m)) :
    (checkRange s a n >>= fun _ => checkRange s b m >>= f) = .error (.raises .addrRange) := by
  by_cases ha : InImem s a n
  · rw [checkRange_pos ha, except_bind_ok, checkRange_neg fun hb => h ⟨ha, hb⟩, except_bind_error]
  · rw [checkRange_neg ha, except_bind_error]

/-! ### Commands that always end -/

/-- Settles O9: the fields of `wipeState` on the counted state. -/
theorem wipeErasesKeyedState : Obligations.WipeErasesKeyedState :=
  fun s h => exec_wipe_ready s h

/-- Settles O10: both range checks pass. -/
theorem encWritesCiphertext : Obligations.EncWritesCiphertext := by
  intro s h hkey hsrc
  rw [exec_enc_ready s h, blockBytes, checkRange_pos hkey, except_bind_ok, checkRange_pos hsrc, except_bind_ok,
    except_pure, ending_ok]
  rfl

/-- Settles O11: both range checks pass. -/
theorem decWritesPlaintext : Obligations.DecWritesPlaintext := by
  intro s h hkey hsrc
  rw [exec_dec_ready s h, blockBytes, checkRange_pos hkey, except_bind_ok, checkRange_pos hsrc, except_bind_ok,
    except_pure, ending_ok]
  rfl

/-- Settles O12: both range checks pass. -/
theorem ubiWritesChainingValue : Obligations.UbiWritesChainingValue := by
  intro s d h hkey hsrc
  rw [exec_ubi_ready d s h, blockBytes, checkRange_pos hkey, except_bind_ok, checkRange_pos hsrc, except_bind_ok,
    except_pure, ending_ok]
  rfl

/-- Settles O20: the configuration is legal and both range checks pass. -/
theorem macWritesDigest : Obligations.MacWritesDigest := by
  intro s h hcfg hkey hsrc
  rw [exec_mac_ready s h, validateConfig_legal _ hcfg, except_bind_ok, checkRange_pos hkey, except_bind_ok,
    checkRange_pos hsrc, except_bind_ok, except_pure, ending_ok]
  rfl

/-- Settles O29: validation is S_INIT's one check. -/
theorem sInitOpensContext : Obligations.SInitOpensContext := by
  intro s h hcfg
  rw [exec_sInit_ready s h, validateConfig_legal _ hcfg, except_bind_ok, except_pure, ending_ok, openStream]

/-- Settles O31: an open context passes both session checks, and its residual the guard of UbiBlock. -/
theorem sFinalWritesDigest : Obligations.SFinalWritesDigest := by
  intro s h hphase hres
  have hfinalized : s.stream.phase ≠ .finalized := by simp [hphase]
  have hempty : s.stream.phase ≠ .empty := by simp [hphase]
  rw [exec_sFinal_ready s h, require_pos _ hfinalized, except_bind_ok, require_pos _ hempty, except_bind_ok,
    require_pos _ hres, except_bind_ok, except_pure, ending_ok, streamDigest, closeStream]

/-! ### The configuration checks come first -/

/-- Settles O39: in each of the six commands validation is the first check. -/
theorem configErrorsRaiseInOrder : Obligations.ConfigErrorsRaiseInOrder := by
  refine ⟨rfl, rfl, fun cfg => (firstConfigError_none_iff cfg).symm, ?_⟩
  intro s i c h hi hc
  have hv := validateConfig_raises hc
  simp only [List.mem_cons, List.not_mem_nil, or_false] at hi
  rcases hi with rfl | rfl | rfl | rfl | rfl | rfl
  · rw [exec_hash_ready s h, hv, except_bind_error, ending_raises]
  case inr.inl => rw [exec_tree_ready s h, hv, except_bind_error, ending_raises]
  case inr.inr.inl => rw [exec_verify_ready s h, hv, except_bind_error, ending_raises]
  case inr.inr.inr.inl => rw [exec_mac_ready s h, hv, except_bind_error, ending_raises]
  case inr.inr.inr.inr.inl => rw [exec_sInit_ready s h, hv, except_bind_error, ending_raises]
  case inr.inr.inr.inr.inr => rw [exec_mkBegin_ready s h, hv, except_bind_error, ending_raises]

/-! ### Operands outside IMEM -/

/-- Settles O40: in each command the range checks fail and what stands before them passes. -/
theorem operandOutsideImemRaises : Obligations.OperandOutsideImemRaises := by
  refine ⟨fun _ _ _ => Iff.rfl, fun s h => ⟨?_, ?_, ?_, ?_, ?_, ?_, ?_⟩⟩
  · intro hout
    rw [exec_enc_ready s h, exec_dec_ready s h, blockBytes, checkRange_checkRange_neg _ hout,
      checkRange_checkRange_neg _ hout, ending_raises, ending_raises]
    exact ⟨rfl, rfl⟩
  · intro hout d
    rw [exec_ubi_ready d s h, blockBytes, checkRange_checkRange_neg _ hout, ending_raises]
    rfl
  · intro hcfg hout
    rw [exec_hash_ready s h, exec_tree_ready s h, validateConfig_legal _ hcfg, except_bind_ok, except_bind_ok,
      checkRange_neg hout, except_bind_error, except_bind_error, ending_raises, ending_raises]
    exact ⟨rfl, rfl⟩
  · intro hcfg hout
    rw [exec_verify_ready s h, validateConfig_legal _ hcfg, except_bind_ok, checkRange_checkRange_neg _ hout,
      ending_raises]
    rfl
  · intro hcfg hout
    rw [exec_mac_ready s h, validateConfig_legal _ hcfg, except_bind_ok, checkRange_checkRange_neg _ hout,
      ending_raises]
    rfl
  · intro hphase hout
    rw [exec_sUpdate_ready s h, require_pos _ hphase, except_bind_ok, checkRange_neg hout, except_bind_error,
      ending_raises]
    rfl
  · intro hopen hout
    rw [exec_mkPush_ready s h, require_pos _ hopen, except_bind_ok, checkRange_neg hout, except_bind_error,
      ending_raises]
    rfl

/-! ### Sessions in the wrong state -/

/-- Settles O41: the session checks stand first in every session command. -/
theorem sessionStateErrors : Obligations.SessionStateErrors := by
  refine fun s h => ⟨?_, ?_, ?_, ?_, ?_⟩
  · intro hphase
    rw [exec_sUpdate_ready s h, require_neg _ hphase, except_bind_error, ending_raises]
    rfl
  · intro hphase
    rw [exec_sFinal_ready s h, require_neg _ (not_not.mpr hphase), except_bind_error, ending_raises]
    rfl
  · intro hphase
    have hfinalized : s.stream.phase ≠ .finalized := by simp [hphase]
    rw [exec_sFinal_ready s h, require_pos _ hfinalized, except_bind_ok, require_neg _ (not_not.mpr hphase),
      except_bind_error, ending_raises]
    rfl
  · intro hopen
    have hclosed : ¬ s.merkle.isOpen = true := by simp [hopen]
    rw [exec_mkPush_ready s h, exec_mkRoot_ready s h, require_neg _ hclosed, except_bind_error, except_bind_error,
      ending_raises, ending_raises]
    exact ⟨rfl, rfl⟩
  · intro hopen hnodes
    rw [exec_mkRoot_ready s h, require_pos _ hopen, except_bind_ok, require_neg _ (not_not.mpr hnodes),
      except_bind_error, ending_raises]
    rfl

/-! ### Capacities -/

/-- A tree does not fit exactly when the arena is bounded below its number of leaves (43_dispatch_tree.md R188). -/
theorem not_treeFits_iff (c : Config) (n : Nat) : ¬ TreeFits c n ↔ ∃ m, c.treeNodeMax = some m ∧ m < n := by
  cases hmax : c.treeNodeMax <;> simp [TreeFits, hmax]

theorem checkTree_full {s : State} {cfg : CfgRec} (hmode : cfg.mode = modeTree)
    (h : ¬ TreeFits s.config (leafCount s.srcLen.toNat cfg.leaf.toNat)) :
    checkTree s cfg = .error (.raises .capacity) :=
  checkTree_neg fun hfits => h (hfits hmode)

theorem not_pairsFit_iff (s : State) : ¬ PairsFit s ↔ s.merkle.cfg.mode = 2 ∧ 1 < s.merkle.nodes.length
    ∧ ¬ TreeFits s.config (ceilDiv (2 * digestBytes s.merkle.cfg.bits) s.merkle.cfg.leaf.toNat) := by
  simp only [PairsFit, Classical.not_imp]
  rfl

/-- Settles O42: in each command the capacity check is the last one. -/
theorem capacityErrors : Obligations.CapacityErrors := by
  refine ⟨fun _ _ => rfl, not_treeFits_iff, fun _ => not_not, not_pairsFit_iff, fun s h => ⟨?_, ?_, ?_⟩⟩
  · intro hcfg hsrc hfull
    refine ⟨?_, fun hmode => ?_, fun hmode hexp => ?_⟩
    · have htree : checkTree s { currentConfig s with mode := modeTree } = .error (.raises .capacity) :=
        checkTree_full rfl hfull
      rw [exec_tree_ready s h, validateConfig_legal _ hcfg, except_bind_ok, checkRange_pos hsrc, except_bind_ok,
        htree, except_bind_error, ending_raises]
      rfl
    · rw [exec_hash_ready s h, validateConfig_legal _ hcfg, except_bind_ok, checkRange_pos hsrc, except_bind_ok,
        checkTree_full hmode hfull, except_bind_error, ending_raises]
      rfl
    · rw [exec_verify_ready s h, validateConfig_legal _ hcfg, except_bind_ok, checkRange_pos hsrc, except_bind_ok,
        checkRange_pos hexp, except_bind_ok, checkTree_full hmode hfull, except_bind_error, ending_raises]
      rfl
  · intro hopen hsrc hfull
    rw [exec_mkPush_ready s h, require_pos _ hopen, except_bind_ok, checkRange_pos hsrc, except_bind_ok]
    by_cases hroom : NodeListHasRoom s
    · obtain ⟨hmode, hfull⟩ := hfull.resolve_left (not_not.mpr hroom)
      rw [require_pos _ hroom, except_bind_ok, checkTree_full hmode hfull, except_bind_error, ending_raises]
      rfl
    · rw [require_neg _ hroom, except_bind_error, ending_raises]
      rfl
  · intro hopen hnodes hfull
    rw [exec_mkRoot_ready s h, require_pos _ hopen, except_bind_ok, require_pos _ hnodes, except_bind_ok,
      require_neg _ hfull, except_bind_error, ending_raises]
    rfl

end Sys2Proof.Machine
end

section
/-! SUPPORT. What a command leaves alone (10_state.md sections 2, 5 and 6; 20_memory.md R61). -/

namespace Sys2Proof.Machine

/-! ### What a command that completes leaves alone -/

/-- What no command writes: IMEM, the host's registers but those WIPE erases, and the model's own fields. -/
def hostHeld (s : State) : Memory × BitVec 24 × Word × Word × Word × Word × Word × Word × Word × Config × Nat × Nat
    × List HostAction × Option Word :=
  (s.imem, s.cfg, s.leafSize, s.fanOut, s.srcAddr, s.srcLen, s.keyAddr, s.keyLen, s.expAddr, s.config, s.epoch,
    s.busyReads, s.script, s.answer)

/-- The host's registers that WIPE erases (46_verify_system.md R223). -/
def hostSecrets (s : State) : Word × Word × Word × Word × Vector Word 13 := (s.twk0, s.twk1, s.twk2, s.persLen, s.pers)

/-- The result registers (10_state.md R22). -/
def resultRegs (s : State) : Block × Word := (s.out, s.outLen)

/-- What each command leaves alone when it completes on a state that has counted it. -/
theorem Completes.frame {i : Instr} {s t : State} (h : Completes i s t) :
    hostHeld t = hostHeld s ∧ t.cmdCount = s.cmdCount ∧ (i ≠ .wipe → hostSecrets t = hostSecrets s)
      ∧ (i ∈ [Instr.nop, .clrerr, .sInit, .sUpdate, .mkBegin, .mkPush] → resultRegs t = resultRegs s)
      ∧ (i ∉ [Instr.sInit, .sUpdate, .sFinal, .wipe] → t.stream = s.stream)
      ∧ (i ∉ [Instr.mkBegin, .mkPush, .mkRoot, .wipe] → t.merkle = s.merkle) := by
  cases i <;> simp only [Completes] at h
  case nop | wipe => simp [h, hostHeld, hostSecrets, resultRegs]
  case enc | dec | ubi | sUpdate | sFinal => obtain ⟨-, -, rfl⟩ := h; simp [hostHeld, hostSecrets, resultRegs]
  case hash | tree | verify => obtain ⟨-, dg, -, rfl⟩ := h; simp [hostHeld, hostSecrets]
  case sInit | mac | mkBegin => obtain ⟨-, rfl⟩ := h; simp [hostHeld, hostSecrets, resultRegs]
  case mkPush | mkRoot => obtain ⟨-, -, dg, -, rfl⟩ := h; simp [hostHeld, hostSecrets, resultRegs]

/-! ### Whatever becomes of the command -/

/-- The return from an error writes three STATUS fields. -/
theorem returnFromError_frame (s : State) :
    ∃ e d m, returnFromError s = { s with err := e, done := d, matched := m } := by
  unfold returnFromError
  split
  · exact ⟨_, _, _, rfl⟩
  · split <;> exact ⟨_, _, _, rfl⟩

/-- A command that was ignored, raised or never ends, and CLRERR, write STATUS and CMD_COUNT only. So a part of the
state that has neither in it is kept by a command that keeps it when it completes. -/
theorem exec_keeps {α : Type} (f : State → α)
    (hf : ∀ (s : State) n b e d m, f { s with cmdCount := n, busy := b, err := e, done := d, matched := m } = f s)
    {i : Instr} (hdone : ∀ s t, Completes i s t → f t = f s) {s t : State} (h : exec i s = .next t) : f t = f s := by
  by_cases hi : i = .clrerr
  · subst hi
    obtain ⟨-, rfl⟩ := exec_clrerr_next s t h
    obtain ⟨e, d, m, hret⟩ := returnFromError_frame (countCommand s)
    rw [hret]
    exact hf s _ _ _ _ _
  · obtain ⟨-, ⟨-, rfl⟩ | ⟨-, hcompletes⟩ | ⟨-, c, rfl⟩ | ⟨-, rfl⟩⟩ := exec_next i hi s t h
    · exact hf s _ _ _ _ _
    · exact (hdone _ _ hcompletes).trans (hf s _ _ _ _ _)
    · exact hf s _ _ _ _ _
    · exact hf s _ _ _ _ _

theorem exec_hostHeld {i : Instr} {s t : State} (h : exec i s = .next t) : hostHeld t = hostHeld s :=
  exec_keeps hostHeld (fun _ _ _ _ _ _ => rfl) (fun _ _ hdone => hdone.frame.1) h

/-- Only WIPE writes the tweak and personalization registers (10_state.md R23, R29). -/
theorem exec_hostSecrets {i : Instr} (hi : i ≠ .wipe) {s t : State} (h : exec i s = .next t) :
    hostSecrets t = hostSecrets s := by
  refine exec_keeps hostSecrets (fun _ _ _ _ _ _ => rfl) (fun _ _ hdone => ?_) h
  obtain ⟨-, -, hsecrets, -⟩ := hdone.frame
  exact hsecrets hi

theorem exec_resultRegs {i : Instr} (hi : i ∈ [Instr.nop, .clrerr, .sInit, .sUpdate, .mkBegin, .mkPush]) {s t : State}
    (h : exec i s = .next t) : resultRegs t = resultRegs s := by
  refine exec_keeps resultRegs (fun _ _ _ _ _ _ => rfl) (fun _ _ hdone => ?_) h
  obtain ⟨-, -, -, hresults, -⟩ := hdone.frame
  exact hresults hi

theorem exec_stream {i : Instr} (hi : i ∉ [Instr.sInit, .sUpdate, .sFinal, .wipe]) {s t : State}
    (h : exec i s = .next t) : t.stream = s.stream := by
  refine exec_keeps State.stream (fun _ _ _ _ _ _ => rfl) (fun _ _ hdone => ?_) h
  obtain ⟨-, -, -, -, hstream, -⟩ := hdone.frame
  exact hstream hi

theorem exec_merkle {i : Instr} (hi : i ∉ [Instr.mkBegin, .mkPush, .mkRoot, .wipe]) {s t : State}
    (h : exec i s = .next t) : t.merkle = s.merkle := by
  refine exec_keeps State.merkle (fun _ _ _ _ _ _ => rfl) (fun _ _ hdone => ?_) h
  obtain ⟨-, -, -, -, -, hmerkle⟩ := hdone.frame
  exact hmerkle hi

theorem exec_imem {i : Instr} {s t : State} (h : exec i s = .next t) : t.imem = s.imem := by
  have hheld := exec_hostHeld h
  simp only [hostHeld, Prod.mk.injEq] at hheld
  tauto

theorem exec_config {i : Instr} {s t : State} (h : exec i s = .next t) : t.config = s.config := by
  have hheld := exec_hostHeld h
  simp only [hostHeld, Prod.mk.injEq] at hheld
  tauto

/-- Every command that answers a next state counts once (10_state.md R24). -/
theorem exec_cmdCount {i : Instr} {s t : State} (h : exec i s = .next t) : t.cmdCount = s.cmdCount + 1 := by
  by_cases hi : i = .clrerr
  · subst hi
    obtain ⟨-, rfl⟩ := exec_clrerr_next s t h
    obtain ⟨e, d, m, hret⟩ := returnFromError_frame (countCommand s)
    rw [hret]
    rfl
  · obtain ⟨-, ⟨-, rfl⟩ | ⟨-, hdone⟩ | ⟨-, c, rfl⟩ | ⟨-, rfl⟩⟩ := exec_next i hi s t h
    · rfl
    · exact hdone.frame.2.1
    · rfl
    · rfl

/-- An illegal command counts too (30_encoding.md R84). -/
theorem illegalCommand_cmdCount {w : Word} {s t : State} (h : illegalCommand w s = .next t) :
    t.cmdCount = s.cmdCount + 1 := by
  obtain ⟨-, ⟨-, rfl⟩ | ⟨-, hok⟩ | ⟨-, c, -, rfl⟩ | ⟨-, -, rfl⟩⟩ := runCommand_cases _ _ s t h
  · rfl
  · cases hok
  · rfl
  · rfl

theorem issueWord_cmdCount {w : Word} {s t : State} (h : issueWord w s = .next t) : t.cmdCount = s.cmdCount + 1 := by
  unfold issueWord at h
  split at h
  next => exact exec_cmdCount h
  next => exact illegalCommand_cmdCount h

/-! ### The statements -/

/-- Settles O46: `exec_hostHeld` field by field, and `exec_hostSecrets`. -/
theorem commandsLeaveHostStateAlone : Obligations.CommandsLeaveHostStateAlone := by
  intro i s t h
  have hheld := exec_hostHeld h
  simp only [hostHeld, Prod.mk.injEq] at hheld
  obtain ⟨himem, hcfg, hleaf, hfan, hsrcAddr, hsrcLen, hkeyAddr, hkeyLen, hexp, hconfig, hepoch, hreads, hscript,
    hanswer⟩ := hheld
  refine ⟨himem, fun a => by simp only [imemByte, himem, hepoch], hcfg, hleaf, hfan, hsrcAddr, hsrcLen, hkeyAddr,
    hkeyLen, hexp, hconfig, hepoch, hreads, hscript, hanswer, fun hi => ?_⟩
  simpa only [hostSecrets, Prod.mk.injEq] using exec_hostSecrets hi h

/-- Settles O47: the results, the streaming context and the Merkle list, each with the commands that may write it. -/
theorem onlyListedCommandsWrite : Obligations.OnlyListedCommandsWrite := by
  intro i s t h
  refine ⟨fun hi => ?_, fun hi => exec_stream hi h, fun hi => exec_merkle hi h⟩
  simpa only [resultRegs, Prod.mk.injEq] using exec_resultRegs hi h

/-- Settles O48: the step is the issue of the word, a command or an illegal one. -/
theorem everyCommandWriteCounts : Obligations.EveryCommandWriteCounts := by
  intro s t w rest hscript h
  rw [step_cons s _ rest hscript] at h
  exact issueWord_cmdCount (s := { s with script := rest }) (issueWord_of_hostAccess_issue w _ t h)

end Sys2Proof.Machine
end

section
/-! SUPPORT. The fields of the STATUS word (10_state.md R25, R26). -/

namespace Sys2Proof.Machine

/-! ### A word made of fields -/

/-- The fields of STATUS from bit 63 down to bit 0 (10_state.md R25). -/
def statusLayout (opc cause : Byte) (kind : BitVec 2) (mk : Bool) (phase : BitVec 2) (matched done busy : Bool) : Word :=
  0#32 ++ opc ++ cause ++ 0#6 ++ kind ++ 0#2 ++ BitVec.ofBool mk ++ phase ++ BitVec.ofBool matched
    ++ BitVec.ofBool done ++ BitVec.ofBool busy

theorem statusWord_eq (s : State) : statusWord s = statusLayout (errOpc s) (errCause s) (errKind s) s.merkle.isOpen
    (phaseCode s.stream.phase) s.matched s.done s.busy := rfl

section
variable (opc cause : Byte) (kind : BitVec 2) (mk : Bool) (phase : BitVec 2) (matched done busy : Bool)

/-- The one-bit fields of STATUS. -/
theorem statusLayout_flags :
    (statusLayout opc cause kind mk phase matched done busy).getLsbD 0 = busy
      ∧ (statusLayout opc cause kind mk phase matched done busy).getLsbD 1 = done
      ∧ (statusLayout opc cause kind mk phase matched done busy).getLsbD 2 = matched
      ∧ (statusLayout opc cause kind mk phase matched done busy).getLsbD 5 = mk := by
  simp only [statusLayout, BitVec.getLsbD_append]
  simp

/-- The numbers in STATUS. -/
theorem statusLayout_numbers :
    (statusLayout opc cause kind mk phase matched done busy).extractLsb' 3 2 = phase
      ∧ (statusLayout opc cause kind mk phase matched done busy).extractLsb' 8 2 = kind
      ∧ (statusLayout opc cause kind mk phase matched done busy).extractLsb' 16 8 = cause
      ∧ (statusLayout opc cause kind mk phase matched done busy).extractLsb' 24 8 = opc := by
  refine ⟨?_, ?_, ?_, ?_⟩ <;>
  · ext i hi
    simp only [BitVec.getElem_extractLsb', statusLayout, BitVec.getLsbD_append]
    interval_cases i <;> simp [← BitVec.getLsbD_eq_getElem]

/-- The reserved bits of STATUS (10_state.md R31). -/
theorem statusLayout_reserved :
    (statusLayout opc cause kind mk phase matched done busy).extractLsb' 6 2 = 0
      ∧ (statusLayout opc cause kind mk phase matched done busy).extractLsb' 10 6 = 0
      ∧ (statusLayout opc cause kind mk phase matched done busy).extractLsb' 32 32 = 0 := by
  refine ⟨?_, ?_, ?_⟩ <;>
  · ext i hi
    simp only [BitVec.getElem_extractLsb', statusLayout, BitVec.getLsbD_append]
    interval_cases i <;> simp

end

/-! ### STATUS while BUSY -/

/-- While BUSY every field but BUSY is free and the reserved bits are 0 (log 5). -/
theorem statusFree_fields (free : Word) :
    ((free &&& statusFieldBits) ||| 1).getLsbD 0 = true
      ∧ ((free &&& statusFieldBits) ||| 1).extractLsb' 6 2 = 0
      ∧ ((free &&& statusFieldBits) ||| 1).extractLsb' 10 6 = 0
      ∧ ((free &&& statusFieldBits) ||| 1).extractLsb' 32 32 = 0 := by
  refine ⟨by simp [statusFieldBits], ?_, ?_, ?_⟩ <;>
  · ext i hi
    simp only [BitVec.getElem_extractLsb', BitVec.getLsbD_or, BitVec.getLsbD_and, statusFieldBits]
    interval_cases i <;> simp

theorem statusRead_busy (s : State) (h : s.busy = true) :
    statusRead s = (Config.busyStatus s.epoch s.busyReads &&& statusFieldBits) ||| 1 := if_pos h

theorem statusRead_idle (s : State) (h : s.busy = false) : statusRead s = statusWord s := by
  simp [statusRead, h]

theorem readReg_status (s : State) : readReg s 0x01 = statusRead s := rfl

/-- Settles O45: the layout of the STATUS word when idle, the free value's when BUSY. -/
theorem statusFields : Obligations.StatusFields := by
  intro s
  simp only [readReg_status]
  cases hb : s.busy with
  | true =>
    rw [statusRead_busy s hb]
    exact ⟨statusFree_fields _, fun h => absurd h (by decide)⟩
  | false =>
    rw [statusRead_idle s hb, statusWord_eq]
    obtain ⟨hbusy, hdone, hmatched, hmk⟩ := statusLayout_flags (errOpc s) (errCause s) (errKind s) s.merkle.isOpen
      (phaseCode s.stream.phase) s.matched s.done s.busy
    obtain ⟨hphase, hkind, hcause, hopc⟩ := statusLayout_numbers (errOpc s) (errCause s) (errKind s) s.merkle.isOpen
      (phaseCode s.stream.phase) s.matched s.done s.busy
    rw [hbusy, hdone, hmatched, hmk, hphase, hkind, hcause, hopc]
    refine ⟨⟨hb, statusLayout_reserved _ _ _ _ _ _ _ _⟩, fun _ => ⟨rfl, rfl, ?_, rfl, fun he => ?_, fun e he => ?_⟩⟩
    · cases s.stream.phase <;> rfl
    · simp only [errKind, errCause, errOpc, he, and_self]
    · simp only [errKind, errCause, errOpc, he, true_and]
      cases e.cause <;> rfl

end Sys2Proof.Machine
end

section
/-! SUPPORT. The register file: what a host write changes and what a host read returns (10_state.md R21, R27, R31). -/

namespace Sys2Proof.Machine

/-! ### Reads -/

/-- OUT0 to OUT15 (10_state.md R21). -/
theorem readReg_out (s : State) (i : Nat) (hi : i < 16) : readReg s (0x10 + i) = blockWord s.out i := by
  interval_cases i <;> rfl

/-- PERS0 to PERS12 (10_state.md R21). -/
theorem readReg_pers (s : State) (i : Fin 13) : readReg s (0x20 + i.val) = s.pers[i] := by
  fin_cases i <;> rfl

/-- Indexes from 0x2E up are reserved (10_state.md R31). -/
theorem readReg_reserved (s : State) (idx : Nat) (h : 0x2E ≤ idx) : readReg s idx = 0 := by
  have hout : ¬ (0x10 ≤ idx ∧ idx ≤ 0x1F) := by omega
  have hpers : ¬ (0x20 ≤ idx ∧ idx ≤ 0x2C) := by omega
  unfold readReg
  split
  case h_17 => rw [if_neg hout, if_neg hpers]
  all_goals omega

/-! ### Writes -/

/-- Read-only and reserved indexes ignore a write (10_state.md R31). -/
theorem writeReg_ignored (s : State) (idx : Nat) (v : Word)
    (h : idx ≤ 0x01 ∨ 0x0E ≤ idx ∧ idx ≤ 0x1F ∨ 0x2D ≤ idx) : writeReg s idx v = s := by
  have hpers : ¬ (0x20 ≤ idx ∧ idx ≤ 0x2C) := by omega
  unfold writeReg
  split
  case h_13 => exact if_neg hpers
  all_goals omega

/-- A write of PERS0 to PERS12, word by word (10_state.md R29). -/
theorem persRegs_write (p : Vector Word 13) (idx : Nat) (v : Word) (h : 0x20 ≤ idx) :
    p.setIfInBounds (idx - 0x20) v = Vector.ofFn fun k : Fin 13 => if idx = 0x20 + k.val then v else p[k] := by
  refine Vector.ext fun k hk => ?_
  simp only [Vector.getElem_setIfInBounds, Vector.getElem_ofFn, Fin.getElem_fin]
  simp only [show (idx - 0x20 = k) ↔ idx = 0x20 + k by omega]

/-- A write outside PERS0 to PERS12 leaves them alone, in the form of `writeReg_eq`. -/
theorem persRegs_keep (p : Vector Word 13) (idx : Nat) (v : Word) (h : idx < 0x20 ∨ 0x2C < idx) :
    (Vector.ofFn fun k : Fin 13 => if idx = 0x20 + k.val then v else p[k]) = p := by
  refine Vector.ext fun k hk => ?_
  simp only [Vector.getElem_ofFn, Fin.getElem_fin]
  exact if_neg (by omega)

/-- A host write, field by field: each index writes the state its name says (10_state.md R21). -/
theorem writeReg_eq (s : State) (idx : Nat) (v : Word) : writeReg s idx v = { s with
    cfg := if idx = 0x02 then v.setWidth 24 else s.cfg
    leafSize := if idx = 0x03 then v else s.leafSize
    fanOut := if idx = 0x04 then v else s.fanOut
    persLen := if idx = 0x05 then v else s.persLen
    srcAddr := if idx = 0x06 then v else s.srcAddr
    srcLen := if idx = 0x07 then v else s.srcLen
    keyAddr := if idx = 0x08 then v else s.keyAddr
    keyLen := if idx = 0x09 then v else s.keyLen
    expAddr := if idx = 0x0A then v else s.expAddr
    twk0 := if idx = 0x0B then v else s.twk0
    twk1 := if idx = 0x0C then v else s.twk1
    twk2 := if idx = 0x0D then v else s.twk2
    pers := Vector.ofFn fun k : Fin 13 => if idx = 0x20 + k.val then v else s.pers[k] } := by
  by_cases hpers : 0x20 ≤ idx ∧ idx ≤ 0x2C
  · have hwrite : writeReg s idx v = { s with pers := s.pers.setIfInBounds (idx - 0x20) v } := by
      unfold writeReg
      split
      case h_13 => exact if_pos hpers
      all_goals omega
    obtain ⟨hlow, -⟩ := hpers
    rw [hwrite, persRegs_write _ _ _ hlow]
    simp [show idx ≠ 2 by omega, show idx ≠ 3 by omega, show idx ≠ 4 by omega, show idx ≠ 5 by omega,
      show idx ≠ 6 by omega, show idx ≠ 7 by omega, show idx ≠ 8 by omega, show idx ≠ 9 by omega,
      show idx ≠ 10 by omega, show idx ≠ 11 by omega, show idx ≠ 12 by omega, show idx ≠ 13 by omega]
  · rw [persRegs_keep _ _ _ (by omega)]
    unfold writeReg
    split
    case h_13 => simp_all
    all_goals simp

theorem readReg_pers_of_range (s : State) (j : Nat) (h : 0x20 ≤ j ∧ j ≤ 0x2C) :
    readReg s j = s.pers[j - 0x20]?.getD 0 := by
  have hout : ¬ (0x10 ≤ j ∧ j ≤ 0x1F) := by omega
  unfold readReg
  split
  case h_17 => rw [if_neg hout, if_pos h]
  all_goals omega

/-- CFG keeps bits 23:0 (10_state.md R27). -/
theorem setWidth_24_64 (v : Word) : (v.setWidth 24).setWidth 64 = v &&& 0xFFFFFF := by
  ext i hi
  simp only [BitVec.getElem_setWidth, BitVec.getLsbD_setWidth, BitVec.getElem_and]
  interval_cases i <;> simp

/-- The register written reads back as its access type says (10_state.md R21, R27, R31). -/
theorem readReg_writeReg_same (s : State) (idx : Nat) (v : Word) (h : idx ≠ 0) :
    readReg (writeReg s idx v) idx = if idx = 0x02 then v &&& 0xFFFFFF
      else if (0x03 ≤ idx ∧ idx ≤ 0x0D) ∨ (0x20 ≤ idx ∧ idx ≤ 0x2C) then v else readReg s idx := by
  by_cases hignored : idx ≤ 0x01 ∨ 0x0E ≤ idx ∧ idx ≤ 0x1F ∨ 0x2D ≤ idx
  · rw [writeReg_ignored s idx v hignored, if_neg (by omega), if_neg (by omega)]
  by_cases hpers : 0x20 ≤ idx ∧ idx ≤ 0x2C
  · have hidx : idx - 0x20 < 13 := by omega
    rw [if_neg (by omega), if_pos (.inr hpers), readReg_pers_of_range _ _ hpers, writeReg_eq]
    simp [hidx, show 32 + (idx - 32) = idx by omega]
  · obtain ⟨hlow, hhigh⟩ : 0x02 ≤ idx ∧ idx ≤ 0x0D := by omega
    interval_cases idx
    · exact setWidth_24_64 v
    all_goals rfl

/-- Every other register reads as before. -/
theorem readReg_writeReg_other (s : State) (idx j : Nat) (v : Word) (h : j ≠ idx) :
    readReg (writeReg s idx v) j = readReg s j := by
  rw [writeReg_eq]
  by_cases hpers : 0x20 ≤ j ∧ j ≤ 0x2C
  · have hj : j - 0x20 < 13 := by omega
    rw [readReg_pers_of_range _ _ hpers, readReg_pers_of_range _ _ hpers]
    simp [hj, show idx ≠ 32 + (j - 32) by omega]
  · unfold readReg
    split
    case h_1 => rfl
    case h_17 => simp only [if_neg hpers]
    case h_15 => rfl
    all_goals simp [h.symm]

end Sys2Proof.Machine
end

section
/-! SUPPORT. The host's accesses: what each answers on an idle and on a BUSY core (10_state.md sections 1 and 5,
20_memory.md sections 2 and 3, 70_reset_and_hazards.md sections 1 and 3). -/

namespace Sys2Proof.Machine

/-! ### What a read returns does not depend on the script -/

@[simp] theorem readReg_script (s : State) (rest : List HostAction) (j : Nat) :
    readReg { s with script := rest } j = readReg s j := rfl

@[simp] theorem imemBytes_script (s : State) (rest : List HostAction) (a n : Nat) :
    imemBytes { s with script := rest } a n = imemBytes s a n := rfl

/-! ### What each access answers -/

/-- A register write is taken only from an idle core and as a whole word (20_memory.md R66, 70 R268). -/
theorem hostWriteReg_next {width idx : Nat} {v : Word} {s t : State} (h : hostWriteReg width idx v s = .next t) :
    width = 8 ∧ s.busy = false ∧ ((idx = 0 ∧ issueWord v s = .next t) ∨ (idx ≠ 0 ∧ t = writeReg s idx v)) := by
  unfold hostWriteReg at h
  split_ifs at h with hwidth hb hidx
  · exact ⟨not_not.mp hwidth, by simpa using hb, .inl ⟨hidx, h⟩⟩
  · exact ⟨not_not.mp hwidth, by simpa using hb, .inr ⟨hidx, by injection h with h; exact h.symm⟩⟩

/-- A register read that is answered changes nothing but the answer and, for STATUS while BUSY, the count of free
values (10_state.md R31; log 5). -/
theorem hostReadReg_next {width idx : Nat} {s t : State} (h : hostReadReg width idx s = .next t) :
    width = 8 ∧ t = { s with
      answer := some (readReg s idx)
      busyReads := if s.busy = true ∧ idx = 0x01 then s.busyReads + 1 else s.busyReads } := by
  unfold hostReadReg at h
  split at h
  next => cases h
  next hwidth =>
    split at h
    next => cases h
    next => exact ⟨not_not.mp hwidth, by injection h with h; exact h.symm⟩

/-- An IMEM write is taken only from an idle core and inside IMEM (20_memory.md R66, R69). -/
theorem hostWriteMem_next {width addr : Nat} {v : Word} {s t : State} (h : hostWriteMem width addr v s = .next t) :
    width ∈ imemWidths ∧ s.busy = false ∧ addr + width ≤ s.config.imemSize
      ∧ t = { s with imem := memWriteBytes s.imem addr (lowBytes width v) } := by
  unfold hostWriteMem at h
  split_ifs at h with hwidth hb haddr
  exact ⟨hwidth, by simpa using hb, haddr, by injection h with h; exact h.symm⟩

/-- An IMEM read that is answered changes nothing but the answer (20_memory.md R66, R69). -/
theorem hostReadMem_next {width addr : Nat} {s t : State} (h : hostReadMem width addr s = .next t) :
    width ∈ imemWidths ∧ t = { s with answer := some (le64 (imemBytes s addr width)) } := by
  unfold hostReadMem at h
  split_ifs at h with hwidth haddr
  exact ⟨hwidth, by injection h with h; exact h.symm⟩

/-! ### An idle core -/

theorem hostReadReg_idle (s : State) (k : Nat) (hb : s.busy = false) :
    hostAccess (.readReg 8 k) s = .next { s with answer := some (readReg s k) } := by
  simp [hostAccess, hostReadReg, hb]

theorem hostReadMem_inside (s : State) (width addr : Nat) (hwidth : width ∈ imemWidths)
    (haddr : addr + width ≤ s.config.imemSize) :
    hostAccess (.readMem width addr) s = .next { s with answer := some (le64 (imemBytes s addr width)) } := by
  simp [hostAccess, hostReadMem, hwidth, haddr]

theorem imemWidths_le {width : Nat} (h : width ∈ imemWidths) : width ≤ 8 := by
  simp only [imemWidths, List.mem_cons, List.not_mem_nil, or_false] at h
  omega

/-- The bytes of the answer to an IMEM read: IMEM's, least significant first, and zeros above (20_memory.md R64). -/
theorem le64_imemBytes_byte (s : State) (k width : Nat) (hwidth : width ≤ 8) (j : Nat) (hj : j < 8) :
    (le64 (imemBytes s k width) >>> (8 * j)).setWidth 8 = if j < width then imemByte s (k + j) else 0 := by
  rw [le64_byte _ (by simpa using hwidth) j hj]
  split_ifs with h <;> simp [imemBytes, h]

/-- Settles O55: no index from 0x2E up is in the register map. -/
theorem reservedRegistersReadZero : Obligations.ReservedRegistersReadZero :=
  fun s idx v h => ⟨readReg_reserved s idx h, rfl, writeReg_ignored s idx v (by omega)⟩

/-- Settles O54: the step is `writeReg` on the state without the access, read back and written field by field. -/
theorem registerWriteThenRead : Obligations.RegisterWriteThenRead := by
  intro s rest idx v hidx hb hscript
  refine ⟨writeReg { s with script := rest } idx v, ?_, ?_, ?_, writeReg_eq _ idx v, ?_⟩
  · rw [step_cons s _ rest hscript, hostAccess_writeReg { s with script := rest } idx v hb hidx]
  · rw [readReg_writeReg_same _ idx v hidx, readReg_script]
  · intro j hj
    rw [readReg_writeReg_other _ idx j v hj, readReg_script]
  · intro h
    exact writeReg_ignored _ idx v (h.imp_left (by omega))

/-- Settles O56: each read's own equation on an idle core, and its inversion on any core. -/
theorem hostReadsHaveNoSideEffect : Obligations.HostReadsHaveNoSideEffect := by
  intro s rest width k
  refine ⟨step_nil s, ⟨rfl, rfl, rfl, rfl, rfl, rfl, rfl, rfl, rfl, rfl, rfl, rfl, rfl, rfl, readReg_out s,
    readReg_pers s, rfl⟩, ?_, ?_, ?_, ?_⟩
  · intro hb hscript
    rw [step_cons s _ rest hscript, hostReadReg_idle { s with script := rest } k hb, readReg_script]
  · intro hb hwidth haddr hscript
    refine ⟨le64 (imemBytes s k width), ?_, le64_imemBytes_byte s k width (imemWidths_le hwidth)⟩
    rw [step_cons s _ rest hscript, hostReadMem_inside { s with script := rest } width k hwidth haddr,
      imemBytes_script]
  · intro t hscript h
    rw [step_cons s _ rest hscript] at h
    exact hostReadReg_next (s := { s with script := rest }) h
  · intro t hscript h
    rw [step_cons s _ rest hscript] at h
    exact hostReadMem_next (s := { s with script := rest }) h

/-- Byte `k` of the bytes an IMEM write stores (20_memory.md R64). -/
theorem lowBytes_getElem? (width : Nat) (v : Word) (k : Nat) (hk : k < width) :
    (lowBytes width v)[k]? = some ((v >>> (8 * k)).setWidth 8) := by
  simp only [lowBytes, List.getElem?_map, List.getElem?_range hk, Option.map_some, Option.some.injEq]
  ext i hi
  simp [BitVec.getElem_extractLsb', BitVec.getElem_setWidth]

/-- Settles O57: a read after the write of consecutive bytes, in their range and outside it. -/
theorem hostMemWriteIsLittleEndian : Obligations.HostMemWriteIsLittleEndian := by
  intro s rest width addr v hb hwidth haddr hscript
  refine ⟨{ s with script := rest, imem := memWriteBytes s.imem addr (lowBytes width v) }, ?_, rfl, ?_, ?_,
    fun _ _ => rfl⟩
  · rw [step_cons s _ rest hscript, hostAccess_writeMem { s with script := rest } width addr v hb hwidth haddr]
  · intro k hk
    simp only [imemByte, memRead_memWriteBytes, lowBytes_length]
    rw [if_pos (by omega), Nat.add_sub_cancel_left, lowBytes_getElem? width v k hk, Option.getD_some]
  · intro a ha
    simp only [imemByte, memRead_memWriteBytes, lowBytes_length]
    rw [if_neg (by omega)]

/-- Settles O58: each stop is one check of one access. -/
theorem badHostAccessesStop : Obligations.BadHostAccessesStop := by
  intro s rest width addr v hb
  rw [← imemWidths]
  refine ⟨fun hwidth haddr => ⟨fun hscript => ?_, fun hscript => ?_⟩,
    fun hwidth => ⟨fun hscript => ?_, fun hscript => ?_⟩, fun hwidth => ⟨fun hscript => ?_, fun hscript => ?_⟩⟩
  · rw [step_cons s _ rest hscript]
    simp [hostAccess, hostWriteMem, hwidth, hb, haddr.not_ge]
  · rw [step_cons s _ rest hscript]
    simp [hostAccess, hostReadMem, hwidth, haddr.not_ge]
  · rw [step_cons s _ rest hscript, hostAccess, hostWriteMem, if_pos hwidth]
  · rw [step_cons s _ rest hscript, hostAccess, hostReadMem, if_pos hwidth]
  · rw [step_cons s _ rest hscript, hostAccess, hostWriteReg, if_pos hwidth]
  · rw [step_cons s _ rest hscript, hostAccess, hostReadReg, if_pos hwidth]

/-! ### A BUSY core -/

/-- A STATUS read is answered while BUSY, and takes the next free value (log 5). -/
theorem hostReadReg_status_busy (s : State) (hb : s.busy = true) : hostAccess (.readReg 8 0x01) s
    = .next { s with answer := some (readReg s 0x01), busyReads := s.busyReads + 1 } := by
  rw [hostAccess, hostReadReg, if_neg (by decide), if_neg (by simp [isResultReg]), if_pos ⟨hb, rfl⟩]

/-- Settles O59: STATUS shows BUSY, and each forbidden access meets its BUSY check. -/
theorem busyContract : Obligations.BusyContract := by
  intro s rest idx addr v hb
  refine ⟨?_, fun hscript => ?_, fun width hwidth hscript => ?_, fun hlow hhigh hscript => ?_, fun hscript => ?_⟩
  · rw [readReg_status, statusRead_busy s hb]
    exact (statusFree_fields _).1
  · rw [step_cons s _ rest hscript]
    simp [hostAccess, hostWriteReg, hb]
  · rw [step_cons s _ rest hscript]
    simp [hostAccess, hostWriteMem, imemWidths, hwidth, hb]
  · rw [step_cons s _ rest hscript]
    simp [hostAccess, hostReadReg, hb, isResultReg, hlow, hhigh]
  · refine ⟨{ s with script := rest, answer := some (readReg s 0x01), busyReads := s.busyReads + 1 }, ?_, rfl, rfl⟩
    rw [step_cons s _ rest hscript, hostReadReg_status_busy { s with script := rest } hb, readReg_script]

/-- Settles O28: of the five accesses a BUSY core answers only reads and reset. -/
theorem busyStaysUntilReset : Obligations.BusyStaysUntilReset := by
  intro s t hb h
  cases hscript : s.script with
  | nil =>
    rw [step_nil s hscript] at h
    cases h
    exact .inr rfl
  | cons a rest =>
    rw [step_cons s a rest hscript] at h
    cases a with
    | writeReg width idx v =>
      obtain ⟨-, hidle, -⟩ := hostWriteReg_next h
      simp [hb] at hidle
    | readReg width idx =>
      obtain ⟨-, rfl⟩ := hostReadReg_next h
      exact .inr rfl
    | writeMem width addr v =>
      obtain ⟨-, hidle, -⟩ := hostWriteMem_next h
      simp [hb] at hidle
    | readMem width addr =>
      obtain ⟨-, rfl⟩ := hostReadMem_next h
      exact .inr rfl
    | reset =>
      cases h
      exact .inl ⟨rest, rfl, rfl⟩

/-! ### Reset -/

theorem statusRead_resetState (c : Config) (epoch : Nat) (script : List HostAction) :
    statusRead (resetState c epoch script) = 0 := by
  have hlayout : statusLayout 0 0 0 false 0 false false false = 0 := by decide
  rw [statusRead_idle _ rfl, statusWord_eq]
  exact hlayout

theorem readReg_resetState (c : Config) (epoch : Nat) (script : List HostAction) (idx : Nat) :
    readReg (resetState c epoch script) idx = if idx = 0x03 then 1024 else if idx = 0x04 then 8 else 0 := by
  by_cases hpers : 0x20 ≤ idx ∧ idx ≤ 0x2C
  · have hidx : idx - 0x20 < 13 := by omega
    rw [if_neg (by omega), if_neg (by omega), readReg_pers_of_range _ _ hpers]
    simp [resetState, hidx]
  by_cases hout : 0x10 ≤ idx ∧ idx ≤ 0x1F
  · obtain ⟨i, rfl⟩ : ∃ i, idx = 0x10 + i := ⟨idx - 0x10, by omega⟩
    rw [if_neg (by omega), if_neg (by omega), readReg_out _ i (by omega)]
    exact blockWord_zeroBlock i
  by_cases hreserved : 0x2E ≤ idx
  · rw [if_neg (by omega), if_neg (by omega), readReg_reserved _ _ hreserved]
  by_cases hstatus : idx = 0x01
  · subst hstatus
    exact statusRead_resetState c epoch script
  · obtain rfl | hlow | rfl : idx = 0 ∨ (2 ≤ idx ∧ idx < 0x10) ∨ idx = 0x2D := by omega
    · rfl
    · obtain ⟨hlo, hhi⟩ := hlow
      interval_cases idx <;> rfl
    · rfl

/-- Settles O53: the step answers the reset state, whose fields and registers are written out. -/
theorem resetGivesResetValues : Obligations.ResetGivesResetValues := by
  intro s rest hscript
  exact ⟨applyReset { s with script := rest }, step_cons s _ rest hscript, rfl, rfl, readReg_resetState _ _ _, rfl, rfl,
    memRead_nil⟩

end Sys2Proof.Machine
end

section
/-! SUPPORT. Which causes a command can raise (60_exceptions.md R237, R244). -/

namespace Sys2Proof.Machine

/-! ### The causes of a computation -/

/-- The rest of a command raises nothing but causes in `P`, and where it completes no error is pending. -/
def RaisesOnly (P : Cause → Prop) : Except Stop State → Prop
  | .ok t => t.err = none
  | .error (.raises c) => P c
  | .error .never => True

section
variable {P : Cause → Prop}

theorem raisesOnly_ok {t : State} (h : t.err = none) : RaisesOnly P (pure t) := h

theorem raisesOnly_require {p : Prop} [Decidable p] {c : Cause} {f : Unit → Except Stop State} (hc : ¬ p → P c)
    (hf : RaisesOnly P (f ())) : RaisesOnly P (require p c >>= f) := by
  rcases require_cases p c with ⟨-, hok⟩ | ⟨hneg, herror⟩
  · rwa [hok, except_bind_ok]
  · rw [herror, except_bind_error]
    exact hc hneg

theorem raisesOnly_checkRange {s : State} {a : Word} {n : Nat} {f : Unit → Except Stop State} (hc : P .addrRange)
    (hf : RaisesOnly P (f ())) : RaisesOnly P (checkRange s a n >>= f) :=
  raisesOnly_require (fun _ => hc) hf

/-- The tree check fails in the tree layout only (42 R155, 46 R220, 45 R207). -/
theorem raisesOnly_checkTree {s : State} {cfg : CfgRec} {f : Unit → Except Stop State}
    (hc : cfg.mode = modeTree → P .capacity) (hf : RaisesOnly P (f ())) : RaisesOnly P (checkTree s cfg >>= f) :=
  raisesOnly_require (fun hneg => hc (Classical.not_imp.mp hneg).1) hf

theorem raisesOnly_terminating {α : Type} {o : Option α} {f : α → Except Stop State}
    (hf : ∀ a, RaisesOnly P (f a)) : RaisesOnly P (terminating o >>= f) := by
  cases o with
  | none => trivial
  | some a => exact hf a

/-- Every check of validation is an InvalidConfig (60_exceptions.md R236). -/
theorem firstConfigError_kind {cfg : CfgRec} {c : Cause} (h : firstConfigError cfg = some c) :
    causeKind c = .invalidConfig := by
  unfold firstConfigError at h
  split_ifs at h <;> cases h <;> rfl

theorem raisesOnly_validateConfig {cfg : CfgRec} {f : Unit → Except Stop State}
    (hc : ∀ c, causeKind c = .invalidConfig → P c) (hf : RaisesOnly P (f ())) :
    RaisesOnly P (validateConfig cfg >>= f) := by
  cases hcheck : firstConfigError cfg with
  | none => rwa [validateConfig_legal cfg ((firstConfigError_none_iff cfg).mp hcheck), except_bind_ok]
  | some c =>
    rw [validateConfig_raises hcheck, except_bind_error]
    exact hc c (firstConfigError_kind hcheck)

/-- The cause recorded by a command that ran on a ready core is one of those its body raises. -/
theorem cause_of_raisesOnly {s t : State} {opc : Byte} {x : Except Stop State} {e : ErrorRecord}
    (hx : RaisesOnly P x) (hs : s.err = none) (h : ending s opc x = .next t) (ht : t.err = some e) : P e.cause := by
  match x, hx, h with
  | .ok u, hx, h =>
    cases h
    rw [show t.err = none from hx] at ht
    cases ht
  | .error (.raises c), hx, h =>
    cases h
    cases ht
    exact hx
  | .error .never, _, h =>
    cases h
    rw [show (running s).err = none from hs] at ht
    cases ht

end

/-! ### The statements -/

/-- The causes each command can record (60_exceptions.md R237) on the state `s`. -/
def ListedCause (s : State) (i : Instr) (c : Cause) : Prop :=
  match i with
  | .nop | .clrerr | .wipe => False
  | .enc | .dec | .ubi _ => c = .addrRange
  | .hash | .verify =>
    causeKind c = .invalidConfig ∨ c = .addrRange ∨ (c = .capacity ∧ (currentConfig s).mode = modeTree)
  | .tree => causeKind c = .invalidConfig ∨ c = .addrRange ∨ c = .capacity
  | .mac => causeKind c = .invalidConfig ∨ c = .addrRange
  | .sInit | .mkBegin => causeKind c = .invalidConfig
  | .sUpdate => c = .streamNotOpen ∨ c = .addrRange
  | .sFinal => c = .finalizeTwice ∨ c = .streamNotOpen
  | .mkPush => c = .merkleNotOpen ∨ c = .addrRange ∨ c = .capacity
  | .mkRoot => c = .merkleNotOpen ∨ c = .merkleEmpty ∨ c = .capacity

/-- A command other than CLRERR on a ready core with a residual that fits its block raises listed causes only: each
body, check by check. -/
theorem exec_raisesOnly (i : Instr) (hi : i ≠ .clrerr) (s : State) (h : Ready s) (hres : s.stream.res.length ≤ 128) :
    ∃ x, exec i s = ending s i.opc x ∧ RaisesOnly (ListedCause s i) x := by
  obtain ⟨-, herr⟩ := id h
  cases i
  case clrerr => exact absurd rfl hi
  case nop => exact ⟨.ok (setDone (countCommand s) false), exec_nop_ready s h, herr⟩
  case wipe => exact ⟨.ok (setDone (wipeState (countCommand s)) false), exec_wipe_ready s h, herr⟩
  case enc =>
    refine ⟨_, exec_enc_ready s h, ?_⟩
    exact raisesOnly_checkRange rfl (raisesOnly_checkRange rfl (raisesOnly_ok herr))
  case dec =>
    refine ⟨_, exec_dec_ready s h, ?_⟩
    exact raisesOnly_checkRange rfl (raisesOnly_checkRange rfl (raisesOnly_ok herr))
  case ubi d =>
    refine ⟨_, exec_ubi_ready d s h, ?_⟩
    exact raisesOnly_checkRange rfl (raisesOnly_checkRange rfl (raisesOnly_ok herr))
  case hash =>
    refine ⟨_, exec_hash_ready s h, ?_⟩
    exact raisesOnly_validateConfig (fun _ => Or.inl) <| raisesOnly_checkRange (Or.inr (Or.inl rfl)) <|
      raisesOnly_checkTree (fun hmode => Or.inr (Or.inr ⟨rfl, hmode⟩)) <|
      raisesOnly_terminating fun _ => raisesOnly_ok herr
  case verify =>
    refine ⟨_, exec_verify_ready s h, ?_⟩
    exact raisesOnly_validateConfig (fun _ => Or.inl) <| raisesOnly_checkRange (Or.inr (Or.inl rfl)) <|
      raisesOnly_checkRange (Or.inr (Or.inl rfl)) <|
      raisesOnly_checkTree (fun hmode => Or.inr (Or.inr ⟨rfl, hmode⟩)) <|
      raisesOnly_terminating fun _ => raisesOnly_ok herr
  case tree =>
    refine ⟨_, exec_tree_ready s h, ?_⟩
    exact raisesOnly_validateConfig (fun _ => Or.inl) <| raisesOnly_checkRange (Or.inr (Or.inl rfl)) <|
      raisesOnly_checkTree (fun _ => Or.inr (Or.inr rfl)) <| raisesOnly_terminating fun _ => raisesOnly_ok herr
  case mac =>
    refine ⟨_, exec_mac_ready s h, ?_⟩
    exact raisesOnly_validateConfig (fun _ => Or.inl) <| raisesOnly_checkRange (Or.inr rfl) <|
      raisesOnly_checkRange (Or.inr rfl) <| raisesOnly_ok herr
  case sInit =>
    refine ⟨_, exec_sInit_ready s h, ?_⟩
    exact raisesOnly_validateConfig (fun _ hkind => hkind) (raisesOnly_ok herr)
  case mkBegin =>
    refine ⟨_, exec_mkBegin_ready s h, ?_⟩
    exact raisesOnly_validateConfig (fun _ hkind => hkind) (raisesOnly_ok herr)
  case sUpdate =>
    refine ⟨_, exec_sUpdate_ready s h, ?_⟩
    exact raisesOnly_require (fun _ => Or.inl rfl) <| raisesOnly_checkRange (Or.inr rfl) <| raisesOnly_ok herr
  case sFinal =>
    refine ⟨_, exec_sFinal_ready s h, ?_⟩
    exact raisesOnly_require (fun _ => Or.inl rfl) <| raisesOnly_require (fun _ => Or.inr rfl) <|
      raisesOnly_require (fun hlong => absurd hres hlong) <| raisesOnly_ok herr
  case mkPush =>
    refine ⟨_, exec_mkPush_ready s h, ?_⟩
    exact raisesOnly_require (fun _ => Or.inl rfl) <| raisesOnly_checkRange (Or.inr (Or.inl rfl)) <|
      raisesOnly_require (fun _ => Or.inr (Or.inr rfl)) <| raisesOnly_checkTree (fun _ => Or.inr (Or.inr rfl)) <|
      raisesOnly_terminating fun _ => raisesOnly_ok herr
  case mkRoot =>
    refine ⟨_, exec_mkRoot_ready s h, ?_⟩
    exact raisesOnly_require (fun _ => Or.inl rfl) <| raisesOnly_require (fun _ => Or.inr (Or.inl rfl)) <|
      raisesOnly_require (fun _ => Or.inr (Or.inr rfl)) <| raisesOnly_terminating fun _ => raisesOnly_ok herr

/-- A command that records an error where none was pending records a listed cause. -/
theorem exec_listedCause {i : Instr} {s t : State} {e : ErrorRecord} (hs : s.err = none) (h : exec i s = .next t)
    (ht : t.err = some e) (hres : s.stream.res.length ≤ 128) : ListedCause s i e.cause := by
  by_cases hi : i = .clrerr
  · subst hi
    simp [exec_clrerr_err_eq_none s t hs h] at ht
  · obtain ⟨hb, -⟩ := exec_next i hi s t h
    obtain ⟨x, hx, hraises⟩ := exec_raisesOnly i hi s ⟨hb, hs⟩ hres
    exact cause_of_raisesOnly hraises hs (hx ▸ h) ht

/-- Settles O44: `ListedCause`, which is the table. -/
theorem causesPerCommand : Obligations.CausesPerCommand := by
  intro i s t e hs h ht hres
  have hlisted := exec_listedCause hs h ht hres
  cases i <;> exact hlisted

/-- A residual never exceeds one block in any lifecycle state (10_state.md R33). -/
theorem StreamInv.res_le {x : StreamCtx} (h : StreamInv x) : x.res.length ≤ 128 := by
  obtain ⟨hempty, hfinalized, hopened⟩ := h
  cases hphase : x.phase with
  | empty => simp [hempty hphase, resetStream]
  | finalized =>
    obtain ⟨-, hres, -⟩ := hfinalized hphase
    simp [hres]
  | opened =>
    obtain ⟨-, -, hres, -⟩ := hopened hphase
    exact hres

/-- InternalInvariant is no command's listed cause (60_exceptions.md R244). -/
theorem ListedCause.not_internal {s : State} {i : Instr} {c : Cause} (h : ListedCause s i c) :
    causeKind c ≠ .internalInvariant := by
  cases c
  case ubiBlockOversize => cases i <;> simp [ListedCause, causeKind] at h
  all_goals decide

/-- Settles O50: no command lists InternalInvariant among its causes once the residual fits its block. -/
theorem internalInvariantIsUnreachable : Obligations.InternalInvariantIsUnreachable := by
  intro i s t e hinv hs h ht hkind
  exact ListedCause.not_internal (exec_listedCause hs h ht hinv.res_le) hkind

end Sys2Proof.Machine
end

section
/-! SUPPORT. MEM_WIPE is carried and read by no computation (46_verify_system.md R224). -/

namespace Sys2Proof.Machine

/-! ### The pure functions do not read the bit -/

/-- A configuration with MEM_WIPE cleared. -/
abbrev CfgRec.noWipe (cfg : CfgRec) : CfgRec := { cfg with wipe := false }

/-- A streaming context with MEM_WIPE cleared. -/
abbrev StreamCtx.noWipe (x : StreamCtx) : StreamCtx := { x with wipe := false }

theorem hashDigest_noWipe (A : Algo) (cfg : CfgRec) (msg : List Byte) :
    hashDigest A cfg.noWipe msg = hashDigest A cfg msg := by
  simp only [hashDigest, treeHash, hashSeq, postConfig, configBlock]

theorem treeHash_noWipe (A : Algo) (cfg : CfgRec) (msg : List Byte) :
    treeHash A cfg.noWipe msg = treeHash A cfg msg := by
  simp only [treeHash, postConfig, configBlock]

theorem macDigest_noWipe (A : Algo) (cfg : CfgRec) (key msg : List Byte) :
    macDigest A cfg.noWipe key msg = macDigest A cfg key msg := by
  simp only [macDigest, postConfig, configBlock]

theorem merkleLevel_noWipe (A : Algo) (cfg : CfgRec) :
    ∀ level : List (List Byte), merkleLevel A cfg.noWipe level = merkleLevel A cfg level
  | [] => rfl
  | [last] => by simp only [merkleLevel, hashDigest_noWipe]
  | a :: b :: rest => by simp only [merkleLevel, hashDigest_noWipe, merkleLevel_noWipe A cfg rest]

theorem merkleLoop_noWipe (A : Algo) (cfg : CfgRec) (turns : Nat) (level : List (List Byte)) :
    merkleLoop A cfg.noWipe turns level = merkleLoop A cfg turns level := by
  induction turns generalizing level with
  | zero => rcases level with _ | ⟨a, _ | ⟨b, rest⟩⟩ <;> rfl
  | succ turns ih =>
    rcases level with _ | ⟨a, _ | ⟨b, rest⟩⟩
    · simp only [merkleLoop, merkleLevel_noWipe, ih]
    · rfl
    · simp only [merkleLoop, merkleLevel_noWipe, ih]

theorem merkleReduce_noWipe (A : Algo) (cfg : CfgRec) (nodes : List (List Byte)) :
    merkleReduce A cfg.noWipe nodes = merkleReduce A cfg nodes :=
  merkleLoop_noWipe A cfg _ nodes

theorem openStream_noWipe (A : Algo) (cfg : CfgRec) : openStream A cfg.noWipe = (openStream A cfg).noWipe := by
  simp only [openStream, postConfig, configBlock]

theorem absorbBlocks_noWipe (A : Algo) (turns : Nat) (x : StreamCtx) :
    absorbBlocks A turns x.noWipe = (absorbBlocks A turns x).noWipe := by
  induction turns generalizing x with
  | zero => rfl
  | succ turns ih =>
    simp only [absorbBlocks]
    split
    · exact ih (consumeBlock A x)
    · rfl

theorem absorb_noWipe (A : Algo) (x : StreamCtx) (chunk : List Byte) (len : Word) :
    absorb A x.noWipe chunk len = (absorb A x chunk len).noWipe := by
  have hblocks := absorbBlocks_noWipe A (x.res ++ chunk).length { x with res := x.res ++ chunk }
  simp only [absorb, hblocks]

theorem streamDigest_noWipe (A : Algo) (x : StreamCtx) : streamDigest A x.noWipe = streamDigest A x := by
  simp only [streamDigest]

/-! ### Erasing the bit from the state -/

theorem currentConfig_eraseWipe (s : State) : currentConfig (eraseWipe s) = (currentConfig s).noWipe := by
  have hbits : (s.cfg &&& 0xFBFFFF).extractLsb' 0 16 = s.cfg.extractLsb' 0 16 := by
    ext i hi; simp only [BitVec.getElem_extractLsb', BitVec.getLsbD_and]; interval_cases i <;> simp
  have hmode : (s.cfg &&& 0xFBFFFF).extractLsb' 16 2 = s.cfg.extractLsb' 16 2 := by
    ext i hi; simp only [BitVec.getElem_extractLsb', BitVec.getLsbD_and]; interval_cases i <;> simp
  have hxform : (s.cfg &&& 0xFBFFFF).extractLsb' 20 4 = s.cfg.extractLsb' 20 4 := by
    ext i hi; simp only [BitVec.getElem_extractLsb', BitVec.getLsbD_and]; interval_cases i <;> simp
  have hwipe : (s.cfg &&& 0xFBFFFF).getLsbD 18 = false := by simp
  have hstrict : (s.cfg &&& 0xFBFFFF).getLsbD 19 = s.cfg.getLsbD 19 := by simp
  simp only [currentConfig, eraseWipe, persBuffer, hbits, hmode, hwipe, hstrict, hxform]

/-! ### What a command reads is the same without the bit -/

theorem eraseWipe_stream (s : State) : (eraseWipe s).stream = s.stream.noWipe := rfl
theorem eraseWipe_merkleCfg (s : State) : (eraseWipe s).merkle.cfg = s.merkle.cfg.noWipe := rfl
@[simp] theorem eraseWipe_config (s : State) : (eraseWipe s).config = s.config := rfl
@[simp] theorem eraseWipe_srcAddr (s : State) : (eraseWipe s).srcAddr = s.srcAddr := rfl
@[simp] theorem eraseWipe_srcLen (s : State) : (eraseWipe s).srcLen = s.srcLen := rfl
@[simp] theorem eraseWipe_keyAddr (s : State) : (eraseWipe s).keyAddr = s.keyAddr := rfl
@[simp] theorem eraseWipe_keyLen (s : State) : (eraseWipe s).keyLen = s.keyLen := rfl
@[simp] theorem eraseWipe_expAddr (s : State) : (eraseWipe s).expAddr = s.expAddr := rfl
@[simp] theorem eraseWipe_merkleOpen (s : State) : (eraseWipe s).merkle.isOpen = s.merkle.isOpen := rfl
@[simp] theorem eraseWipe_merkleNodes (s : State) : (eraseWipe s).merkle.nodes = s.merkle.nodes := rfl
@[simp] theorem srcBytes_eraseWipe (s : State) : srcBytes (eraseWipe s) = srcBytes s := rfl
@[simp] theorem keyBytes_eraseWipe (s : State) : keyBytes (eraseWipe s) = keyBytes s := rfl
@[simp] theorem expBytes_eraseWipe (s : State) (n : Nat) : expBytes (eraseWipe s) n = expBytes s n := rfl
@[simp] theorem keyBlock_eraseWipe (s : State) : keyBlock (eraseWipe s) = keyBlock s := rfl
@[simp] theorem srcBlock_eraseWipe (s : State) : srcBlock (eraseWipe s) = srcBlock s := rfl
@[simp] theorem tweakRegs_eraseWipe (s : State) : tweakRegs (eraseWipe s) = tweakRegs s := rfl
@[simp] theorem checkRange_eraseWipe (s : State) (a : Word) (n : Nat) :
    checkRange (eraseWipe s) a n = checkRange s a n := rfl
@[simp] theorem checkTree_eraseWipe (s : State) (cfg : CfgRec) :
    checkTree (eraseWipe s) cfg.noWipe = checkTree s cfg := rfl
@[simp] theorem validateConfig_noWipe (cfg : CfgRec) : validateConfig cfg.noWipe = validateConfig cfg := rfl

/-! ### What a command writes commutes with erasing the bit -/

@[simp] theorem setDone_eraseWipe (s : State) (m : Bool) : setDone (eraseWipe s) m = eraseWipe (setDone s m) := rfl
@[simp] theorem writeBlockResult_eraseWipe (s : State) (v : Block) :
    writeBlockResult (eraseWipe s) v = eraseWipe (writeBlockResult s v) := rfl
@[simp] theorem writeDigest_eraseWipe (s : State) (dg : List Byte) (bits : BitVec 16) :
    writeDigest (eraseWipe s) dg bits = eraseWipe (writeDigest s dg bits) := by
  simp only [writeDigest, eraseWipe]
@[simp] theorem clearResult_eraseWipe (s : State) : clearResult (eraseWipe s) = eraseWipe (clearResult s) := rfl
@[simp] theorem appendNode_eraseWipe (s : State) (h : List Byte) :
    appendNode (eraseWipe s) h = eraseWipe (appendNode s h) := rfl
@[simp] theorem setStream_eraseWipe (s : State) (x : StreamCtx) :
    setStream (eraseWipe s) x.noWipe = eraseWipe (setStream s x) := rfl
@[simp] theorem closeStream_eraseWipe (s : State) (x : StreamCtx) :
    setStream (eraseWipe s) (closeStream x.noWipe) = eraseWipe (setStream s (closeStream x)) := rfl
@[simp] theorem openMerkle_eraseWipe (s : State) (cfg : CfgRec) :
    setMerkle (eraseWipe s) { isOpen := true, cfg := cfg.noWipe, nodes := [] }
      = eraseWipe (setMerkle s { isOpen := true, cfg := cfg, nodes := [] }) := rfl
@[simp] theorem closeMerkle_eraseWipe (s : State) :
    setMerkle (eraseWipe s) resetMerkle = eraseWipe (setMerkle s resetMerkle) := rfl
theorem countCommand_eraseWipe (s : State) : countCommand (eraseWipe s) = eraseWipe (countCommand s) := rfl

/-- A command commutes with erasing the bit when its body does. -/
theorem runCommand_eraseWipe (opc : Byte) (body : State → Except Stop State) (s : State)
    (h : ∀ s, body (eraseWipe s) = (body s).map eraseWipe) :
    runCommand opc body (eraseWipe s) = eraseWipeResult (runCommand opc body s) := by
  have hb : (eraseWipe s).busy = s.busy := rfl
  have he : (eraseWipe s).err = s.err := rfl
  unfold runCommand
  rw [hb, he, countCommand_eraseWipe, h]
  split
  · rfl
  · split
    · rfl
    · rcases body (countCommand s) with (_ | _) | _ <;> rfl

@[simp] theorem map_bind {α : Type} (x : Except Stop α) (f : α → Except Stop State) (g : State → State) :
    (x >>= f).map g = x >>= fun a => (f a).map g := by
  cases x <;> rfl

@[simp] theorem map_ok (g : State → State) (s : State) : (Except.ok s : Except Stop State).map g = .ok (g s) := rfl

theorem returnFromError_eraseWipe (s : State) : returnFromError (eraseWipe s) = eraseWipe (returnFromError s) := by
  have he : (eraseWipe s).err = s.err := rfl
  unfold returnFromError
  rw [he]
  split
  · rfl
  · split <;> rfl

/-- Settles O49: the body of each command commutes with erasing the bit, since what it computes does not read it. -/
theorem memWipeHasNoEffect : Obligations.MemWipeHasNoEffect := by
  intro i s
  cases i <;> simp only [exec]
  case clrerr =>
    unfold execClrerr
    rw [countCommand_eraseWipe, returnFromError_eraseWipe, show (eraseWipe s).busy = s.busy from rfl]
    split <;> rfl
  case nop => exact runCommand_eraseWipe _ _ s fun _ => rfl
  case wipe => exact runCommand_eraseWipe _ _ s fun _ => rfl
  case enc | dec | ubi => exact runCommand_eraseWipe _ _ s fun s => by simp
  case hash | verify => exact runCommand_eraseWipe _ _ s fun s => by simp [currentConfig_eraseWipe, hashDigest_noWipe]
  case tree =>
    refine runCommand_eraseWipe _ _ s fun s => ?_
    simp [currentConfig_eraseWipe, treeHash_noWipe]
    rfl
  case mac => exact runCommand_eraseWipe _ _ s fun s => by simp [currentConfig_eraseWipe, macDigest_noWipe]
  case sInit => exact runCommand_eraseWipe _ _ s fun s => by simp [currentConfig_eraseWipe, openStream_noWipe]
  case mkBegin => exact runCommand_eraseWipe _ _ s fun s => by simp [currentConfig_eraseWipe]
  case sUpdate =>
    refine runCommand_eraseWipe _ _ s fun s => ?_
    simp [eraseWipe_stream, absorb_noWipe]
    rfl
  case sFinal =>
    refine runCommand_eraseWipe _ _ s fun s => ?_
    simp [eraseWipe_stream, streamDigest_noWipe]
    rfl
  case mkPush =>
    refine runCommand_eraseWipe _ _ s fun s => ?_
    simp [eraseWipe_merkleCfg, hashDigest_noWipe]
    rfl
  case mkRoot =>
    refine runCommand_eraseWipe _ _ s fun s => ?_
    simp [eraseWipe_merkleCfg, merkleReduce_noWipe]
    rfl

end Sys2Proof.Machine
end

section
/-! SUPPORT. The cipher undoes itself step by step: rotation, MIX round, permutation, round group, subkey addition
(40_cipher.md R110, R111). -/

namespace Sys2Proof.Machine

/-! ### Rotations -/

/-- Bit `i` of a word rotated left (00_scope.md R11). -/
theorem rotl64_getLsbD (x : Word) (r i : Nat) (h1 : 1 ≤ r) (h2 : r ≤ 63) (hi : i < 64) :
    (rotl64 x r).getLsbD i = x.getLsbD (if i < r then i + (64 - r) else i - r) := by
  by_cases h : i < r
  · simp [rotl64, hi, h, Nat.add_comm]
  · have hout : x.getLsbD (64 - r + i) = false := BitVec.getLsbD_of_ge _ _ (by omega)
    simp [rotl64, hi, h, hout, BitVec.getLsbD_eq_getElem (show i - r < 64 by omega)]

/-- Bit `i` of a word rotated right (00_scope.md R11). -/
theorem rotr64_getLsbD (x : Word) (r i : Nat) (h1 : 1 ≤ r) (h2 : r ≤ 63) (hi : i < 64) :
    (rotr64 x r).getLsbD i = x.getLsbD (if i < 64 - r then i + r else i - (64 - r)) := by
  by_cases h : i < 64 - r
  · simp [rotr64, hi, h, Nat.add_comm]
  · have hout : x.getLsbD (r + i) = false := BitVec.getLsbD_of_ge _ _ (by omega)
    simp [rotr64, hi, h, hout, BitVec.getLsbD_eq_getElem (show i - (64 - r) < 64 by omega)]

theorem rotr64_rotl64 (x : Word) (r : Nat) (h1 : 1 ≤ r) (h2 : r ≤ 63) : rotr64 (rotl64 x r) r = x := by
  refine BitVec.eq_of_getLsbD_eq fun i hi => ?_
  rw [rotr64_getLsbD _ _ _ h1 h2 hi, rotl64_getLsbD _ _ _ h1 h2 (by split_ifs <;> omega)]
  congr 1
  split_ifs <;> omega

theorem rotl64_rotr64 (x : Word) (r : Nat) (h1 : 1 ≤ r) (h2 : r ≤ 63) : rotl64 (rotr64 x r) r = x := by
  refine BitVec.eq_of_getLsbD_eq fun i hi => ?_
  rw [rotl64_getLsbD _ _ _ h1 h2 hi, rotr64_getLsbD _ _ _ h1 h2 (by split_ifs <;> omega)]
  congr 1
  split_ifs <;> omega

/-! ### MIX round and permutation -/

section
variable {A : Algo} (hA : A.wf = true)
include hA

theorem invMixRound_mixRound (v : Block) (r : Nat) : invMixRound A (mixRound A v r) r = v := by
  refine block_ext_pairs A hA _ _ fun j hj => ?_
  obtain ⟨hr1, hr2⟩ := rotAmount_range A hA r j hj
  obtain ⟨hmix0, hmix1⟩ := pairWord_mixRound A hA v r j hj
  obtain ⟨hinv0, hinv1⟩ := pairWord_invMixRound A hA (mixRound A v r) r j hj
  rw [hinv0, hinv1, hmix0, hmix1, BitVec.xor_assoc, BitVec.xor_self, BitVec.xor_zero, rotr64_rotl64 _ _ hr1 hr2,
    BitVec.add_sub_cancel]
  exact ⟨rfl, rfl⟩

theorem mixRound_invMixRound (w : Block) (r : Nat) : mixRound A (invMixRound A w r) r = w := by
  refine block_ext_pairs A hA _ _ fun j hj => ?_
  obtain ⟨hr1, hr2⟩ := rotAmount_range A hA r j hj
  obtain ⟨hmix0, hmix1⟩ := pairWord_mixRound A hA (invMixRound A w r) r j hj
  obtain ⟨hinv0, hinv1⟩ := pairWord_invMixRound A hA w r j hj
  rw [hmix0, hmix1, hinv0, hinv1, BitVec.sub_add_cancel, rotl64_rotr64 _ _ hr1 hr2, BitVec.xor_assoc,
    BitVec.xor_self, BitVec.xor_zero]
  exact ⟨rfl, rfl⟩

theorem invPermute_permute (v : Block) : invPermute A (permute A v) = v := by
  obtain ⟨-, hidx, -⟩ := isPermutation16_spec _ (Algo_wf_pi A hA)
  refine block_ext _ _ fun i hi => ?_
  obtain ⟨hlt, heq⟩ := hidx i hi
  rw [invPermute, blockWord_blockOf_lt _ _ hi, permute, blockWord_blockOf_lt _ _ hlt, heq]

theorem permute_invPermute (w : Block) : permute A (invPermute A w) = w := by
  obtain ⟨-, -, hget⟩ := isPermutation16_spec _ (Algo_wf_pi A hA)
  refine block_ext _ _ fun i hi => ?_
  obtain ⟨hlt, heq⟩ := hget i hi
  rw [permute, blockWord_blockOf_lt _ _ hi, invPermute, blockWord_blockOf_lt _ _ hlt, heq]

/-! ### Round groups -/

theorem invGroupRounds_groupRounds (d : Nat) (v : Block) : invGroupRounds A d (groupRounds A d v) = v := by
  simp only [invGroupRounds, groupRounds, List.foldl_cons, List.foldl_nil, invPermute_permute hA,
    invMixRound_mixRound hA]

theorem groupRounds_invGroupRounds (d : Nat) (v : Block) : groupRounds A d (invGroupRounds A d v) = v := by
  simp only [invGroupRounds, groupRounds, List.foldl_cons, List.foldl_nil, permute_invPermute hA,
    mixRound_invMixRound hA]

end

theorem subBlock_addBlock (u k : Block) : subBlock (addBlock u k) k = u := by
  refine block_ext _ _ fun i hi => ?_
  rw [subBlock, blockWord_blockOf_lt _ _ hi, addBlock, blockWord_blockOf_lt _ _ hi, BitVec.add_sub_cancel]

theorem addBlock_subBlock (u k : Block) : addBlock (subBlock u k) k = u := by
  refine block_ext _ _ fun i hi => ?_
  rw [addBlock, blockWord_blockOf_lt _ _ hi, subBlock, blockWord_blockOf_lt _ _ hi, BitVec.sub_add_cancel]

section
variable {A : Algo} (hA : A.wf = true) (Ke Te : List Word)
include hA

theorem decGroups_encGroups (n : Nat) (v : Block) : decGroups A Ke Te n (encGroups A Ke Te n v) = v := by
  induction n with
  | zero => rfl
  | succ n ih => rw [encGroups, decGroups, invGroupRounds_groupRounds hA, subBlock_addBlock, ih]

theorem encGroups_decGroups (n : Nat) (v : Block) : encGroups A Ke Te n (decGroups A Ke Te n v) = v := by
  induction n generalizing v with
  | zero => rfl
  | succ n ih => rw [decGroups, encGroups, ih, addBlock_subBlock, groupRounds_invGroupRounds hA]

end

/-- Settles O13: the last subkey and the round groups are undone in turn. -/
theorem decryptInvertsEncrypt : Obligations.DecryptInvertsEncrypt := by
  intro A hA K T B
  constructor
  · rw [decrypt, encrypt, subBlock_addBlock, decGroups_encGroups hA]
  · rw [decrypt, encrypt, encGroups_decGroups hA, addBlock_subBlock]

/-! ### The cipher word by word -/

theorem subkey_word (Ke Te : List Word) (d i : Nat) (hi : i < 16) :
    blockWord (subkey Ke Te d) i = Ke.getD ((d + i) % 17) 0
      + (if i = 0 then Te.getD (d % 3) 0 else if i = 14 then Te.getD ((d + 1) % 3) 0
         else if i = 15 then BitVec.ofNat 64 d else 0) := by
  rw [subkey, blockWord_blockOf_lt _ _ hi]
  split_ifs
  · rfl
  · rfl
  · rfl
  · exact (BitVec.add_zero _).symm

/-- With the pinned pairing pair `j` is words `2j` and `2j + 1` (40_cipher.md R105). -/
theorem mixRound_pinned_word (A : Algo) (v : Block) (h : A.pairing = pinnedPairing) (r j : Nat) (hj : j < 8) :
    blockWord (mixRound A v r) (2 * j) = blockWord v (2 * j) + blockWord v (2 * j + 1)
      ∧ blockWord (mixRound A v r) (2 * j + 1)
        = rotl64 (blockWord v (2 * j + 1)) (rotAmount A r j) ^^^ (blockWord v (2 * j) + blockWord v (2 * j + 1)) := by
  have hidx : ∀ i < 16, A.pairing.idxOf i = i := by rw [h]; decide
  have hget : ∀ i < 16, A.pairing.getD i 0 = i := by rw [h]; decide
  have hpair : ∀ side, 2 * j + side < 16 → pairWord A v j side = blockWord v (2 * j + side) := fun side hside => by
    rw [pairWord, hget _ hside]
  rw [mixRound, blockWord_blockOf_lt _ _ (by omega), blockWord_blockOf_lt _ _ (by omega), hidx _ (by omega),
    hidx _ (by omega)]
  dsimp only
  rw [show 2 * j / 2 = j by omega, show (2 * j + 1) / 2 = j by omega, if_pos (by omega),
    if_neg (by omega), hpair 0 (by omega), hpair 1 (by omega)]
  exact ⟨rfl, rfl⟩

theorem extKey_length (K : Block) : (extKey K).length = 17 := by simp [extKey]

theorem extKey_word (K : Block) (i : Nat) (hi : i < 16) : (extKey K).getD i 0 = blockWord K i := by
  rw [extKey, List.getD_append _ _ _ _ (by simpa using hi)]
  simp [blockWord, hi]

/-- The seventeenth word of the extended key (40_cipher.md R107). -/
theorem extKey_parity (K : Block) :
    (extKey K).getD 16 0 = (List.range 16).foldl (fun x i => x ^^^ blockWord K i) keyParity := by
  have hwords : K.toList = (List.range 16).map (blockWord K) := by
    refine List.ext_getElem (by simp) fun i h1 h2 => ?_
    have hi : i < 16 := by simpa using h1
    simp [blockWord, hi]
  have hparity : (extKey K).getD 16 0 = K.toList.foldl (· ^^^ ·) keyParity := by simp [extKey]
  rw [hparity, hwords, List.foldl_map]

/-- The round groups as a loop over their numbers (40_cipher.md R110). -/
theorem encGroups_eq_foldl (A : Algo) (Ke Te : List Word) (n : Nat) (v : Block) :
    encGroups A Ke Te n v
      = (List.range n).foldl (fun v d => groupRounds A d (addBlock v (subkey Ke Te d))) v := by
  induction n with
  | zero => rfl
  | succ n ih => rw [encGroups, ih, List.range_succ (n := n), List.foldl_append, List.foldl_cons, List.foldl_nil]

/-- The tables the parameters of one computation are made of, and its round count (log 2). -/
theorem algo_rounds (p : Config) : p.rawAlgo = { p.params.toTables with rounds := p.params.rounds.standard }
    ∧ p.algoFor 256 = { p.params.toTables with rounds := p.params.rounds.standard }
    ∧ p.algoFor 512 = { p.params.toTables with rounds := p.params.rounds.enhanced }
    ∧ p.algoFor 1024 = { p.params.toTables with rounds := p.params.rounds.quantum } :=
  ⟨rfl, rfl, rfl, rfl⟩

/-- Settles O14: the lemmas on each part of the cipher; the third tweak word is not in the extended tweak, which is all
that encryption and decryption read of the tweak. -/
theorem thirdTweakWordIsIgnored : Obligations.ThirdTweakWordIsIgnored := by
  intro A K B a b c c' Ke Te
  refine ⟨⟨rfl, rfl, rfl⟩, fun hpairing r j hj => mixRound_pinned_word A B hpairing r j hj,
    fun i hi => blockWord_blockOf_lt _ _ hi, ⟨extKey_length K, extKey_word K, extKey_parity K⟩, subkey_word Ke Te, ?_,
    algo_rounds, rfl⟩
  intro addKey fourRounds
  rw [encrypt, encGroups_eq_foldl]
  rfl

/-! ### The tweak -/

theorem flagWord_getLsbD (b : Bool) (i : Nat) : (flagWord b).getLsbD i = (b && decide (i = 0)) := by
  cases b <;> simp [flagWord, BitVec.getLsbD_one]

/-- Bit `i` of the tweak's second word: FIRST at 62, FINAL at 63, the tag's bits from 56 up (41_ubi.md R131). -/
theorem makeTweak_t1_getLsbD (pos : Word) (first last : Bool) (D : Byte) (i : Nat) (hi : i < 64) :
    (makeTweak pos first last D).t1.getLsbD i
      = (first && decide (i = 62) || last && decide (i = 63) || decide (56 ≤ i) && D.getLsbD (i - 56)) := by
  simp only [makeTweak, BitVec.getLsbD_or, BitVec.getLsbD_shiftLeft, flagWord_getLsbD, BitVec.getLsbD_setWidth]
  grind

/-- Settles O15: the bits of the tweak's second word, range by range. -/
theorem tweakFieldsByBit : Obligations.TweakFieldsByBit := by
  intro pos first last D
  have hbit := makeTweak_t1_getLsbD pos first last D
  refine ⟨rfl, rfl, fun k hk => ?_, fun k hk => ?_, ?_, ?_⟩
  · rw [hbit k (by omega)]
    simp [show k ≠ 62 by omega, show k ≠ 63 by omega, show ¬ 56 ≤ k by omega]
  · rw [hbit (56 + k) (by omega)]
    simp [show 56 + k ≠ 62 by omega, show 56 + k ≠ 63 by omega]
  · rw [hbit 62 (by omega)]
    simp
  · rw [hbit 63 (by omega)]
    simp

end Sys2Proof.Machine
end

section
/-! SUPPORT. Bytes and words of blocks and of the result registers, the passes of UBI, and the lengths of digests
(00_scope.md R12, 10_state.md R22, 41_ubi.md R132, R133, 42_dispatch_seq_stream.md R160). -/

namespace Sys2Proof.Machine

/-! ### Bytes of words -/

/-- Byte `8i + k` of serialized words is byte `k` of word `i`, least significant first (00_scope.md R12). -/
theorem flatMap_serWord_byte (l : List Word) (i : Nat) (hi : i < l.length) (k : Nat) (hk : k < 8) :
    (l.flatMap serWord)[8 * i + k]? = some ((l[i] >>> (8 * k)).setWidth 8) := by
  have hslice := congrArg (·[k]?) (flatMap_serWord_slice l i hi)
  simp only [List.getElem?_take, hk, if_true, List.getElem?_drop] at hslice
  rw [hslice, serWord, lowBytes_getElem? 8 _ k hk]

theorem ser_byte (v : Block) (i : Nat) (hi : i < 16) (k : Nat) (hk : k < 8) :
    (ser v)[8 * i + k]? = some ((blockWord v i >>> (8 * k)).setWidth 8) := by
  rw [ser, flatMap_serWord_byte v.toList i (by simpa using hi) k hk]
  simp [blockWord, hi]

theorem words_word (b : List Byte) (i : Nat) (hi : i < 16) : blockWord (words b) i = le64 ((b.drop (8 * i)).take 8) :=
  blockWord_blockOf_lt _ _ hi

/-- Byte `k` of word `i` made from a byte string is its byte `8i + k`, zero past its end (00_scope.md R12). -/
theorem words_byte (b : List Byte) (i : Nat) (hi : i < 16) (k : Nat) (hk : k < 8) :
    (blockWord (words b) i >>> (8 * k)).setWidth 8 = b.getD (8 * i + k) 0 := by
  rw [words_word b i hi, le64_byte _ (by simp) k hk]
  simp [List.getD_eq_getElem?_getD, hk]

/-- Padding with zeros changes no byte a read past the end would give. -/
theorem zeroPad_getD (n : Nat) (b : List Byte) (m : Nat) : (zeroPad n b).getD m 0 = b.getD m 0 := by
  by_cases h : m < b.length
  · rw [zeroPad, List.getD_append _ _ _ _ h]
  · have hzeros : (zeros (n - b.length)).getD (m - b.length) 0 = 0 := by simp [zeros, List.getD_eq_getElem?_getD]
    rw [zeroPad, List.getD_append_right _ _ _ _ (by omega), hzeros, List.getD_eq_default b 0 (by omega)]

/-! ### The result registers (10_state.md R22) -/

/-- Words that lie inside a digest are its own. -/
theorem digestWords_inside (dg : List Byte) (i : Nat) (hi : 8 * i + 8 ≤ dg.length) (hle : i < 16) :
    blockWord (digestWords dg) i = le64 ((dg.drop (8 * i)).take 8) := by
  rw [digestWords, words_word _ i hle, zeroPad, List.drop_append_of_le_length (by omega),
    List.take_append_of_le_length (by rw [List.length_drop]; omega)]

theorem le64_zeros (n : Nat) : le64 (zeros n) = 0 := by
  induction n with
  | zero => rfl
  | succ n ih =>
    have hcons : zeros (n + 1) = 0 :: zeros n := rfl
    rw [hcons, le64, ih]
    simp

/-- Words past a digest are zero. -/
theorem digestWords_beyond (dg : List Byte) (i : Nat) (hi : dg.length ≤ 8 * i) (hle : i < 16) :
    blockWord (digestWords dg) i = 0 := by
  rw [digestWords, words_word _ i hle, zeroPad, List.drop_append, List.drop_eq_nil_of_le hi, List.nil_append, zeros,
    List.drop_replicate, List.take_replicate]
  exact le64_zeros _

/-- Settles O21: a word of the result is inside the digest or past its end; its bytes by `words_byte`. -/
theorem digestResultWords : Obligations.DigestResultWords := by
  refine ⟨fun G bits hbits => ⟨rfl, fun i hi => ?_⟩, fun dg _ i hi k hk => ?_⟩
  · have hlength := truncDigest_length G bits hbits
    simp only [digestSizes, List.mem_cons, List.not_mem_nil, or_false, digestBytes] at hbits hlength
    split_ifs with hinside
    · rw [digestWords_inside _ i (by omega) hi, truncDigest, List.drop_take, List.take_take,
        show min 8 (digestBytes bits - 8 * i) = 8 by rw [digestBytes]; omega, ← words_word (ser G) i hi, words_ser]
    · exact digestWords_beyond _ i (by omega) hi
  · rw [digestWords, words_byte _ i hi k hk, zeroPad_getD]

/-! ### Lengths of digests (42_dispatch_seq_stream.md R160) -/

theorem hashSeq_length (A : Algo) (cfg : CfgRec) (mode : BitVec 2) (msg : List Byte)
    (h : cfg.bits.toNat ∈ digestSizes) : (hashSeq A cfg mode msg).length = digestBytes cfg.bits :=
  truncDigest_length _ _ h

theorem treeHash_length {A : Algo} {cfg : CfgRec} {msg dg : List Byte} (h : cfg.bits.toNat ∈ digestSizes)
    (hdg : treeHash A cfg msg = some dg) : dg.length = digestBytes cfg.bits := by
  obtain ⟨root, -, rfl⟩ := Option.map_eq_some_iff.mp hdg
  exact truncDigest_length _ _ h

theorem hashDigest_length {A : Algo} {cfg : CfgRec} {msg dg : List Byte} (h : cfg.bits.toNat ∈ digestSizes)
    (hdg : hashDigest A cfg msg = some dg) : dg.length = digestBytes cfg.bits := by
  unfold hashDigest at hdg
  split_ifs at hdg
  · exact treeHash_length h hdg
  · cases hdg
    exact hashSeq_length A cfg _ msg h

/-- Settles O24: every digest is a truncated block. -/
theorem digestLengths : Obligations.DigestLengths := by
  intro A cfg x key msg h hx
  exact ⟨fun mode => hashSeq_length A cfg mode msg h, fun _ => hashDigest_length h, fun _ => treeHash_length h,
    truncDigest_length _ _ h, hx ▸ truncDigest_length _ x.bits (hx ▸ h)⟩

/-! ### The blocks of a UBI pass (41_ubi.md R133) -/

theorem ubi_nil (A : Algo) (G : Block) (D : Byte) : ubi A G D [] = ubiBlock A G [] 0 true true D := rfl

theorem ubiBlock_word (A : Algo) (G : Block) (b : List Byte) (pos : Word) (first final : Bool) (D : Byte) (i : Nat)
    (hi : i < 16) : blockWord (ubiBlock A G b pos first final D) i
      = blockWord (words (zeroPad 128 b)) i
        ^^^ blockWord (encrypt A G (makeTweak pos first final D) (words (zeroPad 128 b))) i := by
  rw [ubiBlock, xorBlock, blockWord_blockOf_lt _ _ hi]

/-- Full pieces and a last one are what a list is cut into. -/
theorem chunks_flatten {α : Type} (n : Nat) (hn : 0 < n) (full : List (List α)) (last : List α)
    (hfull : ∀ b ∈ full, b.length = n) (hne : last ≠ []) (hlast : last.length ≤ n) :
    chunks n (full.flatten ++ last) = full ++ [last] := by
  induction full with
  | nil => exact chunks_short n last hne hlast
  | cons b bs ih =>
    have hb : b.length = n := hfull b (by simp)
    rw [List.flatten_cons, List.append_assoc, chunks_append n b _ (List.ne_nil_of_length_pos (by omega)) hb,
      ih fun c hc => hfull c (by simp [hc])]
    rfl

theorem pieces_of_ne_nil (n : Nat) (data : List Byte) (h : data ≠ []) : pieces n data = chunks n data := by
  cases data with
  | nil => exact absurd rfl h
  | cons b bs => rfl

/-- One full block of a pass that is not its last: chaining value, position and FIRST after it. -/
def ubiStep (A : Algo) (D : Byte) (c : Block × Word × Bool) (b : List Byte) : Block × Word × Bool :=
  (ubiBlock A c.1 b (c.2.1 + 128) c.2.2 false D, c.2.1 + 128, false)

/-- A pass over full blocks and a last one is the fold over the full ones, then the last one as FINAL. -/
theorem ubiBlocks_full_last (A : Algo) (D : Byte) (full : List (List Byte)) (last : List Byte)
    (hfull : ∀ b ∈ full, b.length = 128) (c : Block × Word × Bool) :
    ubiBlocks A D (full ++ [last]) c.2.1 c.2.2 c.1
      = ubiBlock A (full.foldl (ubiStep A D) c).1 last
          ((full.foldl (ubiStep A D) c).2.1 + BitVec.ofNat 64 last.length) (full.foldl (ubiStep A D) c).2.2 true D := by
  induction full generalizing c with
  | nil => rfl
  | cons b bs ih =>
    have hb : b.length = 128 := hfull b (by simp)
    rw [List.foldl_cons, ← ih (fun c hc => hfull c (by simp [hc])), List.cons_append, ubiBlocks, hb,
      show (bs ++ [last]).isEmpty = false by simp]
    rfl

/-- The position after full blocks counts their bytes, and FIRST stays only without one (41_ubi.md R133). -/
theorem foldl_ubiStep (A : Algo) (D : Byte) (full : List (List Byte)) (c : Block × Word × Bool) :
    (full.foldl (ubiStep A D) c).2 = (c.2.1 + BitVec.ofNat 64 (128 * full.length), c.2.2 && full.isEmpty) := by
  induction full generalizing c with
  | nil => simp
  | cons b bs ih =>
    rw [List.foldl_cons, ih, List.length_cons, Nat.mul_add, BitVec.ofNat_add]
    simp only [ubiStep, List.isEmpty_cons, Bool.and_false, Bool.false_and, Prod.mk.injEq, and_true]
    rw [BitVec.add_assoc, BitVec.add_comm (BitVec.ofNat 64 (128 * bs.length))]
    rfl

theorem length_flatten_full (full : List (List Byte)) (hfull : ∀ b ∈ full, b.length = 128) :
    full.flatten.length = 128 * full.length := by
  induction full with
  | nil => rfl
  | cons b bs ih =>
    rw [List.flatten_cons, List.length_append, hfull b (by simp), ih fun c hc => hfull c (by simp [hc]),
      List.length_cons]
    omega

/-- Settles O16: the blocks of the data are the given ones, and the fold of `ubiStep` chains them. -/
theorem ubiChainsItsBlocks : Obligations.UbiChainsItsBlocks := by
  intro A G D full last
  refine ⟨fun b pos first final _ i hi => ubiBlock_word A G b pos first final D i hi, ubi_nil A G D, ?_⟩
  intro hfull hne hlast
  have hsnd := foldl_ubiStep A D full (G, 0, true)
  have hpass := ubiBlocks_full_last A D full last hfull (G, 0, true)
  have hdata : full.flatten ++ last ≠ [] := by simp [hne]
  refine ⟨(full.foldl (ubiStep A D) (G, 0, true)).1, (full.foldl (ubiStep A D) (G, 0, true)).2.1, ?_, ?_, ?_⟩
  · refine Prod.ext rfl (Prod.ext rfl ?_)
    exact (congrArg Prod.snd hsnd).trans (Bool.true_and _)
  · rw [hsnd, List.length_append, length_flatten_full full hfull, BitVec.ofNat_add]
    simp
  · rw [ubi, pieces_of_ne_nil _ _ hdata, chunks_flatten 128 (by decide) full last hfull hne hlast, hpass, hsnd]
    simp only [Bool.true_and]

end Sys2Proof.Machine
end

section
/-! SUPPORT. The tree layout: how a message is cut into leaves and a level into groups, when the level loop ends, and
what each digest is made of (43_dispatch_tree.md R181 to R183, R187). -/

namespace Sys2Proof.Machine

/-! ### Group counts -/

theorem ceilDiv_pos {n d : Nat} (hn : 0 < n) (hd : 0 < d) : 0 < ceilDiv n d :=
  Nat.div_pos (by omega) hd

theorem ceilDiv_one (n : Nat) : ceilDiv n 1 = n := by simp [ceilDiv]

/-- Groups of two and more are fewer than their elements. -/
theorem ceilDiv_lt {n d : Nat} (hn : 2 ≤ n) (hd : 2 ≤ d) : ceilDiv n d < n := by
  have hprod : n + d ≤ n * d := by nlinarith
  rw [ceilDiv, Nat.div_lt_iff_lt_mul (by omega)]
  omega

/-- A message of more than `leaf` bytes has more than one leaf. -/
theorem one_lt_leafCount {len leaf : Nat} (hleaf : 0 < leaf) (h : leaf < len) : 1 < leafCount len leaf := by
  have hsub := ceilDiv_sub len leaf hleaf (by omega)
  have hpos := ceilDiv_pos (n := len - leaf) (d := leaf) (by omega) hleaf
  rw [leafCount]
  omega

/-! ### Leaves and groups -/

/-- A message of at most `n` bytes, the empty one too, is one piece (41_ubi.md R133, 43_dispatch_tree.md R181). -/
theorem pieces_short (n : Nat) (data : List Byte) (h : data.length ≤ n) : pieces n data = [data] := by
  cases data with
  | nil => rfl
  | cons b bs => exact chunks_short n (b :: bs) (by simp) h

theorem treeLeaves_short (A : Algo) (Gc : Block) (leaf : Nat) (msg : List Byte) (h : msg.length ≤ leaf) :
    treeLeaves A Gc leaf msg = [ubi A Gc tagTree msg] := by
  rw [treeLeaves, pieces_short leaf msg h, List.map_cons, List.map_nil]

/-- The first `leaf` bytes of a longer message are its first leaf (43_dispatch_tree.md R181). -/
theorem treeLeaves_append (A : Algo) (Gc : Block) (leaf : Nat) (b rest : List Byte) (hb : b.length = leaf)
    (hne : b ≠ []) (hrest : rest ≠ []) :
    treeLeaves A Gc leaf (b ++ rest) = ubi A Gc tagTree b :: treeLeaves A Gc leaf rest := by
  have hdata : b ++ rest ≠ [] := by simp [hne]
  rw [treeLeaves, pieces_of_ne_nil _ _ hdata, chunks_append leaf b rest hne hb, List.map_cons, treeLeaves,
    pieces_of_ne_nil _ _ hrest]

/-- A level of at most `fan` nodes is one group (43_dispatch_tree.md R182). -/
theorem treeLevel_short (A : Algo) (Gc : Block) (fan : Nat) (level : List Block) (hne : level ≠ [])
    (h : level.length ≤ fan) : treeLevel A Gc fan level = [treeParent A Gc level] := by
  rw [treeLevel, chunks_short fan level hne h, List.map_cons, List.map_nil]

/-- The first `fan` nodes of a level are its first group (43_dispatch_tree.md R182). -/
theorem treeLevel_append (A : Algo) (Gc : Block) (fan : Nat) (group rest : List Block) (hne : group ≠ [])
    (h : group.length = fan) :
    treeLevel A Gc fan (group ++ rest) = treeParent A Gc group :: treeLevel A Gc fan rest := by
  rw [treeLevel, chunks_append fan group rest hne h, List.map_cons, treeLevel]

/-! ### The level loop -/

theorem treeRoot_single (A : Algo) (Gc : Block) (fan turns : Nat) (root : Block) :
    treeRoot A Gc fan turns [root] = some root := by
  cases turns <;> rfl

theorem treeRoot_zero (A : Algo) (Gc : Block) (fan : Nat) (level : List Block) (h : 1 < level.length) :
    treeRoot A Gc fan 0 level = none := by
  rcases level with _ | ⟨a, _ | ⟨b, rest⟩⟩
  · rfl
  · simp at h
  · rfl

theorem treeRoot_succ (A : Algo) (Gc : Block) (fan turns : Nat) (level : List Block) (h : 1 < level.length) :
    treeRoot A Gc fan (turns + 1) level = treeRoot A Gc fan turns (treeLevel A Gc fan level) := by
  rcases level with _ | ⟨a, _ | ⟨b, rest⟩⟩
  · rfl
  · simp at h
  · rfl

/-- With fan-out 1 a turn keeps the number of nodes, so more than one never become one (43_dispatch_tree.md R187). -/
theorem treeRoot_fan_one (A : Algo) (Gc : Block) (turns : Nat) (level : List Block) (h : 1 < level.length) :
    treeRoot A Gc 1 turns level = none := by
  induction turns generalizing level with
  | zero => exact treeRoot_zero A Gc 1 level h
  | succ turns ih =>
    have hnext : (treeLevel A Gc 1 level).length = level.length := by
      rw [treeLevel_length A Gc 1 (by decide), ceilDiv_one]
    rw [treeRoot_succ A Gc 1 turns level h]
    exact ih _ (hnext ▸ h)

/-- With a fan-out of 2 or more every turn leaves fewer nodes, so as many turns as there are nodes suffice. -/
theorem treeRoot_fan_two (A : Algo) (Gc : Block) (fan : Nat) (hfan : 2 ≤ fan) (level : List Block)
    (hne : 0 < level.length) :
    ∃ root, ∀ turns, level.length ≤ turns → treeRoot A Gc fan turns level = some root := by
  induction hlen : level.length using Nat.strong_induction_on generalizing level with
  | _ n ih =>
    by_cases h : 1 < level.length
    · have hnext : (treeLevel A Gc fan level).length = ceilDiv n fan := by
        rw [treeLevel_length A Gc fan (by omega), hlen]
      have hlt : ceilDiv n fan < n := ceilDiv_lt (by omega) hfan
      have hpos : 0 < ceilDiv n fan := ceilDiv_pos (by omega) (by omega)
      obtain ⟨root, hroot⟩ := ih _ hlt (treeLevel A Gc fan level) (by omega) hnext
      refine ⟨root, fun turns hturns => ?_⟩
      obtain ⟨t, rfl⟩ : ∃ t, turns = t + 1 := ⟨turns - 1, by omega⟩
      rw [treeRoot_succ A Gc fan t level h]
      exact hroot t (by omega)
    · obtain ⟨root, rfl⟩ := List.length_eq_one_iff.mp (show level.length = 1 by omega)
      exact ⟨root, fun turns _ => treeRoot_single A Gc fan turns root⟩

/-- Settles O25: the two lemmas on the level loop. -/
theorem treeLoopTermination : Obligations.TreeLoopTermination := by
  intro A Gc level
  exact ⟨fun h turns => treeRoot_fan_one A Gc turns level h,
    fun fan hfan hne => treeRoot_fan_two A Gc fan hfan level (List.length_pos_iff.mpr hne)⟩

/-! ### The tree digest -/

theorem toNat_pos_of_ne_zero {w : Word} (h : w ≠ 0) : 0 < w.toNat := by
  have hne : w.toNat ≠ 0 := fun h0 => h (BitVec.eq_of_toNat_eq (by simpa using h0))
  omega

theorem treeLeaves_cfg_length (A : Algo) (Gc : Block) {cfg : CfgRec} (hleaf : cfg.leaf ≠ 0) (msg : List Byte) :
    (treeLeaves A Gc cfg.leaf.toNat msg).length = leafCount msg.length cfg.leaf.toNat :=
  treeLeaves_length A Gc _ (toNat_pos_of_ne_zero hleaf) msg

/-- A message that is one leaf has that leaf as its root (43_dispatch_tree.md R183). -/
theorem treeHash_one_leaf (A : Algo) (cfg : CfgRec) (msg : List Byte) (h : msg.length ≤ cfg.leaf.toNat) :
    treeHash A cfg msg = some (truncDigest (ubi A (postConfig A cfg modeTree) tagTree msg) cfg.bits) := by
  rw [treeHash, treeLeaves_short _ _ _ _ h]
  rw [treeRoot_single, Option.map_some]

/-- The tree digest ends unless the fan-out is 1 over several leaves (43_dispatch_tree.md R187). -/
theorem treeHash_ends (A : Algo) (cfg : CfgRec) (msg : List Byte) (hleaf : cfg.leaf ≠ 0) (hfan : cfg.fan ≠ 0)
    (h : TreeEnds cfg msg.length) : ∃ dg, treeHash A cfg msg = some dg := by
  by_cases hshort : msg.length ≤ cfg.leaf.toNat
  · exact ⟨_, treeHash_one_leaf A cfg msg hshort⟩
  · have hmany : 1 < leafCount msg.length cfg.leaf.toNat :=
      one_lt_leafCount (toNat_pos_of_ne_zero hleaf) (by omega)
    have hne1 : cfg.fan.toNat ≠ 1 := fun h1 =>
      h.elim (fun hf => hf (BitVec.eq_of_toNat_eq (by simpa using h1))) (fun h1 => by omega)
    have hpos := toNat_pos_of_ne_zero hfan
    have hlen := treeLeaves_cfg_length A (postConfig A cfg modeTree) hleaf msg
    obtain ⟨root, hroot⟩ := treeRoot_fan_two A (postConfig A cfg modeTree) cfg.fan.toNat (by omega)
      (treeLeaves A (postConfig A cfg modeTree) cfg.leaf.toNat msg) (by omega)
    exact ⟨truncDigest root cfg.bits, by rw [treeHash, hroot _ le_rfl, Option.map_some]⟩

/-- With fan-out 1 over several leaves the tree digest never ends (43_dispatch_tree.md R187). -/
theorem treeHash_never (A : Algo) (cfg : CfgRec) (msg : List Byte) (hleaf : cfg.leaf ≠ 0) (hfan : cfg.fan = 1)
    (h : 1 < leafCount msg.length cfg.leaf.toNat) : treeHash A cfg msg = none := by
  have hlen := treeLeaves_cfg_length A (postConfig A cfg modeTree) hleaf msg
  have hone : cfg.fan.toNat = 1 := by rw [hfan]; rfl
  rw [treeHash, hone, treeRoot_fan_one _ _ _ _ (by omega), Option.map_none]

/-- `Hash` ends unless it is a tree that does not (42_dispatch_seq_stream.md R161). -/
theorem hashDigest_ends (A : Algo) (cfg : CfgRec) (msg : List Byte) (hleaf : cfg.leaf ≠ 0) (hfan : cfg.fan ≠ 0)
    (h : HashEnds cfg msg.length) : ∃ dg, hashDigest A cfg msg = some dg := by
  by_cases hmode : cfg.mode = modeTree
  · rw [hashDigest, if_pos hmode]
    exact treeHash_ends A cfg msg hleaf hfan (h hmode)
  · exact ⟨_, if_neg hmode⟩

/-- Settles O26: one leaf is its own root; one group of leaves is one turn of the level loop away from its root. -/
theorem treeSmallShapes : Obligations.TreeSmallShapes := by
  intro A cfg msg hleaf
  refine ⟨treeHash_one_leaf A cfg msg, fun hlong hgroup => ?_⟩
  have hmany := one_lt_leafCount (toNat_pos_of_ne_zero hleaf) hlong
  have hlen := treeLeaves_cfg_length A (postConfig A cfg modeTree) hleaf msg
  have hne : treeLeaves A (postConfig A cfg modeTree) cfg.leaf.toNat msg ≠ [] :=
    List.ne_nil_of_length_pos (by omega)
  obtain ⟨turns, hturns⟩ :
      ∃ turns, (treeLeaves A (postConfig A cfg modeTree) cfg.leaf.toNat msg).length = turns + 1 :=
    ⟨leafCount msg.length cfg.leaf.toNat - 1, by omega⟩
  rw [treeHash]
  rw [hturns, treeRoot_succ _ _ _ _ _ (by omega), treeLevel_short _ _ _ _ hne (by omega), treeRoot_single,
    Option.map_some]

/-! ### What the digests are made of -/

/-- The configuration block with the mode's own number as its tag (42_dispatch_seq_stream.md R150). -/
theorem configBlock_eq (A : Algo) (cfg : CfgRec) (mode : BitVec 2) (htags : A.modeTag = [0, 1, 2]) (hmode : mode ≠ 3) :
    configBlock A cfg mode = serWord 0x0133414853 ++ serWord (cfg.bits.setWidth 64) ++ serWord (mode.setWidth 64)
      ++ cfg.pers ++ List.replicate (104 - cfg.pers.length) 0 := by
  have htag : modeTag A mode = mode.setWidth 64 := by
    rw [modeTag, htags]
    revert hmode mode
    decide
  rw [configBlock, htag, zeroPad, ← List.append_assoc]
  rfl

theorem configBlock_length (A : Algo) (cfg : CfgRec) (mode : BitVec 2) (h : cfg.pers.length ≤ persMax) :
    (configBlock A cfg mode).length = 128 := by
  simp only [configBlock, List.length_append, serWord_length, zeroPad_length]
  rw [persMax] at *
  omega

/-- Settles O60: each pass by its definition, leaves and groups by the lemmas on cutting a list. -/
theorem digestsRunTheirPasses : Obligations.DigestsRunTheirPasses := by
  intro A cfg mode key msg G hpers htags hmode
  refine ⟨⟨configBlock_eq A cfg mode htags hmode, configBlock_length A cfg mode hpers, rfl, rfl, rfl, rfl⟩,
    ⟨rfl, fun _ hshort => treeLeaves_short A G _ msg hshort,
      fun b rest hb hne hrest => treeLeaves_append A G _ b rest hb hne hrest⟩,
    fun fan group rest hne => ⟨rfl, treeLevel_short A G fan group hne, treeLevel_append A G fan group rest hne⟩,
    fun fan turns root level => ⟨treeRoot_single A G fan turns root,
      fun h => ⟨treeRoot_zero A G fan level h, treeRoot_succ A G fan turns level h⟩⟩,
    rfl, rfl, fun i hi k hk => ⟨ser_byte G i hi k hk, words_byte msg i hi k hk⟩⟩

end Sys2Proof.Machine
end

section
/-! SUPPORT. The Merkle reduction turn by turn (45_merkle.md R209): what one turn answers, that more turns than nodes
change nothing, and when the reduction has a root. -/

namespace Sys2Proof.Machine

/-! ### One turn -/

theorem merkleLevel_pair (A : Algo) (cfg : CfgRec) (a b : List Byte) (rest : List (List Byte)) :
    merkleLevel A cfg (a :: b :: rest)
      = (hashDigest A cfg (a ++ b)).bind fun h => (merkleLevel A cfg rest).map fun next => h :: next := by
  rw [merkleLevel]
  cases hashDigest A cfg (a ++ b) with
  | none => rfl
  | some h => cases merkleLevel A cfg rest <;> rfl

theorem merkleLevel_pair_some {A : Algo} {cfg : CfgRec} {a b : List Byte} {rest next : List (List Byte)}
    (h : merkleLevel A cfg (a :: b :: rest) = some next) :
    ∃ d tail, hashDigest A cfg (a ++ b) = some d ∧ merkleLevel A cfg rest = some tail ∧ next = d :: tail := by
  rw [merkleLevel_pair] at h
  obtain ⟨d, hd, hrest⟩ := Option.bind_eq_some_iff.mp h
  obtain ⟨tail, htail, rfl⟩ := Option.map_eq_some_iff.mp hrest
  exact ⟨d, tail, hd, htail, rfl⟩

/-- A last node without a partner makes one node of the next level, whatever the policy is. -/
theorem merkleLevel_last_some {A : Algo} {cfg : CfgRec} {last : List Byte} {next : List (List Byte)}
    (h : merkleLevel A cfg [last] = some next) : next.length = 1 := by
  simp only [merkleLevel] at h
  split at h
  · cases h; rfl
  · obtain ⟨d, -, rfl⟩ := Option.map_eq_some_iff.mp h; rfl

/-- A turn leaves half the nodes, rounded up. -/
theorem merkleLevel_length {A : Algo} {cfg : CfgRec} :
    ∀ {level next : List (List Byte)}, merkleLevel A cfg level = some next → next.length = (level.length + 1) / 2
  | [], next, h => by cases h; rfl
  | [last], next, h => by simpa using merkleLevel_last_some h
  | a :: b :: rest, next, h => by
    obtain ⟨d, tail, -, htail, rfl⟩ := merkleLevel_pair_some h
    have ih := merkleLevel_length htail
    simp only [List.length_cons]
    omega

/-- A pair hash, by the numbers of its nodes. -/
abbrev pairHash (A : Algo) (cfg : CfgRec) (level : List (List Byte)) (j : Nat) : Option (List Byte) :=
  hashDigest A cfg (level.getD (2 * j) [] ++ level.getD (2 * j + 1) [])

/-- The pairs behind the first one. -/
theorem pairHash_succ (A : Algo) (cfg : CfgRec) (a b : List Byte) (rest : List (List Byte)) (j : Nat) :
    pairHash A cfg (a :: b :: rest) (j + 1) = pairHash A cfg rest j := by
  rw [pairHash, show 2 * (j + 1) = 2 * j + 1 + 1 by omega, List.getD_cons_succ, List.getD_cons_succ,
    List.getD_cons_succ, List.getD_cons_succ]

/-- Node `j` of the next level is the hash of nodes `2j` and `2j + 1`. -/
theorem merkleLevel_getElem? {A : Algo} {cfg : CfgRec} :
    ∀ {level next : List (List Byte)}, merkleLevel A cfg level = some next →
      ∀ j, 2 * j + 1 < level.length → next[j]? = pairHash A cfg level j
  | [], _, _, j, hj => by simp at hj
  | [_], _, _, j, hj => by simp at hj
  | a :: b :: rest, next, h, j, hj => by
    obtain ⟨d, tail, hd, htail, rfl⟩ := merkleLevel_pair_some h
    cases j with
    | zero => exact hd.symm
    | succ j =>
      rw [pairHash_succ, List.getElem?_cons_succ]
      exact merkleLevel_getElem? htail j (by simp only [List.length_cons] at hj; omega)

/-- The pinned policy carries an odd last node up. -/
theorem merkleLevel_getLast? {A : Algo} {cfg : CfgRec} (hpolicy : A.oddNode = .carryUp) :
    ∀ {level next : List (List Byte)}, merkleLevel A cfg level = some next → level.length % 2 = 1 →
      next.getLast? = level.getLast?
  | [], _, _, hodd => by simp at hodd
  | [last], next, h, _ => by
    simp only [merkleLevel, hpolicy] at h
    cases h
    rfl
  | a :: b :: rest, next, h, hodd => by
    obtain ⟨d, tail, -, htail, rfl⟩ := merkleLevel_pair_some h
    have hrest : rest.length % 2 = 1 := by simp only [List.length_cons] at hodd; omega
    have htail0 : tail ≠ [] := List.ne_nil_of_length_pos (by rw [merkleLevel_length htail]; omega)
    have hrest0 : rest ≠ [] := List.ne_nil_of_length_pos (by omega)
    obtain ⟨x, xs, rfl⟩ := List.exists_cons_of_ne_nil htail0
    obtain ⟨y, ys, rfl⟩ := List.exists_cons_of_ne_nil hrest0
    have ih := merkleLevel_getLast? hpolicy htail hrest
    rwa [List.getLast?_cons_cons, List.getLast?_cons_cons, List.getLast?_cons_cons]

/-- With the pinned policy a turn answers when its pair hashes do. -/
theorem merkleLevel_isSome {A : Algo} {cfg : CfgRec} (hpolicy : A.oddNode = .carryUp) :
    ∀ level : List (List Byte), (∀ j, 2 * j + 1 < level.length → (pairHash A cfg level j).isSome = true) →
      ∃ next, merkleLevel A cfg level = some next
  | [], _ => ⟨[], rfl⟩
  | [last], _ => ⟨[last], by simp only [merkleLevel, hpolicy]⟩
  | a :: b :: rest, h => by
    obtain ⟨d, hd⟩ := Option.isSome_iff_exists.mp (h 0 (by simp))
    have hrest : ∀ j, 2 * j + 1 < rest.length → (pairHash A cfg rest j).isSome = true := fun j hj => by
      rw [← pairHash_succ A cfg a b rest j]
      exact h (j + 1) (by simp only [List.length_cons]; omega)
    obtain ⟨tail, htail⟩ := merkleLevel_isSome hpolicy rest hrest
    exact ⟨d :: tail, by
      rw [merkleLevel_pair, show hashDigest A cfg (a ++ b) = some d from hd, Option.bind_some, htail, Option.map_some]⟩

/-! ### The loop -/

theorem merkleLoop_single (A : Algo) (cfg : CfgRec) (turns : Nat) (root : List Byte) :
    merkleLoop A cfg turns [root] = some root := by
  cases turns <;> rfl

theorem merkleLoop_succ (A : Algo) (cfg : CfgRec) (turns : Nat) (level : List (List Byte)) (h : 1 < level.length) :
    merkleLoop A cfg (turns + 1) level = (merkleLevel A cfg level).bind (merkleLoop A cfg turns) := by
  rcases level with _ | ⟨a, _ | ⟨b, rest⟩⟩
  · simp at h
  · simp at h
  · rfl

/-- A level with a node has turns to spare once it has as many as nodes. -/
theorem merkleLoop_eq_reduce (A : Algo) (cfg : CfgRec) (level : List (List Byte)) (hne : 0 < level.length) (turns : Nat)
    (h : level.length ≤ turns) : merkleLoop A cfg turns level = merkleReduce A cfg level := by
  induction hlen : level.length using Nat.strong_induction_on generalizing level turns with
  | _ n ih =>
    by_cases hmany : 1 < level.length
    · obtain ⟨t, rfl⟩ : ∃ t, turns = t + 1 := ⟨turns - 1, by omega⟩
      obtain ⟨m, rfl⟩ : ∃ m, n = m + 1 := ⟨n - 1, by omega⟩
      rw [merkleReduce, hlen, merkleLoop_succ A cfg t level hmany, merkleLoop_succ A cfg m level hmany]
      cases hnext : merkleLevel A cfg level with
      | none => rfl
      | some next =>
        have hlength := merkleLevel_length hnext
        rw [Option.bind_some, Option.bind_some, ih _ (by omega) next (by omega) t (by omega) rfl,
          ih _ (by omega) next (by omega) m (by omega) rfl]
    · obtain ⟨root, rfl⟩ := List.length_eq_one_iff.mp (show level.length = 1 by omega)
      rw [merkleReduce, merkleLoop_single, merkleLoop_single]

theorem merkleReduce_single (A : Algo) (cfg : CfgRec) (root : List Byte) : merkleReduce A cfg [root] = some root := rfl

/-- The reduction of more than one node is that of their next level. -/
theorem merkleReduce_level (A : Algo) (cfg : CfgRec) (level : List (List Byte)) (h : 1 < level.length) :
    merkleReduce A cfg level = (merkleLevel A cfg level).bind (merkleReduce A cfg) := by
  obtain ⟨m, hm⟩ : ∃ m, level.length = m + 1 := ⟨level.length - 1, by omega⟩
  rw [merkleReduce, hm, merkleLoop_succ A cfg m level h]
  cases hnext : merkleLevel A cfg level with
  | none => rfl
  | some next =>
    have hlength := merkleLevel_length hnext
    exact merkleLoop_eq_reduce A cfg next (by omega) m (by omega)

/-- In the sequential modes two nodes reduce to the hash of both, three to the hash of that and the third. -/
theorem merkleReduce_small {A : Algo} {cfg : CfgRec} (hpolicy : A.oddNode = .carryUp) (hmode : cfg.mode ≠ modeTree)
    (h0 h1 h2 : List Byte) :
    merkleReduce A cfg [h0, h1] = some (hashSeq A cfg cfg.mode (h0 ++ h1))
      ∧ merkleReduce A cfg [h0, h1, h2] = some (hashSeq A cfg cfg.mode (hashSeq A cfg cfg.mode (h0 ++ h1) ++ h2)) := by
  have hhash : ∀ msg, hashDigest A cfg msg = some (hashSeq A cfg cfg.mode msg) := fun msg => if_neg hmode
  have htwo : ∀ a b, merkleReduce A cfg [a, b] = some (hashSeq A cfg cfg.mode (a ++ b)) := fun a b => by
    rw [merkleReduce_level A cfg _ (by simp), merkleLevel_pair, hhash]
    rfl
  refine ⟨htwo h0 h1, ?_⟩
  rw [merkleReduce_level A cfg _ (by simp), merkleLevel_pair, hhash, Option.bind_some, merkleLevel, hpolicy,
    Option.map_some, Option.bind_some]
  exact htwo _ h2

/-- Settles O38: the lemmas on one turn, and the reduction of more than one node through its next level. -/
theorem merkleOddNodeIsCarriedUp : Obligations.MerkleOddNodeIsCarriedUp := by
  intro A cfg level hpolicy pairs
  refine ⟨fun next hnext => ⟨merkleLevel_length hnext, merkleLevel_getElem? hnext, merkleLevel_getLast? hpolicy hnext,
    fun h => ?_⟩, merkleLevel_isSome hpolicy level, fun j hj hnone => ?_, fun h0 h1 h2 =>
    ⟨merkleReduce_single A cfg h0, fun hmode => merkleReduce_small hpolicy hmode h0 h1 h2⟩⟩
  · rw [merkleReduce_level A cfg level h, hnext, Option.bind_some]
  · rw [merkleReduce_level A cfg level (by omega)]
    cases hnext : merkleLevel A cfg level with
    | none => rfl
    | some next =>
      have hnode : next[j]? = none := (merkleLevel_getElem? hnext j hj).trans hnone
      have hlength := merkleLevel_length hnext
      rw [List.getElem?_eq_none_iff] at hnode
      omega

/-! ### When the reduction has a root -/

section
variable {A : Algo} {cfg : CfgRec} {d : Nat}

/-- Nodes of `d` bytes whose pair hashes have `d` bytes again make a level of such nodes. -/
theorem merkleLevel_ends (hpair : ∀ msg : List Byte, msg.length = 2 * d → ∃ h, hashDigest A cfg msg = some h ∧ h.length = d) :
    ∀ level : List (List Byte), (∀ n ∈ level, n.length = d) →
      ∃ next, merkleLevel A cfg level = some next ∧ ∀ n ∈ next, n.length = d
  | [], _ => ⟨[], rfl, by simp⟩
  | [last], hlevel => by
    have hlast : last.length = d := hlevel last (by simp)
    cases hpolicy : A.oddNode with
    | carryUp => exact ⟨[last], by simp only [merkleLevel, hpolicy], hlevel⟩
    | selfConcat =>
      obtain ⟨h, hh, hlen⟩ := hpair (last ++ last) (by rw [List.length_append]; omega)
      exact ⟨[h], by simp only [merkleLevel, hpolicy, hh, Option.map_some], by simpa using hlen⟩
  | a :: b :: rest, hlevel => by
    obtain ⟨h, hh, hlen⟩ := hpair (a ++ b) (by
      rw [List.length_append, hlevel a (by simp), hlevel b (by simp)]; omega)
    obtain ⟨tail, htail, hnodes⟩ := merkleLevel_ends hpair rest fun n hn => hlevel n (by simp [hn])
    refine ⟨h :: tail, by rw [merkleLevel_pair, hh, Option.bind_some, htail, Option.map_some], ?_⟩
    simpa using ⟨hlen, hnodes⟩

/-- A non-empty list of `d`-byte nodes has a root of `d` bytes when the pair hashes it needs end (R208). -/
theorem merkleReduce_ends (level : List (List Byte)) (hne : 0 < level.length) (hlevel : ∀ n ∈ level, n.length = d)
    (hpair : 1 < level.length → ∀ msg : List Byte, msg.length = 2 * d → ∃ h, hashDigest A cfg msg = some h ∧ h.length = d) :
    ∃ root, merkleReduce A cfg level = some root ∧ root.length = d := by
  induction hlen : level.length using Nat.strong_induction_on generalizing level with
  | _ n ih =>
    by_cases hmany : 1 < level.length
    · obtain ⟨next, hnext, hnodes⟩ := merkleLevel_ends (hpair hmany) level hlevel
      have hlength := merkleLevel_length hnext
      rw [merkleReduce_level A cfg level hmany, hnext, Option.bind_some]
      exact ih _ (by omega) next (by omega) hnodes (fun _ => hpair hmany) rfl
    · obtain ⟨root, rfl⟩ := List.length_eq_one_iff.mp (show level.length = 1 by omega)
      exact ⟨root, rfl, hlevel root (by simp)⟩

/-- More than one node have no root when their first pair hash never ends (43_dispatch_tree.md R187). -/
theorem merkleReduce_never (level : List (List Byte)) (hmany : 1 < level.length) (hlevel : ∀ n ∈ level, n.length = d)
    (hpair : ∀ msg : List Byte, msg.length = 2 * d → hashDigest A cfg msg = none) : merkleReduce A cfg level = none := by
  match level, hmany with
  | a :: b :: rest, hmany =>
    have hab : (a ++ b).length = 2 * d := by
      rw [List.length_append, hlevel a (by simp), hlevel b (by simp)]
      omega
    rw [merkleReduce_level A cfg _ hmany, merkleLevel_pair, hpair _ hab]
    rfl

end

end Sys2Proof.Machine
end

section
/-! SUPPORT. The commands that hash: they complete with the digest, or, with fan-out 1 over several nodes, never
(42 R155, 43 R184, R187, 45 R207, R208, 46 R220). -/

namespace Sys2Proof.Machine

/-! ### A legal configuration whose tree ends has a digest -/

section
variable {cfg : CfgRec} (hcfg : ConfigLegal cfg)
include hcfg

theorem ConfigLegal.hashDigest (A : Algo) {msg : List Byte} {n : Nat} (hmsg : msg.length = n) (h : HashEnds cfg n) :
    ∃ dg, hashDigest A cfg msg = some dg ∧ dg.length = digestBytes cfg.bits := by
  obtain ⟨hbits, -, -, hfan, hleaf, -⟩ := hcfg
  obtain ⟨dg, hdg⟩ := hashDigest_ends A cfg msg hleaf hfan (hmsg ▸ h)
  exact ⟨dg, hdg, hashDigest_length hbits hdg⟩

theorem ConfigLegal.treeHash (A : Algo) {msg : List Byte} {n : Nat} (hmsg : msg.length = n) (h : TreeEnds cfg n) :
    ∃ dg, treeHash A cfg msg = some dg ∧ dg.length = digestBytes cfg.bits := by
  obtain ⟨hbits, -, -, hfan, hleaf, -⟩ := hcfg
  obtain ⟨dg, hdg⟩ := treeHash_ends A cfg msg hleaf hfan (hmsg ▸ h)
  exact ⟨dg, hdg, treeHash_length hbits hdg⟩

theorem ConfigLegal.hashDigest_never (A : Algo) {msg : List Byte} {n : Nat} (hmsg : msg.length = n)
    (hmode : cfg.mode = modeTree) (hfan : cfg.fan = 1) (h : 1 < leafCount n cfg.leaf.toNat) :
    Machine.hashDigest A cfg msg = none := by
  obtain ⟨-, -, -, -, hleaf, -⟩ := hcfg
  rw [Machine.hashDigest, if_pos hmode]
  exact treeHash_never A cfg msg hleaf hfan (hmsg ▸ h)

end

/-! ### HASH, TREE and VERIFY once their checks pass -/

section
variable {s : State} (h : Ready s) (hcfg : ConfigLegal (currentConfig s)) (hsrc : InImem s s.srcAddr s.srcLen.toNat)
include h hcfg hsrc

theorem exec_hash_checked (hfits : (currentConfig s).mode = modeTree →
      TreeFits s.config (leafCount s.srcLen.toNat (currentConfig s).leaf.toNat)) :
    exec .hash s = ending s Instr.hash.opc
      (terminating (hashDigest (s.config.algoFor (currentConfig s).bits) (currentConfig s) (srcBytes s)) >>= fun dg =>
        .ok (digested s dg (currentConfig s).bits)) := by
  rw [exec_hash_ready s h, validateConfig_legal _ hcfg, except_bind_ok, checkRange_pos hsrc, except_bind_ok,
    checkTree_pos hfits, except_bind_ok]
  rfl

theorem exec_tree_checked (hfits : TreeFits s.config (leafCount s.srcLen.toNat (currentConfig s).leaf.toNat)) :
    exec .tree s = ending s Instr.tree.opc
      (terminating (treeHash (s.config.algoFor (currentConfig s).bits) (currentConfig s) (srcBytes s)) >>= fun dg =>
        .ok (digested s dg (currentConfig s).bits)) := by
  have hcheck : checkTree s { currentConfig s with mode := modeTree } = .ok () := checkTree_pos fun _ => hfits
  rw [exec_tree_ready s h, validateConfig_legal _ hcfg, except_bind_ok, checkRange_pos hsrc, except_bind_ok,
    hcheck, except_bind_ok]
  rfl

theorem exec_verify_checked (hexp : InImem s s.expAddr (digestBytes (currentConfig s).bits))
    (hfits : (currentConfig s).mode = modeTree →
      TreeFits s.config (leafCount s.srcLen.toNat (currentConfig s).leaf.toNat)) :
    exec .verify s = ending s Instr.verify.opc
      (terminating (hashDigest (s.config.algoFor (currentConfig s).bits) (currentConfig s) (srcBytes s)) >>= fun dg =>
        .ok { completed s (dg == expBytes s (digestBytes (currentConfig s).bits)) with
          out := zeroBlock, outLen := 0 }) := by
  rw [exec_verify_ready s h, validateConfig_legal _ hcfg, except_bind_ok, checkRange_pos hsrc, except_bind_ok,
    checkRange_pos hexp, except_bind_ok, checkTree_pos hfits, except_bind_ok]
  rfl

end

/-- Settles O17: the checks pass and the digest ends. -/
theorem hashWritesDigest : Obligations.HashWritesDigest := by
  intro s h hcfg hsrc hfits hends
  obtain ⟨dg, hdg, hlen⟩ := hcfg.hashDigest (s.config.algoFor (currentConfig s).bits) (srcBytes_length s) hends
  refine ⟨dg, hdg, hlen, fun hmode => ?_, ?_⟩
  · exact (Option.some.inj ((if_neg hmode).symm.trans hdg)).symm
  · rw [exec_hash_checked h hcfg hsrc hfits, hdg, terminating_some, except_bind_ok, ending_ok]

/-- Settles O18: the checks pass and the tree digest ends. -/
theorem treeWritesDigest : Obligations.TreeWritesDigest := by
  intro s h hcfg hsrc hfits hends
  obtain ⟨dg, hdg, hlen⟩ := hcfg.treeHash (s.config.algoFor (currentConfig s).bits) (srcBytes_length s) hends
  refine ⟨dg, hdg, hlen, ?_⟩
  rw [exec_tree_checked h hcfg hsrc hfits, hdg, terminating_some, except_bind_ok, ending_ok]

/-- Settles O19: the checks pass, the digest ends, and MATCH is the comparison. -/
theorem verifySetsMatch : Obligations.VerifySetsMatch := by
  intro s h hcfg hsrc hexp hfits hends
  obtain ⟨dg, hdg, -⟩ := hcfg.hashDigest (s.config.algoFor (currentConfig s).bits) (srcBytes_length s) hends
  refine ⟨dg, dg == expBytes s (digestBytes (currentConfig s).bits), hdg, beq_iff_eq, ?_⟩
  rw [exec_verify_checked h hcfg hsrc hexp hfits, hdg, terminating_some, except_bind_ok, ending_ok]

/-! ### VERIFY on the state HASH completed on -/

/-- A command on a ready core that leaves neither BUSY nor an error has completed. -/
theorem eq_ok_of_ending {s t : State} {opc : Byte} {x : Except Stop State} (h : ending s opc x = .next t)
    (hb : t.busy = false) (he : t.err = none) : x = .ok t := by
  match x, h with
  | .ok u, h => cases h; rfl
  | .error (.raises c), h => cases h; cases he
  | .error .never, h => cases h; cases hb

/-- The bytes of OUT after a digest: the digest first (10_state.md R22). -/
theorem ser_digestWords (dg : List Byte) (h : dg.length ≤ 128) : (ser (digestWords dg)).take dg.length = dg := by
  rw [digestWords, ser_words _ (by rw [zeroPad_length]; omega), zeroPad, List.take_left]

theorem digestBytes_le {bits : BitVec 16} (h : bits.toNat ∈ digestSizes) : digestBytes bits ≤ 128 := by
  simp only [digestSizes, List.mem_cons, List.not_mem_nil, or_false] at h
  rw [digestBytes]
  omega

/-- Settles O23: HASH has completed, so its checks pass, which are VERIFY's but for the expected bytes. -/
theorem verifyAgreesWithHash : Obligations.VerifyAgreesWithHash := by
  intro s t h hexp hhash hb he
  have hok := eq_ok_of_ending ((exec_hash_ready s h).symm.trans hhash) hb he
  simp only [bind_eq_ok, validateConfig_ok_iff, checkRange_ok_iff, checkTree_ok_iff, terminating_ok_iff, exists_const,
    except_pure, Except.ok.injEq] at hok
  obtain ⟨hcfg, hsrc, hfits, dg, hdg, rfl⟩ := hok
  have hlen := hashDigest_length hcfg.1 hdg
  refine ⟨{ completed s (dg == expBytes s (digestBytes (currentConfig s).bits)) with out := zeroBlock, outLen := 0 },
    ?_, rfl, h.2, ?_⟩
  · rw [exec_verify_checked h hcfg hsrc hexp hfits, hdg, terminating_some, except_bind_ok, ending_ok]
  · rw [← hlen, show (digested s dg (currentConfig s).bits).out = digestWords dg from rfl,
      ser_digestWords dg (hlen ▸ digestBytes_le hcfg.1), beq_iff_eq, hlen]
    exact eq_comm

/-! ### MK_BEGIN and the configuration a command reads -/

theorem extractLsb'_setWidth_64 (v : BitVec 24) (start len : Nat) (h : start + len ≤ 24) :
    (v.setWidth 64).extractLsb' start len = v.extractLsb' start len := by
  ext i hi
  simp only [BitVec.getElem_extractLsb', BitVec.getLsbD_setWidth]
  simp [show start + i < 64 by omega]

theorem getLsbD_setWidth_64 (v : BitVec 24) (i : Nat) (h : i < 64) : (v.setWidth 64).getLsbD i = v.getLsbD i := by
  simp [h]

theorem persBuffer_length (s : State) : (persBuffer s).length = 104 := by
  rw [persBuffer, flatMap_serWord_length]
  simp

/-- Byte `k` of the personalization is byte `k mod 8` of PERS[k div 8] (10_state.md R29). -/
theorem persBuffer_byte (s : State) (k : Nat) (hk : k < 104) :
    (persBuffer s)[k]? = some ((readReg s (0x20 + k / 8) >>> (8 * (k % 8))).setWidth 8) := by
  have hword : k / 8 < s.pers.toList.length := by simp; omega
  have hreg := readReg_pers s ⟨k / 8, by omega⟩
  have hbyte := flatMap_serWord_byte s.pers.toList (k / 8) hword (k % 8) (by omega)
  rw [show 8 * (k / 8) + k % 8 = k by omega] at hbyte
  rw [persBuffer, hbyte, hreg]
  simp

/-- Settles O34: the fields of CFG and the bytes of PERS; MK_BEGIN validates the configuration and freezes it. -/
theorem mkBeginFreezesConfig : Obligations.MkBeginFreezesConfig := by
  intro s
  refine ⟨(currentConfig s).pers, ?_⟩
  intro cfg
  have hcfg : currentConfig s = cfg := by
    have hreg : readReg s 0x02 = s.cfg.setWidth 64 := rfl
    simp only [cfg, hreg, extractLsb'_setWidth_64 s.cfg 0 16 (by decide), extractLsb'_setWidth_64 s.cfg 16 2 (by decide),
      extractLsb'_setWidth_64 s.cfg 20 4 (by decide), getLsbD_setWidth_64 s.cfg 18 (by decide),
      getLsbD_setWidth_64 s.cfg 19 (by decide)]
    rfl
  have hpers : (currentConfig s).pers = (persBuffer s).take (min s.persLen.toNat persMax) := rfl
  have hlen : (readReg s 0x05).toNat = s.persLen.toNat := rfl
  refine ⟨?_, fun k hk => ?_, hcfg, fun h hlegal => ?_⟩
  · rw [hpers, List.length_take, persBuffer_length, hlen, persMax]
    omega
  · rw [hlen] at hk
    rw [hpers, List.getElem?_take, if_pos (by rw [persMax]; exact hk), persBuffer_byte s k (by omega)]
  · rw [exec_mkBegin_ready s h, validateConfig_legal _ (hcfg ▸ hlegal), except_bind_ok, except_pure, ending_ok, hcfg]

/-! ### MK_PUSH and MK_ROOT once their checks pass -/

theorem exec_mkPush_checked {s : State} (h : Ready s) (hopen : s.merkle.isOpen = true)
    (hsrc : InImem s s.srcAddr s.srcLen.toNat) (hroom : NodeListHasRoom s)
    (hfits : s.merkle.cfg.mode = modeTree → TreeFits s.config (leafCount s.srcLen.toNat s.merkle.cfg.leaf.toNat)) :
    exec .mkPush s = ending s Instr.mkPush.opc
      (terminating (hashDigest (s.config.algoFor s.merkle.cfg.bits) s.merkle.cfg (srcBytes s)) >>= fun h =>
        .ok { completed s false with merkle := { s.merkle with nodes := s.merkle.nodes ++ [h] } }) := by
  rw [exec_mkPush_ready s h, require_pos _ hopen, except_bind_ok, checkRange_pos hsrc, except_bind_ok,
    require_pos _ hroom, except_bind_ok, checkTree_pos hfits, except_bind_ok]
  rfl

theorem exec_mkRoot_checked {s : State} (h : Ready s) (hopen : s.merkle.isOpen = true) (hnodes : s.merkle.nodes ≠ [])
    (hfits : PairsFit s) :
    exec .mkRoot s = ending s Instr.mkRoot.opc
      (terminating (merkleReduce (s.config.algoFor s.merkle.cfg.bits) s.merkle.cfg s.merkle.nodes) >>= fun dg =>
        .ok { digested s dg s.merkle.cfg.bits with merkle := resetMerkle }) := by
  rw [exec_mkRoot_ready s h, require_pos _ hopen, except_bind_ok, require_pos _ hnodes, except_bind_ok,
    require_pos _ hfits, except_bind_ok]
  rfl

/-- Settles O35: the checks pass and the digest ends; MK_COUNT is the number of nodes. -/
theorem mkPushAppendsDigest : Obligations.MkPushAppendsDigest := by
  intro s h hopen hcfg hsrc hroom hfits hends
  obtain ⟨dg, hdg, -⟩ := hcfg.hashDigest (s.config.algoFor s.merkle.cfg.bits) (srcBytes_length s) hends
  refine ⟨dg, _, hdg, rfl, ?_, ?_⟩
  · rw [exec_mkPush_checked h hopen hsrc hroom hfits, hdg, terminating_some, except_bind_ok, ending_ok]
  · show BitVec.ofNat 64 (s.merkle.nodes ++ [dg]).length = BitVec.ofNat 64 s.merkle.nodes.length + 1
    rw [List.length_append, BitVec.ofNat_add]
    rfl

/-- Under a legal configuration whose pair hashes end, a non-empty list of digests has a root (45_merkle.md R208). -/
theorem ConfigLegal.merkleReduce {cfg : CfgRec} (hcfg : ConfigLegal cfg) (A : Algo) (nodes : List (List Byte))
    (hne : nodes ≠ []) (hlen : ∀ n ∈ nodes, n.length = digestBytes cfg.bits)
    (hends : cfg.mode = modeTree → 1 < nodes.length → TreeEnds cfg (2 * digestBytes cfg.bits)) :
    ∃ root, merkleReduce A cfg nodes = some root ∧ root.length = digestBytes cfg.bits :=
  merkleReduce_ends nodes (List.length_pos_iff.mpr hne) hlen fun hmany _ hmsg =>
    hcfg.hashDigest A hmsg fun hmode => hends hmode hmany

/-- Settles O36: the checks pass and the reduction has a root. -/
theorem mkRootWritesRoot : Obligations.MkRootWritesRoot := by
  intro s h hopen hcfg hne hlen hfits hends
  obtain ⟨root, hroot, hlength⟩ :=
    hcfg.merkleReduce (s.config.algoFor s.merkle.cfg.bits) s.merkle.nodes hne hlen hends
  refine ⟨root, hroot, hlength, ?_⟩
  rw [exec_mkRoot_checked h hopen hne hfits, hroot, terminating_some, except_bind_ok, ending_ok]

/-! ### Fan-out 1 over several nodes -/

/-- Settles O27: each command's checks pass and its computation never ends. -/
theorem fanOutOneNeverCompletes : Obligations.FanOutOneNeverCompletes := by
  refine fun s h => ⟨?_, ?_, ?_⟩
  · intro hcfg hsrc hfan hmany hfits
    refine ⟨?_, fun hmode => ?_, fun hmode hexp => ?_⟩
    · obtain ⟨-, -, -, -, hleaf, -⟩ := id hcfg
      have hnever := treeHash_never (s.config.algoFor (currentConfig s).bits) (currentConfig s) (srcBytes s) hleaf hfan
        (by rwa [srcBytes_length])
      rw [exec_tree_checked h hcfg hsrc hfits, hnever, terminating_none, except_bind_error, ending_never]
    · have hnever := hcfg.hashDigest_never (s.config.algoFor (currentConfig s).bits) (srcBytes_length s) hmode hfan hmany
      rw [exec_hash_checked h hcfg hsrc (fun _ => hfits), hnever, terminating_none, except_bind_error, ending_never]
    · have hnever := hcfg.hashDigest_never (s.config.algoFor (currentConfig s).bits) (srcBytes_length s) hmode hfan hmany
      rw [exec_verify_checked h hcfg hsrc hexp (fun _ => hfits), hnever, terminating_none, except_bind_error,
        ending_never]
  · intro hopen hsrc hroom hcfg hmode hfan hmany hfits
    have hnever := hcfg.hashDigest_never (s.config.algoFor s.merkle.cfg.bits) (srcBytes_length s) hmode hfan hmany
    rw [exec_mkPush_checked h hopen hsrc hroom (fun _ => hfits), hnever, terminating_none, except_bind_error,
      ending_never]
  · intro hopen hcfg hmode hfan hnodes hlen hfits hmany
    have hnever := merkleReduce_never (A := s.config.algoFor s.merkle.cfg.bits) s.merkle.nodes hnodes hlen
      fun msg hmsg => hcfg.hashDigest_never _ hmsg hmode hfan hmany
    have hne : s.merkle.nodes ≠ [] := List.ne_nil_of_length_pos (by omega)
    rw [exec_mkRoot_checked h hopen hne hfits, hnever, terminating_none, except_bind_error, ending_never]

end Sys2Proof.Machine
end

section
/-! SUPPORT. S_UPDATE on the streaming context: the counters and the invariants of 10_state.md R33, and the pass the
context stands for (42_dispatch_seq_stream.md R157 to R159). -/

namespace Sys2Proof.Machine

/-! ### Absorbing a chunk -/

/-- A context of at most one block has nothing to consume. -/
theorem absorbBlocks_short (A : Algo) (turns : Nat) (x : StreamCtx) (h : x.res.length ≤ 128) :
    absorbBlocks A turns x = x := by
  cases turns with
  | zero => rfl
  | succ turns => rw [absorbBlocks, if_neg (by omega)]

/-- The context with a chunk appended, before any block of it is consumed. -/
abbrev appended (x : StreamCtx) (chunk : List Byte) : StreamCtx := { x with res := x.res ++ chunk }

/-- The context after the loop of S_UPDATE, TOTAL not yet counted. -/
def consumed (A : Algo) (x : StreamCtx) (chunk : List Byte) : StreamCtx :=
  absorbBlocks A (x.res ++ chunk).length (appended x chunk)

theorem absorb_eq (A : Algo) (x : StreamCtx) (chunk : List Byte) (len : Word) :
    absorb A x chunk len = { consumed A x chunk with total := (consumed A x chunk).total + len } := by
  simp only [absorb, consumed]

theorem consumed_spec (A : Algo) (x : StreamCtx) (chunk : List Byte) : Consumed (appended x chunk) (consumed A x chunk) :=
  absorbBlocks_consumed A _ _

theorem consumed_res_le (A : Algo) (x : StreamCtx) (chunk : List Byte) : (consumed A x chunk).res.length ≤ 128 :=
  absorbBlocks_residual A _ _ (by show (x.res ++ chunk).length ≤ _; omega)

theorem absorb_total (A : Algo) (x : StreamCtx) (chunk : List Byte) (len : Word) :
    (absorb A x chunk len).total = x.total + len := by
  rw [absorb_eq, (consumed_spec A x chunk).total]

theorem absorb_short (A : Algo) (x : StreamCtx) (chunk : List Byte) (len : Word) (h : x.res.length + chunk.length ≤ 128) :
    absorb A x chunk len = { x with res := x.res ++ chunk, total := x.total + len } := by
  rw [absorb_eq, consumed, absorbBlocks_short _ _ _ (by rw [List.length_append]; exact h)]

theorem exec_sUpdate_checked {s : State} (h : Ready s) (hphase : s.stream.phase = .opened)
    (hsrc : InImem s s.srcAddr s.srcLen.toNat) : exec .sUpdate s = .next { completed s false with
      stream := absorb (s.config.algoFor s.stream.bits) s.stream (srcBytes s) s.srcLen } := by
  rw [exec_sUpdate_ready s h, require_pos _ hphase, except_bind_ok, checkRange_pos hsrc, except_bind_ok, except_pure,
    ending_ok]

/-- Settles O30: both checks pass; TOTAL by `absorb_total`, a short chunk by `absorb_short`. -/
theorem sUpdateAbsorbsChunk : Obligations.SUpdateAbsorbsChunk := by
  intro s h hphase hsrc
  refine ⟨exec_sUpdate_checked h hphase hsrc, absorb_total _ _ _ _, fun hshort => ?_⟩
  exact absorb_short _ _ _ _ (by rwa [imemBytes_length])

/-! ### The invariants of an open context (10_state.md R33) -/

/-- Blocks consumed keep the position a multiple of 128, also where it wraps (41_ubi.md R136). -/
theorem pos_add_blocks_mod (pos : Word) (k : Nat) (h : pos.toNat % 128 = 0) :
    (pos + BitVec.ofNat 64 (128 * k)).toNat % 128 = 0 := by
  rw [BitVec.toNat_add, BitVec.toNat_ofNat]
  omega

section
variable {x : StreamCtx} (A : Algo) {chunk : List Byte} {len : Word} (hlen : chunk.length = len.toNat)
include hlen

/-- Position and residual together keep counting the bytes absorbed. -/
theorem absorb_count (hcount : x.pos + BitVec.ofNat 64 x.res.length = x.total) :
    (absorb A x chunk len).pos + BitVec.ofNat 64 (absorb A x chunk len).res.length = (absorb A x chunk len).total := by
  have hspec := consumed_spec A x chunk
  rw [absorb_eq]
  dsimp only
  rw [hspec.bytes, hspec.total, List.length_append, BitVec.ofNat_add, ← BitVec.add_assoc, hcount, hlen]
  simp

/-- All that S_UPDATE can do to residual, position and FIRST: append only, or consume `k` blocks and keep a byte. -/
theorem absorb_cases :
    ((absorb A x chunk len).res = x.res ++ chunk ∧ (absorb A x chunk len).pos = x.pos
        ∧ (absorb A x chunk len).first = x.first)
      ∨ ∃ k, 1 ≤ k ∧ 128 * k < x.res.length + len.toNat
        ∧ (absorb A x chunk len).res.length = x.res.length + len.toNat - 128 * k
        ∧ (absorb A x chunk len).pos = x.pos + BitVec.ofNat 64 (128 * k) ∧ (absorb A x chunk len).first = false := by
  rw [absorb_eq]
  rcases (consumed_spec A x chunk).blocks with heq | ⟨k, hk, hpos, hres, hlt, hfirst⟩
  · rw [heq]
    exact .inl ⟨rfl, rfl, rfl⟩
  · rw [List.length_append, hlen] at hlt
    exact .inr ⟨k, hk, hlt, by rw [hres, List.length_drop, List.length_append, hlen], hpos, hfirst⟩

theorem absorb_pos_mod (hpos : x.pos.toNat % 128 = 0) : (absorb A x chunk len).pos.toNat % 128 = 0 := by
  rcases absorb_cases (x := x) A hlen with ⟨-, heq, -⟩ | ⟨k, -, -, -, heq, -⟩
  · rw [heq, hpos]
  · rw [heq]
    exact pos_add_blocks_mod _ k hpos

end

theorem absorb_res_le (A : Algo) (x : StreamCtx) (chunk : List Byte) (len : Word) :
    (absorb A x chunk len).res.length ≤ 128 := by
  rw [absorb_eq]
  exact consumed_res_le A x chunk

theorem absorb_phase (A : Algo) (x : StreamCtx) (chunk : List Byte) (len : Word) :
    (absorb A x chunk len).phase = x.phase := by
  rw [absorb_eq]
  exact (consumed_spec A x chunk).phase

theorem absorb_bits (A : Algo) (x : StreamCtx) (chunk : List Byte) (len : Word) :
    (absorb A x chunk len).bits = x.bits := by
  rw [absorb_eq]
  exact (consumed_spec A x chunk).bits

/-- The invariants that survive a wrap are kept by S_UPDATE (log 17). -/
theorem StreamInv.absorb {x : StreamCtx} (h : StreamInv x) (hphase : x.phase = .opened) (A : Algo) {chunk : List Byte}
    {len : Word} (hlen : chunk.length = len.toNat) : StreamInv (absorb A x chunk len) := by
  obtain ⟨-, -, hopened⟩ := h
  obtain ⟨hcount, hpos, -, hfirst, hrest, hbits⟩ := hopened hphase
  have hopen := (absorb_phase A x chunk len).trans hphase
  refine ⟨fun he => absurd (hopen.symm.trans he) (by decide), fun hf => absurd (hopen.symm.trans hf) (by decide),
    fun _ => ⟨absorb_count A hlen hcount, absorb_pos_mod A hlen hpos, absorb_res_le A x chunk len, ?_, ?_,
      by rw [absorb_bits]; exact hbits⟩⟩
  · rcases absorb_cases (x := x) A hlen with ⟨-, hpos', hfirst'⟩ | ⟨k, -, -, -, -, hfirst'⟩
    · rw [hpos', hfirst']
      exact hfirst
    · rw [hfirst']
      simp
  · rcases absorb_cases (x := x) A hlen with ⟨hres', -, hfirst'⟩ | ⟨k, -, hlt, hres', -, -⟩
    · rw [hres', hfirst']
      exact fun hf => List.append_ne_nil_of_left_ne_nil (hrest hf) chunk
    · exact fun _ => List.ne_nil_of_length_pos (by omega)

theorem word_eq_zero_iff (w : Word) : w = 0 ↔ w.toNat = 0 :=
  ⟨fun h => by rw [h]; rfl, fun h => BitVec.eq_of_toNat_eq (by simpa using h)⟩

/-- In a context as R33 describes it the counters have not wrapped. -/
theorem StreamExact.toNat_total {x : StreamCtx} (h : StreamExact x) : x.pos.toNat + x.res.length = x.total.toNat := by
  obtain ⟨hcount, hpos, hres, hempty, -⟩ := h
  have htotal : x.total.toNat = (x.pos.toNat + x.res.length) % 2 ^ 64 := by
    rw [← hcount, BitVec.toNat_add, BitVec.toNat_ofNat, Nat.add_mod_mod]
  rw [word_eq_zero_iff] at hempty
  have hlt := x.pos.isLt
  omega

/-- R33 as written is kept by S_UPDATE until the count wraps. -/
theorem StreamExact.absorb {x : StreamCtx} (h : StreamExact x) (A : Algo) {chunk : List Byte} {len : Word}
    (hlen : chunk.length = len.toNat) (hwrap : x.total.toNat + len.toNat < 2 ^ 64) :
    StreamExact (absorb A x chunk len) := by
  have hbytes := h.toNat_total
  obtain ⟨hcount, hpos, hres, hempty, hfirst⟩ := h
  have htotal : (x.total + len).toNat = x.total.toNat + len.toNat := by
    rw [BitVec.toNat_add, Nat.mod_eq_of_lt hwrap]
  refine ⟨absorb_count A hlen hcount, absorb_pos_mod A hlen hpos, absorb_res_le A x chunk len, ?_, ?_⟩
  · rw [absorb_total, word_eq_zero_iff, htotal]
    rw [word_eq_zero_iff] at hempty
    rcases absorb_cases (x := x) A hlen with ⟨hres', -, -⟩ | ⟨k, -, hlt, hres', -, -⟩
    · rw [hres', List.length_append, hlen]
      omega
    · omega
  · rcases absorb_cases (x := x) A hlen with ⟨-, hpos', hfirst'⟩ | ⟨k, hk, hlt, -, hpos', hfirst'⟩
    · rw [hpos', hfirst']
      exact hfirst
    · have hposNat : (x.pos + BitVec.ofNat 64 (128 * k)).toNat = x.pos.toNat + 128 * k := by
        rw [BitVec.toNat_add, BitVec.toNat_ofNat]
        omega
      rw [hfirst', hpos', word_eq_zero_iff, hposNat]
      simp
      omega

/-! ### What each command does to the context -/

/-- All a command can do to the streaming context if it answers a next state. -/
theorem exec_stream_cases {i : Instr} {s t : State} (h : exec i s = .next t) :
    t.stream = s.stream
      ∨ (i = .wipe ∧ t.stream = resetStream)
      ∨ (i = .sInit ∧ ConfigLegal (currentConfig s)
          ∧ t.stream = openStream (s.config.algoFor (currentConfig s).bits) (currentConfig s))
      ∨ (i = .sUpdate ∧ s.stream.phase = .opened
          ∧ t.stream = absorb (s.config.algoFor s.stream.bits) s.stream (srcBytes s) s.srcLen)
      ∨ (i = .sFinal ∧ t.stream = closeStream s.stream) := by
  by_cases hi : i ∉ [Instr.sInit, .sUpdate, .sFinal, .wipe]
  · exact .inl (exec_stream hi h)
  have hne : i ≠ .clrerr := by rintro rfl; simp at hi
  obtain ⟨-, ⟨-, rfl⟩ | ⟨-, hdone⟩ | ⟨-, c, rfl⟩ | ⟨-, rfl⟩⟩ := exec_next i hne s t h
  · exact .inl rfl
  · cases i <;> simp only [Completes] at hdone
    case wipe => exact .inr (.inl ⟨rfl, by rw [hdone]; rfl⟩)
    case sInit =>
      obtain ⟨hcfg, rfl⟩ := hdone
      exact .inr (.inr (.inl ⟨rfl, hcfg, by simp⟩))
    case sUpdate =>
      obtain ⟨hphase, -, rfl⟩ := hdone
      exact .inr (.inr (.inr (.inl ⟨rfl, hphase, by simp⟩)))
    case sFinal =>
      obtain ⟨-, -, rfl⟩ := hdone
      exact .inr (.inr (.inr (.inr ⟨rfl, by simp⟩)))
    all_goals simp at hi
  · exact .inl rfl
  · exact .inl rfl

/-- Settles O33: an open context after the command is the one before it, a fresh one, or that one after a chunk. -/
theorem streamExactUntilWrap : Obligations.StreamExactUntilWrap := by
  intro i s t hexact hwrap h hopen
  rcases exec_stream_cases h with heq | ⟨-, heq⟩ | ⟨-, -, heq⟩ | ⟨hi, hphase, heq⟩ | ⟨-, heq⟩
  · rw [heq] at hopen ⊢
    exact hexact hopen
  · rw [heq] at hopen
    cases hopen
  · rw [heq]
    exact ⟨rfl, rfl, Nat.zero_le _, ⟨fun _ => rfl, fun _ => rfl⟩, ⟨fun _ => rfl, fun _ => rfl⟩⟩
  · rw [heq]
    exact (hexact hphase).absorb _ (srcBytes_length s) (hwrap hi)
  · rw [heq] at hopen
    cases hopen

end Sys2Proof.Machine
end

section
/-! SUPPORT. Whole sessions: the host's script step by step, and what a streaming and a Merkle session leave
(30_encoding.md R86, 42_dispatch_seq_stream.md R159, 45_merkle.md R205). -/

namespace Sys2Proof.Machine

/-! ### Runs of the host's script -/

theorem coreRun_succ {M : Host.Core} {s t : M.State} (k : Nat) (h : M.step s = .next t) :
    M.run (k + 1) s = M.run k t := by
  rw [Host.Core.run, h]

theorem run_succ {s t : State} (k : Nat) (h : step s = .next t) :
    Host.Core.run core (k + 1) s = Host.Core.run core k t :=
  coreRun_succ (M := core) (s := s) (t := t) k h

theorem run_one {s t : State} (h : step s = .next t) : Host.Core.run core 1 s = .next t := run_succ 0 h

/-- One run after another. -/
theorem run_add {M : Host.Core} {s t : M.State} {m : Nat} (n : Nat) (h : M.run m s = .next t) :
    M.run (m + n) s = M.run n t := by
  induction m generalizing s with
  | zero =>
    cases h
    rw [Nat.zero_add]
  | succ m ih =>
    rw [Nat.add_right_comm, Host.Core.run]
    rw [Host.Core.run] at h
    cases hstep : M.step s with
    | next u =>
      rw [hstep] at h
      exact ih h
    | fault r => rw [hstep] at h; cases h
    | refused r => rw [hstep] at h; cases h

/-- A register write at the head of the script. -/
theorem step_writeReg {s : State} {idx : Nat} {v : Word} {rest : List HostAction} (hb : s.busy = false) (hidx : idx ≠ 0)
    (hscript : s.script = .writeReg 8 idx v :: rest) : step s = .next (writeReg { s with script := rest } idx v) := by
  rw [step_cons s _ rest hscript, hostAccess_writeReg { s with script := rest } idx v hb hidx]

/-- A command at the head of the script is executed. -/
theorem step_encode {s : State} {i : Instr} {rest : List HostAction} (hb : s.busy = false)
    (hscript : s.script = issueAccess (encode i) :: rest) : step s = exec i { s with script := rest } :=
  step_issue hb hscript (decode_encode i)

/-- The accesses that hand a chunk or transaction to the command `i`: its address, its length, the command. -/
abbrev operandAccesses (i : Instr) (c : Word × Word) : List HostAction :=
  [.writeReg 8 0x06 c.1, .writeReg 8 0x07 c.2, issueAccess (encode i)]

/-- The state the command of `operandAccesses` runs on. -/
abbrev withOperand (s : State) (c : Word × Word) (rest : List HostAction) : State :=
  { s with srcAddr := c.1, srcLen := c.2, script := rest }

theorem run_operandAccesses {s t : State} {i : Instr} {c : Word × Word} {rest : List HostAction} (hb : s.busy = false)
    (hscript : s.script = operandAccesses i c ++ rest) (h : exec i (withOperand s c rest) = .next t) :
    Host.Core.run core (operandAccesses i c).length s = .next t := by
  have haddr : step s = .next { s with srcAddr := c.1, script := .writeReg 8 0x07 c.2 :: issueAccess (encode i) :: rest } :=
    step_writeReg hb (by decide) hscript
  have hlen : step { s with srcAddr := c.1, script := .writeReg 8 0x07 c.2 :: issueAccess (encode i) :: rest }
      = .next { s with srcAddr := c.1, srcLen := c.2, script := issueAccess (encode i) :: rest } :=
    step_writeReg (s := { s with srcAddr := c.1, script := _ }) hb (by decide) rfl
  have hexec : step { s with srcAddr := c.1, srcLen := c.2, script := issueAccess (encode i) :: rest }
      = exec i (withOperand s c rest) :=
    step_encode (s := { s with srcAddr := c.1, srcLen := c.2, script := _ }) hb rfl
  exact (run_succ 2 haddr).trans ((run_succ 1 hlen).trans (run_one (hexec.trans h)))

/-- The command leaves the rest of the script to the host. -/
theorem exec_script {i : Instr} {s t : State} (h : exec i s = .next t) : t.script = s.script := by
  have hheld := exec_hostHeld h
  simp only [hostHeld, Prod.mk.injEq] at hheld
  tauto

/-- The middle of a session: when handing over each operand after those before it leads from `P` of those to `P` of
one more, handing over all of them leads to `P` of all. -/
theorem run_operands (i : Instr) (P : List (Word × Word) → State → Prop) (cs : List (Word × Word))
    (hidle : ∀ before u, P before u → u.busy = false)
    (hstep : ∀ before c after u rest, cs = before ++ c :: after → P before u →
      ∃ t, exec i (withOperand u c rest) = .next t ∧ P (before ++ [c]) t)
    {u : State} {rest : List HostAction} (hu : P [] u) (hscript : u.script = cs.flatMap (operandAccesses i) ++ rest) :
    ∃ t, Host.Core.run core (cs.flatMap (operandAccesses i)).length u = .next t ∧ P cs t ∧ t.script = rest := by
  suffices hsuffix : ∀ after before (u : State), cs = before ++ after → P before u →
      u.script = after.flatMap (operandAccesses i) ++ rest →
      ∃ t, Host.Core.run core (after.flatMap (operandAccesses i)).length u = .next t ∧ P cs t ∧ t.script = rest from
    hsuffix cs [] u rfl hu hscript
  intro after
  induction after with
  | nil =>
    intro before u hcs hu hscript
    exact ⟨u, rfl, by rwa [hcs, List.append_nil], hscript⟩
  | cons c after ih =>
    intro before u hcs hu hscript
    rw [List.flatMap_cons, List.append_assoc] at hscript
    obtain ⟨v, hexec, hv⟩ := hstep before c after u (after.flatMap (operandAccesses i) ++ rest) hcs hu
    have hrun := run_operandAccesses (hidle before u hu) hscript hexec
    obtain ⟨t, ht, hP, hrest⟩ := ih (before ++ [c]) v (by rw [hcs]; simp) hv (exec_script hexec)
    refine ⟨t, ?_, hP, hrest⟩
    rw [List.flatMap_cons, List.length_append, run_add _ hrun, ht]

/-! ### The pass a streaming context stands for -/

/-- The context `x` stands for a MSG pass from `G` over `data`: its full blocks are chained, the rest is the residual,
which is empty only while there is no data. -/
structure StreamsPass (A : Algo) (G : Block) (data : List Byte) (x : StreamCtx) : Prop where
  chained : ∃ full : List (List Byte), (∀ b ∈ full, b.length = 128) ∧ data = full.flatten ++ x.res
    ∧ (x.sg, x.pos, x.first) = full.foldl (ubiStep A tagMsg) (G, 0, true) ∧ (x.res = [] → full = [])

theorem StreamsPass.consumeBlock {A : Algo} {G : Block} {data : List Byte} {x : StreamCtx} (h : StreamsPass A G data x)
    (hlong : 128 < x.res.length) : StreamsPass A G data (consumeBlock A x) := by
  obtain ⟨full, hfull, hdata, hfold, -⟩ := h.chained
  refine ⟨full ++ [x.res.take 128], ?_, ?_, ?_, fun hnil => ?_⟩
  · intro b hb
    rcases List.mem_append.mp hb with hb | hb
    · exact hfull b hb
    · rw [List.mem_singleton.mp hb, List.length_take]
      omega
  · rw [hdata, List.flatten_append, consumeBlock_res]
    simp
  · rw [List.foldl_append, ← hfold]
    rfl
  · rw [consumeBlock_res, List.drop_eq_nil_iff] at hnil
    omega

theorem StreamsPass.absorbBlocks {A : Algo} {G : Block} {data : List Byte} (turns : Nat) {x : StreamCtx}
    (h : StreamsPass A G data x) : StreamsPass A G data (absorbBlocks A turns x) := by
  induction turns generalizing x with
  | zero => exact h
  | succ turns ih =>
    rw [Machine.absorbBlocks]
    split
    · next hlong => exact ih (h.consumeBlock hlong)
    · exact h

/-- S_UPDATE extends the pass by the chunk. -/
theorem StreamsPass.absorb {A : Algo} {G : Block} {data : List Byte} {x : StreamCtx} (h : StreamsPass A G data x)
    (chunk : List Byte) (len : Word) : StreamsPass A G (data ++ chunk) (absorb A x chunk len) := by
  have happended : StreamsPass A G (data ++ chunk) (appended x chunk) := by
    obtain ⟨full, hfull, hdata, hfold, hnil⟩ := h.chained
    refine ⟨full, hfull, by rw [hdata, List.append_assoc], hfold, fun hres => hnil ?_⟩
    exact (List.append_eq_nil_iff.mp hres).1
  rw [absorb_eq]
  exact ⟨(happended.absorbBlocks (x.res ++ chunk).length).chained⟩

/-- The FINAL block over the residual ends the pass (42_dispatch_seq_stream.md R158). -/
theorem StreamsPass.final {A : Algo} {G : Block} {data : List Byte} {x : StreamCtx} (h : StreamsPass A G data x)
    (hres : x.res.length ≤ 128) :
    ubiBlock A x.sg x.res (x.pos + BitVec.ofNat 64 x.res.length) x.first true tagMsg = ubi A G tagMsg data := by
  obtain ⟨full, hfull, hdata, hfold, hnil⟩ := h.chained
  have hlast := ubiBlocks_full_last A tagMsg full x.res hfull (G, 0, true)
  rw [← hfold] at hlast
  rw [← hlast, ubi, hdata]
  by_cases hempty : x.res = []
  · rw [hempty, hnil hempty]
    rfl
  · rw [pieces_of_ne_nil _ _ (by simp [hempty]), chunks_flatten 128 (by decide) full x.res hfull hempty hres]

theorem openStream_streamsPass (A : Algo) (cfg : CfgRec) :
    StreamsPass A (postConfig A cfg cfg.mode) [] (openStream A cfg) :=
  ⟨[], by simp, rfl, rfl, fun _ => rfl⟩

/-! ### The streaming session -/

/-- In a streaming session begun on `s`, after the chunks `before`: ready, the same core and IMEM, the context open over
the chunks so far. -/
structure StreamingAt (s : State) (before : List (Word × Word)) (u : State) : Prop where
  ready : Ready u
  config : u.config = s.config
  imem : u.imem = s.imem
  epoch : u.epoch = s.epoch
  phase : u.stream.phase = .opened
  bits : u.stream.bits = (currentConfig s).bits
  res : u.stream.res.length ≤ 128
  pass : StreamsPass (s.config.algoFor (currentConfig s).bits)
    (postConfig (s.config.algoFor (currentConfig s).bits) (currentConfig s) (currentConfig s).mode)
    (before.flatMap (chunkBytes s)) u.stream

theorem srcBytes_withOperand {s u : State} (himem : u.imem = s.imem) (hepoch : u.epoch = s.epoch) (c : Word × Word)
    (rest : List HostAction) : srcBytes (withOperand u c rest) = chunkBytes s c :=
  imemBytes_congr s (withOperand u c rest) _ _ himem hepoch

/-- S_INIT begins the session. -/
theorem streamingAt_begin {s : State} (h : Ready s) (hcfg : ConfigLegal (currentConfig s)) (rest : List HostAction) :
    ∃ t, exec .sInit { s with script := rest } = .next t ∧ StreamingAt s [] t :=
  ⟨_, sInitOpensContext { s with script := rest } h hcfg, ⟨h, rfl, rfl, rfl, rfl, rfl, Nat.zero_le _,
    openStream_streamsPass _ _⟩⟩

/-- S_UPDATE continues it with one more chunk. -/
theorem StreamingAt.update {s u : State} {before : List (Word × Word)} (hu : StreamingAt s before u) (c : Word × Word)
    (hc : InImem s c.1 c.2.toNat) (rest : List HostAction) :
    ∃ t, exec .sUpdate (withOperand u c rest) = .next t ∧ StreamingAt s (before ++ [c]) t := by
  have hsrc : InImem (withOperand u c rest) c.1 c.2.toNat := by rwa [InImem, hu.config]
  refine ⟨_, exec_sUpdate_checked hu.ready hu.phase hsrc, ⟨hu.ready, hu.config, hu.imem, hu.epoch, ?_, ?_, ?_, ?_⟩⟩
  · exact (absorb_phase _ _ _ _).trans hu.phase
  · exact (absorb_bits _ _ _ _).trans hu.bits
  · exact absorb_res_le _ _ _ _
  · have halgo : (withOperand u c rest).config.algoFor (withOperand u c rest).stream.bits
        = s.config.algoFor (currentConfig s).bits := by rw [hu.config, hu.bits]
    rw [halgo, srcBytes_withOperand hu.imem hu.epoch, List.flatMap_append, List.flatMap_singleton]
    exact hu.pass.absorb _ _

theorem streamSession_eq (cs : List (Word × Word)) : streamSession cs = issueAccess (encode .sInit)
    :: (cs.flatMap (operandAccesses .sUpdate) ++ [issueAccess (encode .sFinal)]) := rfl

/-- S_FINAL ends the session with the sequential digest of its chunks. -/
theorem StreamingAt.final {s u : State} {cs : List (Word × Word)} (hu : StreamingAt s cs u) (rest : List HostAction) :
    ∃ t, exec .sFinal { u with script := rest } = .next t
      ∧ t.out = digestWords (hashSeq (s.config.algoFor (currentConfig s).bits) (currentConfig s) (currentConfig s).mode
          (cs.flatMap (chunkBytes s)))
      ∧ t.outLen = digestLen (currentConfig s).bits
      ∧ t.stream.phase = .finalized ∧ t.done = true ∧ t.err = none ∧ t.script = rest := by
  have hdigest : streamDigest (s.config.algoFor (currentConfig s).bits) u.stream
      = hashSeq (s.config.algoFor (currentConfig s).bits) (currentConfig s) (currentConfig s).mode
          (cs.flatMap (chunkBytes s)) := by
    rw [streamDigest, hu.pass.final hu.res, hu.bits, hashSeq]
  refine ⟨_, sFinalWritesDigest { u with script := rest } hu.ready hu.phase hu.res, ?_, ?_, rfl, rfl, hu.ready.2, rfl⟩
  · show digestWords (streamDigest (u.config.algoFor u.stream.bits) u.stream) = _
    rw [hu.config, hu.bits, hdigest]
  · show digestLen u.stream.bits = _
    rw [hu.bits]

/-- Settles O32: S_INIT, the chunks by `run_operands`, and S_FINAL. -/
theorem streamingEqualsSequential : Obligations.StreamingEqualsSequential := by
  intro s cs rest h hcfg hin hscript
  rw [streamSession_eq, List.cons_append, List.append_assoc, List.singleton_append] at hscript
  rw [streamSession_eq, List.length_cons, List.length_append, List.length_singleton]
  obtain ⟨u, hinit, hu⟩ := streamingAt_begin h hcfg
    (cs.flatMap (operandAccesses .sUpdate) ++ issueAccess (encode .sFinal) :: rest)
  have hrun1 := (step_encode h.1 hscript).trans hinit
  obtain ⟨v, hrun2, hv, hvscript⟩ := run_operands .sUpdate (StreamingAt s) cs (fun _ _ hP => hP.ready.1)
    (fun before c after w rest hcs hw => hw.update c (hin c (by rw [hcs]; simp)) rest) hu (exec_script hinit)
  obtain ⟨t, hfinal, ht⟩ := hv.final rest
  have hrun3 := run_one ((step_encode hv.ready.1 hvscript).trans hfinal)
  exact ⟨t, (run_succ _ hrun1).trans ((run_add 1 hrun2).trans hrun3), ht⟩

/-! ### The Merkle session -/

/-- In a Merkle session begun on `s`, after the transactions `before`: ready, the same core and IMEM, the list open
under the configuration at MK_BEGIN with their digests as its nodes. -/
structure MerkleAt (s : State) (before : List (Word × Word)) (u : State) : Prop where
  ready : Ready u
  config : u.config = s.config
  imem : u.imem = s.imem
  epoch : u.epoch = s.epoch
  isOpen : u.merkle.isOpen = true
  cfg : u.merkle.cfg = currentConfig s
  nodes : before.map (fun c => hashDigest (s.config.algoFor (currentConfig s).bits) (currentConfig s) (chunkBytes s c))
    = u.merkle.nodes.map some

theorem MerkleAt.nodes_length {s u : State} {before : List (Word × Word)} (hu : MerkleAt s before u) :
    u.merkle.nodes.length = before.length := by
  simpa using (congrArg List.length hu.nodes).symm

/-- MK_BEGIN begins the session. -/
theorem merkleAt_begin {s : State} (h : Ready s) (hcfg : ConfigLegal (currentConfig s)) (rest : List HostAction) :
    ∃ t, exec .mkBegin { s with script := rest } = .next t ∧ MerkleAt s [] t := by
  refine ⟨{ completed { s with script := rest } false with
    merkle := { isOpen := true, cfg := currentConfig s, nodes := [] } }, ?_, ⟨h, rfl, rfl, rfl, rfl, rfl, rfl⟩⟩
  rw [exec_mkBegin_ready { s with script := rest } h, validateConfig_legal (currentConfig { s with script := rest }) hcfg,
    except_bind_ok, except_pure, ending_ok]
  rfl

/-- MK_PUSH continues it with the digest of one more transaction. -/
theorem MerkleAt.push {s u : State} {before : List (Word × Word)} (hu : MerkleAt s before u) (c : Word × Word)
    {dg : List Byte} (hc : InImem s c.1 c.2.toNat) (hroom : s.config.mkMax ≠ some before.length)
    (hfits : (currentConfig s).mode = modeTree →
      TreeFits s.config (leafCount c.2.toNat (currentConfig s).leaf.toNat))
    (hdg : hashDigest (s.config.algoFor (currentConfig s).bits) (currentConfig s) (chunkBytes s c) = some dg)
    (rest : List HostAction) :
    ∃ t, exec .mkPush (withOperand u c rest) = .next t ∧ MerkleAt s (before ++ [c]) t := by
  have hsrc : InImem (withOperand u c rest) c.1 c.2.toNat := by rwa [InImem, hu.config]
  have hroom : NodeListHasRoom (withOperand u c rest) := by rwa [NodeListHasRoom, hu.config, hu.nodes_length]
  have hfits : u.merkle.cfg.mode = modeTree → TreeFits u.config (leafCount c.2.toNat u.merkle.cfg.leaf.toNat) := by
    rwa [hu.cfg, hu.config]
  have hdigest : hashDigest (u.config.algoFor u.merkle.cfg.bits) u.merkle.cfg (srcBytes (withOperand u c rest))
      = some dg := by
    rwa [hu.config, hu.cfg, srcBytes_withOperand hu.imem hu.epoch]
  refine ⟨{ completed (withOperand u c rest) false with
    merkle := { u.merkle with nodes := u.merkle.nodes ++ [dg] } }, ?_,
    ⟨hu.ready, hu.config, hu.imem, hu.epoch, hu.isOpen, hu.cfg, ?_⟩⟩
  · rw [exec_mkPush_checked (s := withOperand u c rest) hu.ready hu.isOpen hsrc hroom hfits, hdigest, terminating_some,
      except_bind_ok, ending_ok]
  · rw [List.map_append, List.map_append, hu.nodes, List.map_singleton, List.map_singleton, hdg]

/-- MK_ROOT ends the session with the reduction of the digests. -/
theorem MerkleAt.root {s u : State} {txs : List (Word × Word)} (hu : MerkleAt s txs u)
    (hcfg : ConfigLegal (currentConfig s)) (hne : txs ≠ [])
    (hpairs : (currentConfig s).mode = modeTree → 1 < txs.length →
      TreeFits s.config (ceilDiv (2 * digestBytes (currentConfig s).bits) (currentConfig s).leaf.toNat)
        ∧ TreeEnds (currentConfig s) (2 * digestBytes (currentConfig s).bits)) (rest : List HostAction) :
    ∃ t root, exec .mkRoot { u with script := rest } = .next t
      ∧ merkleReduce (s.config.algoFor (currentConfig s).bits) (currentConfig s) u.merkle.nodes = some root
      ∧ t.out = digestWords root ∧ t.outLen = digestLen (currentConfig s).bits
      ∧ t.merkle = resetMerkle ∧ t.done = true ∧ t.err = none ∧ t.script = rest := by
  have hlen : ∀ n ∈ u.merkle.nodes, n.length = digestBytes (currentConfig s).bits := fun n hn => by
    have hmem : some n ∈ u.merkle.nodes.map some := List.mem_map_of_mem hn
    rw [← hu.nodes] at hmem
    obtain ⟨c, -, hc⟩ := List.mem_map.mp hmem
    exact hashDigest_length hcfg.1 hc
  have hnodes : u.merkle.nodes ≠ [] :=
    List.ne_nil_of_length_pos (by rw [hu.nodes_length]; exact List.length_pos_iff.mpr hne)
  have hfits : PairsFit { u with script := rest } := by
    show u.merkle.cfg.mode = modeTree → 1 < u.merkle.nodes.length → TreeFits u.config _
    rw [hu.cfg, hu.config, hu.nodes_length]
    exact fun hmode hmany => (hpairs hmode hmany).1
  obtain ⟨root, hroot, -⟩ := hcfg.merkleReduce (s.config.algoFor (currentConfig s).bits) u.merkle.nodes hnodes hlen
    fun hmode hmany => (hpairs hmode (hu.nodes_length ▸ hmany)).2
  have hreduce : merkleReduce (u.config.algoFor u.merkle.cfg.bits) u.merkle.cfg u.merkle.nodes = some root := by
    rwa [hu.config, hu.cfg]
  refine ⟨{ digested { u with script := rest } root u.merkle.cfg.bits with merkle := resetMerkle }, root, ?_, hroot, rfl,
    ?_, rfl, rfl, hu.ready.2, rfl⟩
  · rw [exec_mkRoot_checked (s := { u with script := rest }) hu.ready hu.isOpen hnodes hfits, hreduce, terminating_some,
      except_bind_ok, ending_ok]
  · show digestLen u.merkle.cfg.bits = _
    rw [hu.cfg]

theorem merkleSession_eq (txs : List (Word × Word)) : merkleSession txs = issueAccess (encode .mkBegin)
    :: (txs.flatMap (operandAccesses .mkPush) ++ [issueAccess (encode .mkRoot)]) := rfl

/-- Settles O37: MK_BEGIN, the transactions by `run_operands`, and MK_ROOT; the nodes are then the given digests. -/
theorem merkleSessionComputesRoot : Obligations.MerkleSessionComputesRoot := by
  intro s txs hs rest h hcfg hne hin hroom hfits hpairs hdigests hscript
  rw [merkleSession_eq, List.cons_append, List.append_assoc, List.singleton_append] at hscript
  rw [merkleSession_eq, List.length_cons, List.length_append, List.length_singleton]
  obtain ⟨u, hbegin, hu⟩ := merkleAt_begin h hcfg
    (txs.flatMap (operandAccesses .mkPush) ++ issueAccess (encode .mkRoot) :: rest)
  have hrun1 := (step_encode h.1 hscript).trans hbegin
  have hpush : ∀ before c after w rest, txs = before ++ c :: after → MerkleAt s before w →
      ∃ t, exec .mkPush (withOperand w c rest) = .next t ∧ MerkleAt s (before ++ [c]) t := by
    intro before c after w rest htxs hw
    have hmem : c ∈ txs := by rw [htxs]; simp
    obtain ⟨dg, -, hdg⟩ := List.mem_map.mp (hdigests ▸ List.mem_map_of_mem hmem)
    refine hw.push c (hin c hmem) (fun hfull => ?_) (fun hmode => hfits hmode c hmem) hdg.symm rest
    have hle := hroom _ hfull
    rw [htxs, List.length_append, List.length_cons] at hle
    omega
  obtain ⟨v, hrun2, hv, hvscript⟩ := run_operands .mkPush (MerkleAt s) txs (fun _ _ hP => hP.ready.1) hpush hu
    (exec_script hbegin)
  have hnodes : v.merkle.nodes = hs :=
    List.map_injective_iff.mpr (Option.some_injective _) (hv.nodes.symm.trans hdigests)
  obtain ⟨t, root, hmkRoot, hroot, ht⟩ := hv.root hcfg hne hpairs rest
  have hrun3 := run_one ((step_encode hv.ready.1 hvscript).trans hmkRoot)
  exact ⟨t, root, (run_succ _ hrun1).trans ((run_add 1 hrun2).trans hrun3), hnodes ▸ hroot, ht⟩

end Sys2Proof.Machine
end

section
/-! SUPPORT. The machine's invariant, part by part: what each command does to the Merkle list and to the results, and
that every host access keeps all of it (10_state.md R22, R33, R34; 20_memory.md R60; 60_exceptions.md R244). -/

namespace Sys2Proof.Machine

/-! ### The streaming context -/

theorem streamInv_reset : StreamInv resetStream :=
  ⟨fun _ => rfl, fun h => absurd h (by decide), fun h => absurd h (by decide)⟩

theorem streamInv_openStream (A : Algo) {cfg : CfgRec} (h : cfg.bits.toNat ∈ digestSizes) :
    StreamInv (openStream A cfg) :=
  ⟨fun he => absurd he (by simp [openStream]), fun hf => absurd hf (by simp [openStream]),
    fun _ => ⟨rfl, rfl, Nat.zero_le _, fun _ => rfl, fun hf => absurd hf (by simp [openStream]), h⟩⟩

theorem streamInv_closeStream (x : StreamCtx) : StreamInv (closeStream x) :=
  ⟨fun he => absurd he (by simp [closeStream]), fun _ => ⟨rfl, rfl, rfl, rfl, rfl⟩,
    fun ho => absurd ho (by simp [closeStream])⟩

theorem exec_streamInv {i : Instr} {s t : State} (hinv : StreamInv s.stream) (h : exec i s = .next t) :
    StreamInv t.stream := by
  rcases exec_stream_cases h with heq | ⟨-, heq⟩ | ⟨-, hcfg, heq⟩ | ⟨-, hphase, heq⟩ | ⟨-, heq⟩
  · rwa [heq]
  · rw [heq]; exact streamInv_reset
  · rw [heq]; exact streamInv_openStream _ hcfg.1
  · rw [heq]; exact hinv.absorb hphase _ (srcBytes_length s)
  · rw [heq]; exact streamInv_closeStream _

/-! ### The Merkle list -/

/-- All a command can do to the Merkle list if it answers a next state. -/
theorem exec_merkle_cases {i : Instr} {s t : State} (h : exec i s = .next t) :
    t.merkle = s.merkle ∨ t.merkle = resetMerkle
      ∨ (ConfigLegal (currentConfig s) ∧ t.merkle = { isOpen := true, cfg := currentConfig s, nodes := [] })
      ∨ ∃ dg, s.merkle.isOpen = true ∧ NodeListHasRoom s
          ∧ hashDigest (s.config.algoFor s.merkle.cfg.bits) s.merkle.cfg (srcBytes s) = some dg
          ∧ t.merkle = { s.merkle with nodes := s.merkle.nodes ++ [dg] } := by
  by_cases hi : i ∉ [Instr.mkBegin, .mkPush, .mkRoot, .wipe]
  · exact .inl (exec_merkle hi h)
  have hne : i ≠ .clrerr := by rintro rfl; simp at hi
  obtain ⟨-, ⟨-, rfl⟩ | ⟨-, hdone⟩ | ⟨-, c, rfl⟩ | ⟨-, rfl⟩⟩ := exec_next i hne s t h
  · exact .inl rfl
  · cases i <;> simp only [Completes] at hdone
    case wipe => exact .inr (.inl (by rw [hdone]; rfl))
    case mkBegin =>
      obtain ⟨hcfg, rfl⟩ := hdone
      exact .inr (.inr (.inl ⟨hcfg, by simp⟩))
    case mkPush =>
      obtain ⟨hopen, hroom, dg, hdg, rfl⟩ := hdone
      exact .inr (.inr (.inr ⟨dg, hopen, hroom, by simpa using hdg, by simp⟩))
    case mkRoot =>
      obtain ⟨-, -, dg, -, rfl⟩ := hdone
      exact .inr (.inl (by simp))
    all_goals simp at hi
  · exact .inl rfl
  · exact .inl rfl

theorem merkleInv_reset (c : Config) : MerkleInv c resetMerkle :=
  ⟨fun _ => rfl, fun h => absurd h (by decide), by cases c.mkMax <;> simp [resetMerkle]⟩

theorem exec_merkleInv {i : Instr} {s t : State} (hinv : MerkleInv s.config s.merkle) (h : exec i s = .next t) :
    MerkleInv t.config t.merkle := by
  rw [exec_config h]
  rcases exec_merkle_cases h with heq | heq | ⟨hcfg, heq⟩ | ⟨dg, hopen, hroom, hdg, heq⟩
  · rwa [heq]
  · rw [heq]; exact merkleInv_reset _
  · rw [heq]
    exact ⟨fun hclosed => absurd hclosed (by simp), fun _ => ⟨hcfg, currentConfig_pers_length s, by simp⟩,
      by cases s.config.mkMax <;> simp⟩
  · rw [heq]
    obtain ⟨-, hlegal, hcapacity⟩ := hinv
    obtain ⟨hcfg, hpers, hnodes⟩ := hlegal hopen
    refine ⟨fun hclosed => absurd hclosed (by simp [hopen]), fun _ => ⟨hcfg, hpers, fun n hn => ?_⟩, ?_⟩
    · rcases List.mem_append.mp hn with hn | hn
      · exact hnodes n hn
      · rw [List.mem_singleton.mp hn]
        exact hashDigest_length hcfg.1 hdg
    · cases hmax : s.config.mkMax with
      | none => rfl
      | some k =>
        have hle : s.merkle.nodes.length ≤ k := by simpa [hmax] using hcapacity
        have hne : k ≠ s.merkle.nodes.length := fun hk => hroom (by rw [hmax, hk])
        simp only [Option.all_some, decide_eq_true_eq, List.length_append, List.length_singleton]
        omega

/-! ### The results -/

/-- The nodes of the next level have the length of a digest, if those of this level have. -/
theorem merkleLevel_nodes {A : Algo} {cfg : CfgRec} (hbits : cfg.bits.toNat ∈ digestSizes) :
    ∀ {level next : List (List Byte)}, merkleLevel A cfg level = some next →
      (∀ n ∈ level, n.length = digestBytes cfg.bits) → ∀ n ∈ next, n.length = digestBytes cfg.bits
  | [], next, h, _ => by cases h; simp
  | [last], next, h, hlevel => by
    simp only [merkleLevel] at h
    split at h
    · cases h; exact hlevel
    · obtain ⟨dg, hdg, rfl⟩ := Option.map_eq_some_iff.mp h
      simpa using hashDigest_length hbits hdg
  | a :: b :: rest, next, h, hlevel => by
    obtain ⟨dg, tail, hdg, htail, rfl⟩ := merkleLevel_pair_some h
    have hrest := merkleLevel_nodes hbits htail fun n hn => hlevel n (by simp [hn])
    simpa using ⟨hashDigest_length hbits hdg, hrest⟩

/-- A root has the length of a digest, if the nodes have (42_dispatch_seq_stream.md R160, 45_merkle.md R208). -/
theorem merkleLoop_length {A : Algo} {cfg : CfgRec} (hbits : cfg.bits.toNat ∈ digestSizes) (turns : Nat)
    {level : List (List Byte)} {root : List Byte} (h : merkleLoop A cfg turns level = some root)
    (hlevel : ∀ n ∈ level, n.length = digestBytes cfg.bits) : root.length = digestBytes cfg.bits := by
  induction turns generalizing level with
  | zero =>
    rcases level with _ | ⟨a, _ | ⟨b, rest⟩⟩
    · cases h
    · cases h; exact hlevel root (by simp)
    · cases h
  | succ turns ih =>
    rcases level with _ | ⟨a, _ | ⟨b, rest⟩⟩
    · exact ih h (by simp)
    · cases h; exact hlevel root (by simp)
    · rw [merkleLoop_succ _ _ _ _ (by simp)] at h
      obtain ⟨next, hnext, hloop⟩ := Option.bind_eq_some_iff.mp h
      exact ih hloop (merkleLevel_nodes hbits hnext hlevel)

/-- A digest result: the words of a digest of a legal size, and its length (10_state.md R22). -/
def IsDigestResult (r : Block × Word) : Prop :=
  ∃ (dg : List Byte) (bits : BitVec 16), bits.toNat ∈ digestSizes ∧ dg.length = digestBytes bits
    ∧ r = (digestWords dg, digestLen bits)

@[simp] theorem resultRegs_setDone (s : State) (m : Bool) : resultRegs (setDone s m) = resultRegs s := rfl

@[simp] theorem resultRegs_setStream (s : State) (x : StreamCtx) : resultRegs (setStream s x) = resultRegs s := rfl

@[simp] theorem resultRegs_setMerkle (s : State) (m : MerkleList) : resultRegs (setMerkle s m) = resultRegs s := rfl

theorem resultRegs_writeBlockResult (s : State) (v : Block) : resultRegs (writeBlockResult s v) = (v, 128) := rfl

theorem resultRegs_clearResult (s : State) : resultRegs (clearResult s) = (zeroBlock, 0) := rfl

/-- A digest of a legal size written is a digest result. -/
theorem isDigestResult_writeDigest (s : State) (dg : List Byte) (bits : BitVec 16) (hbits : bits.toNat ∈ digestSizes)
    (hlen : dg.length = digestBytes bits) : IsDigestResult (resultRegs (writeDigest s dg bits)) :=
  ⟨dg, bits, hbits, hlen, rfl⟩

/-- All a command can do to the result registers from a state that meets the sessions' invariants. -/
theorem exec_result_cases {i : Instr} {s t : State} (hstream : StreamInv s.stream) (hmerkle : MerkleInv s.config s.merkle)
    (h : exec i s = .next t) :
    resultRegs t = resultRegs s ∨ resultRegs t = (zeroBlock, 0) ∨ (∃ v, resultRegs t = (v, 128))
      ∨ IsDigestResult (resultRegs t) := by
  by_cases hi : i ∈ [Instr.nop, .clrerr, .sInit, .sUpdate, .mkBegin, .mkPush]
  · exact .inl (exec_resultRegs hi h)
  have hne : i ≠ .clrerr := by rintro rfl; simp at hi
  obtain ⟨-, ⟨-, rfl⟩ | ⟨-, hdone⟩ | ⟨-, c, rfl⟩ | ⟨-, rfl⟩⟩ := exec_next i hne s t h
  · exact .inl rfl
  · cases i <;> simp only [Completes] at hdone
    case wipe => exact .inr (.inl (by rw [hdone]; rfl))
    case verify =>
      obtain ⟨-, dg, -, rfl⟩ := hdone
      exact .inr (.inl (resultRegs_clearResult (countCommand s)))
    case enc | dec | ubi =>
      obtain ⟨-, -, rfl⟩ := hdone
      exact .inr (.inr (.inl ⟨_, resultRegs_writeBlockResult (countCommand s) _⟩))
    case hash =>
      obtain ⟨hcfg, dg, hdg, rfl⟩ := hdone
      refine .inr (.inr (.inr ?_))
      rw [resultRegs_setDone]
      exact isDigestResult_writeDigest (countCommand s) dg _ hcfg.1 (hashDigest_length hcfg.1 hdg)
    case tree =>
      obtain ⟨hcfg, dg, hdg, rfl⟩ := hdone
      refine .inr (.inr (.inr ?_))
      rw [resultRegs_setDone]
      exact isDigestResult_writeDigest (countCommand s) dg _ hcfg.1 (treeHash_length hcfg.1 hdg)
    case mac =>
      obtain ⟨hcfg, rfl⟩ := hdone
      refine .inr (.inr (.inr ?_))
      rw [resultRegs_setDone]
      exact isDigestResult_writeDigest (countCommand s) _ _ hcfg.1 (truncDigest_length _ _ hcfg.1)
    case sFinal =>
      obtain ⟨hphase, -, rfl⟩ := hdone
      obtain ⟨-, -, hopened⟩ := hstream
      obtain ⟨-, -, -, -, -, hbits⟩ := hopened hphase
      refine .inr (.inr (.inr ?_))
      rw [resultRegs_setDone, resultRegs_setStream]
      exact isDigestResult_writeDigest (countCommand s) _ _ hbits (truncDigest_length _ _ hbits)
    case mkRoot =>
      obtain ⟨hopen, -, dg, hdg, rfl⟩ := hdone
      obtain ⟨-, hlegal, -⟩ := hmerkle
      obtain ⟨hcfg, -, hnodes⟩ := hlegal hopen
      refine .inr (.inr (.inr ?_))
      rw [resultRegs_setDone, resultRegs_setMerkle]
      exact isDigestResult_writeDigest (countCommand s) dg _ hcfg.1 (merkleLoop_length hcfg.1 _ hdg hnodes)
    all_goals simp at hi
  · exact .inl rfl
  · exact .inl rfl

/-- The result registers' invariant, on their contents. -/
theorem resultInv_of_regs {s : State} {v : Block} {len : Word} (h : resultRegs s = (v, len))
    (hlen : len.toNat ∈ [0, 32, 64, 128]) (hzero : ∀ i < 16, len.toNat ≤ 8 * i → blockWord v i = 0) : ResultInv s := by
  simp only [resultRegs, Prod.mk.injEq] at h
  obtain ⟨rfl, rfl⟩ := h
  exact ⟨hlen, hzero⟩

theorem IsDigestResult.resultInv {s : State} (h : IsDigestResult (resultRegs s)) : ResultInv s := by
  obtain ⟨dg, bits, hbits, hlen, hregs⟩ := h
  have hsize : digestBytes bits ∈ [0, 32, 64, 128] := by
    simp only [digestSizes, List.mem_cons, List.not_mem_nil, or_false] at hbits
    rw [digestBytes]
    rcases hbits with h | h | h <;> simp [h]
  have htoNat : (digestLen bits).toNat = digestBytes bits := by
    have hle := digestBytes_le hbits
    rw [digestLen, BitVec.toNat_ofNat]
    omega
  refine resultInv_of_regs hregs (by rwa [htoNat]) fun i hi hbeyond => ?_
  exact digestWords_beyond dg i (by omega) hi

theorem exec_resultInv {i : Instr} {s t : State} (hstream : StreamInv s.stream) (hmerkle : MerkleInv s.config s.merkle)
    (hresult : ResultInv s) (h : exec i s = .next t) : ResultInv t := by
  rcases exec_result_cases hstream hmerkle h with heq | hclear | ⟨v, hblock⟩ | hdigest
  · exact resultInv_of_regs heq hresult.1 hresult.2
  · exact resultInv_of_regs hclear (by decide) fun i _ _ => blockWord_zeroBlock i
  · refine resultInv_of_regs hblock (by decide) fun i hi hbeyond => ?_
    have h128 : (128 : Word).toNat = 128 := rfl
    omega
  · exact hdigest.resultInv

/-! ### IMEM and errors -/

theorem exec_imemInv {i : Instr} {s t : State} (hinv : ImemInv s) (h : exec i s = .next t) : ImemInv t := by
  rwa [ImemInv, exec_imem h, exec_config h]

/-- A core without an error meets the invariant of errors. -/
theorem errorInv_of_none {s : State} (h : s.err = none) : ErrorInv s := ⟨by rw [h]; rfl, fun _ => h⟩

/-- An idle core whose error is not InternalInvariant meets the invariant of errors. -/
theorem errorInv_of_some {s : State} {e : ErrorRecord} (h : s.err = some e) (hkind : causeKind e.cause ≠ .internalInvariant)
    (hb : s.busy = false) : ErrorInv s :=
  ⟨by rw [h]; exact decide_eq_true hkind, fun hbusy => absurd hbusy (by simp [hb])⟩

/-- CLRERR ends with no error, or leaves the one it may not clear. -/
theorem returnFromError_err (s : State) :
    (returnFromError s).err = none ∨ returnFromError s = s := by
  cases he : s.err with
  | none =>
    rw [returnFromError_none s he]
    exact .inl he
  | some e =>
    by_cases hkind : causeKind e.cause = .internalInvariant
    · exact .inr (returnFromError_internalInvariant s e he hkind)
    · rw [returnFromError_clears s e he hkind]
      exact .inl rfl

theorem exec_errorInv {i : Instr} {s t : State} (hstream : StreamInv s.stream) (herr : ErrorInv s)
    (h : exec i s = .next t) : ErrorInv t := by
  by_cases hi : i = .clrerr
  · subst hi
    obtain ⟨-, rfl⟩ := exec_clrerr_next s t h
    rcases returnFromError_err (countCommand s) with hnone | hsame
    · exact errorInv_of_none hnone
    · rw [hsame]
      exact herr
  · obtain ⟨hb, ⟨-, rfl⟩ | ⟨hnone, hdone⟩ | ⟨hnone, c, rfl⟩ | ⟨hnone, rfl⟩⟩ := exec_next i hi s t h
    · exact herr
    · exact errorInv_of_none (hdone.err_eq.trans hnone)
    · have hlisted := exec_listedCause hnone h rfl hstream.res_le
      exact errorInv_of_some rfl hlisted.not_internal hb
    · exact errorInv_of_none hnone

/-! ### The whole invariant -/

/-- Every command keeps the invariant. -/
theorem exec_inv {i : Instr} {s t : State} (hinv : Inv s) (h : exec i s = .next t) : Inv t := by
  obtain ⟨hstream, hmerkle, hresult, himem, herr⟩ := hinv
  exact ⟨exec_streamInv hstream h, exec_merkleInv hmerkle h, exec_resultInv hstream hmerkle hresult h,
    exec_imemInv himem h, exec_errorInv hstream herr h⟩

/-- An illegal word keeps the invariant: its cause is an InvalidUsage. -/
theorem illegalCommand_inv {w : Word} {s t : State} (hinv : Inv s) (h : illegalCommand w s = .next t) : Inv t := by
  obtain ⟨hstream, hmerkle, hresult, himem, herr⟩ := hinv
  obtain ⟨hb, ⟨-, rfl⟩ | ⟨-, hok⟩ | ⟨hnone, c, hraises, rfl⟩ | ⟨-, hnever, -⟩⟩ := runCommand_cases _ _ s t h
  · exact ⟨hstream, hmerkle, hresult, himem, herr⟩
  · cases hok
  · cases hraises
    exact ⟨hstream, hmerkle, hresult, himem, errorInv_of_some rfl (show causeKind .illegalCmd ≠ .internalInvariant by decide) hb⟩
  · cases hnever

theorem issueWord_inv {w : Word} {s t : State} (hinv : Inv s) (h : issueWord w s = .next t) : Inv t := by
  unfold issueWord at h
  split at h
  next => exact exec_inv hinv h
  next => exact illegalCommand_inv hinv h

theorem writeReg_inv {s : State} (hinv : Inv s) (idx : Nat) (v : Word) : Inv (writeReg s idx v) := by
  rw [writeReg_eq]
  exact hinv

/-- A host write of IMEM inside its bounds keeps the canonical form and the bounds. -/
theorem writeMem_inv {s : State} (hinv : Inv s) {width addr : Nat} (v : Word) (haddr : addr + width ≤ s.config.imemSize) :
    Inv { s with imem := memWriteBytes s.imem addr (lowBytes width v) } := by
  obtain ⟨hstream, hmerkle, hresult, ⟨hwf, hbound⟩, herr⟩ := hinv
  exact ⟨hstream, hmerkle, hresult, ⟨memWf_memWriteBytes _ _ _ hwf,
    memWriteBytes_bound _ _ _ _ hbound (by rwa [lowBytes_length])⟩, herr⟩

/-- Settles O52: every part of the invariant at the reset values. -/
theorem resetMeetsInv : Obligations.ResetMeetsInv := by
  intro c epoch script
  exact ⟨streamInv_reset, merkleInv_reset c,
    resultInv_of_regs (v := zeroBlock) (len := 0) rfl (by decide) fun i _ _ => blockWord_zeroBlock i, ⟨rfl, fun _ hcell => absurd hcell List.not_mem_nil⟩, errorInv_of_none rfl⟩

/-- Every access of the host keeps the invariant. -/
theorem hostAccess_inv {a : HostAction} {s t : State} (hinv : Inv s) (h : hostAccess a s = .next t) : Inv t := by
  cases a with
  | writeReg width idx v =>
    obtain ⟨-, -, ⟨-, hissue⟩ | ⟨-, rfl⟩⟩ := hostWriteReg_next h
    · exact issueWord_inv hinv hissue
    · exact writeReg_inv hinv idx v
  | readReg width idx =>
    obtain ⟨-, rfl⟩ := hostReadReg_next h
    exact hinv
  | writeMem width addr v =>
    obtain ⟨-, -, haddr, rfl⟩ := hostWriteMem_next h
    exact writeMem_inv hinv v haddr
  | readMem width addr =>
    obtain ⟨-, rfl⟩ := hostReadMem_next h
    exact hinv
  | reset =>
    cases h
    exact resetMeetsInv _ _ _

/-- Settles O51: a step is no access, or one access on the state without it. -/
theorem everyStepKeepsInv : Obligations.EveryStepKeepsInv := by
  intro s t hinv h
  cases hscript : s.script with
  | nil =>
    rw [step_nil s hscript] at h
    cases h
    exact hinv
  | cons a rest =>
    rw [step_cons s a rest hscript] at h
    exact hostAccess_inv (s := { s with script := rest }) hinv h

end Sys2Proof.Machine
end
